-- ==== Sys2Proof/Word.lean ====
section
/-! DEFINITION. The word types of the machine (00_scope.md R8, R9): bytes, linear addresses, vector and opmask
registers, and the register-number fields of an encoding. Bit 0 is the least significant bit (R9). -/

namespace Sys2Proof

/-- One byte, the addressable unit (10_state.md R32). -/
abbrev Byte := BitVec 8

/-- A 64-bit linear or effective address, or the contents of a general register (R26, R32). -/
abbrev Addr := BitVec 64

/-- A vector register's contents, MAX_VL = 512 bits (R7, R20). -/
abbrev Vec := BitVec 512

/-- An opmask register's contents, 64 bits (R23). -/
abbrev Mask := BitVec 64

/-- A vector register number, 0 to 31 (R20, R68). -/
abbrev VReg := BitVec 5

/-- An opmask register number, 0 to 7; as a writemask field, 0 names no register (R23, R69). -/
abbrev KReg := BitVec 3

/-- A general register number, 0 to 15 (R26). -/
abbrev GReg := BitVec 4

end Sys2Proof
end

