-- ==== Sys2Proof/Config.lean ====
section
/-! DEFINITION. The execution environment `Env` of 00_scope.md R8 (plain data, constant over a run, carried by State),
the fixed parameters of the spec's decisions, and the two free values the spec leaves open. -/

namespace Sys2Proof

/-- The operating modes the spec names (R2, R8, R148); only `long64` is admitted (R60). -/
inductive Mode where
  | long64
  | protected32
  | compat32
  | real
  | virtual8086
  | systemManagement
  deriving DecidableEq, Repr

/-- VA_BITS, the number of implemented linear-address bits (R8, R50). -/
inductive VaBits where
  | va48
  | va57
  deriving DecidableEq, Repr

/-- The kind of a memory access, the second argument of `Translate` (R49). -/
inductive AccessKind where
  | fetch
  | write
  deriving DecidableEq, Repr

/-- What `Translate` answers for one byte (R49). -/
inductive XlatAnswer where
  | ok
  | pageFault (code : BitVec 32)
  deriving DecidableEq, Repr

/-- A range of linear addresses, both ends included. -/
structure AddrRange where
  first : Addr
  last : Addr
  deriving DecidableEq, Repr

/-- One entry of `Translate` as data: the answer for accesses of this kind inside this range. -/
structure XlatEntry where
  range : AddrRange
  kind : AccessKind
  answer : XlatAnswer
  deriving DecidableEq, Repr

/-- `zero_len_check` (R8, R52): whether a store of zero bytes at a non-canonical address raises. `either` admits both
outcomes, drawn from `Config.zeroLenDraw`; the other two are R52's names for a deterministic model. -/
inductive ZeroLenCheck where
  | raises
  | completes
  | either
  deriving DecidableEq, Repr

/-- The configuration record `Env` (R8, R29), with the launch data that no instruction writes: the program text
(R170), `Translate` as a finite list (R49) and the device marks of the launch memory (R47). -/
structure Env where
  mode : Mode
  hasAvx512Vbmi2 : Bool
  hasAvx512Vl : Bool
  osAvx512Enabled : Bool
  cr0Ts : Bool
  acEnabled : Bool
  vaBits : VaBits
  zeroLenCheck : ZeroLenCheck
  translate : List XlatEntry
  devices : List AddrRange
  progBase : Addr
  progBytes : List Byte
  deriving DecidableEq, Repr

namespace Config

/-- MAX_VL, the width of a vector register in bits (R7). -/
def maxVl : Nat := 512

/-- NVREG, the number of vector registers (R8, R20). -/
def nvreg : Nat := 32

/-- NKREG, the number of opmask registers (R8, R23). -/
def nkreg : Nat := 8

/-- The architecture's limit on an instruction's length in bytes (R90). -/
def maxInstrBytes : Nat := 15

/-- FREE VALUE (20_memory.md R43; notes/assumptions/9.md): whether the n-th open choice, met at an odd word store with
alignment checking in force, raises #AC. No body: nothing can be proved of it. -/
opaque acDraw : Nat → Bool

/-- FREE VALUE (20_memory.md R52; notes/assumptions/10.md): whether the n-th open choice, met at a zero-length store to a
non-canonical address under `ZeroLenCheck.either`, raises. -/
opaque zeroLenDraw : Nat → Bool

end Config

end Sys2Proof
end

