-- ==== Sys2Proof/Syntax.lean ====
section
/-! DEFINITION. The instructions as syntax: one constructor per row of spec/opcode_table.json (30_encoding.md R80), with
the operands of R66 to R76. Field values are those of the encoding with the stored inversions undone. -/

namespace Sys2Proof

/-- The element size, ESIZE (00_scope.md R6): byte for VPCOMPRESSB, word for VPCOMPRESSW. -/
inductive ElemSize where
  | byte
  | word
  deriving DecidableEq, Repr

/-- The vector length, VL (R6). -/
inductive VecLen where
  | v128
  | v256
  | v512
  deriving DecidableEq, Repr

/-- A segment override the model admits: 64H or 65H (R89). -/
inductive SegOverride where
  | fs
  | gs
  deriving DecidableEq, Repr

/-- The legacy prefixes before the 62H byte (R89): at most one segment override and at most one address-size prefix
67H, in either order. The order is kept so that an instruction has one encoding. -/
inductive Prefixes where
  | none
  | seg (o : SegOverride)
  | addr32
  | segAddr32 (o : SegOverride)
  | addr32Seg (o : SegOverride)
  deriving DecidableEq, Repr

/-- A displacement (R75): absent, one byte (scaled by N, R76), or four bytes. -/
inductive Disp where
  | none
  | disp8 (d : BitVec 8)
  | disp32 (d : BitVec 32)
  deriving DecidableEq, Repr

/-- A memory operand (R71 to R73). Register numbers are the four-bit numbers with their extension bit. The fields named
`ignored` are extension bits the form does not use (R71): they are kept so that no bit of an encoding is lost. An index
of 4 means no index (R73). -/
inductive MemOperand where
  /-- A base register without a SIB byte. -/
  | base (base : GReg) (disp : Disp) (ignoredX : BitVec 1)
  /-- RIP-relative with disp32 (R72). -/
  | rip (disp : BitVec 32) (ignoredX ignoredB : BitVec 1)
  /-- A SIB byte with a base register. -/
  | sib (base index : GReg) (scale : BitVec 2) (disp : Disp)
  /-- A SIB byte without a base register: `mod` = 00 and SIB.base = 101. -/
  | sibNoBase (index : GReg) (scale : BitVec 2) (disp : BitVec 32) (ignoredB : BitVec 1)
  deriving DecidableEq, Repr

/-- The twelve instructions. Store forms take the prefixes, the writemask field aaa (0 names none), the source
register and the memory operand; register forms take the prefixes, EVEX.z, aaa, the destination and the source. -/
inductive Instr where
  /-- Row 1, R101: VPCOMPRESSB m128{k1}, xmm1. -/
  | vpcompressbM128 (pfx : Prefixes) (k : KReg) (src : VReg) (mem : MemOperand)
  /-- Row 2, R102: VPCOMPRESSB xmm1{k1}{z}, xmm2. -/
  | vpcompressbXmm (pfx : Prefixes) (z : Bool) (k : KReg) (dst src : VReg)
  /-- Row 3, R103: VPCOMPRESSB m256{k1}, ymm1. -/
  | vpcompressbM256 (pfx : Prefixes) (k : KReg) (src : VReg) (mem : MemOperand)
  /-- Row 4, R104: VPCOMPRESSB ymm1{k1}{z}, ymm2. -/
  | vpcompressbYmm (pfx : Prefixes) (z : Bool) (k : KReg) (dst src : VReg)
  /-- Row 5, R105: VPCOMPRESSB m512{k1}, zmm1. -/
  | vpcompressbM512 (pfx : Prefixes) (k : KReg) (src : VReg) (mem : MemOperand)
  /-- Row 6, R106: VPCOMPRESSB zmm1{k1}{z}, zmm2. -/
  | vpcompressbZmm (pfx : Prefixes) (z : Bool) (k : KReg) (dst src : VReg)
  /-- Row 7, R111: VPCOMPRESSW m128{k1}, xmm1. -/
  | vpcompresswM128 (pfx : Prefixes) (k : KReg) (src : VReg) (mem : MemOperand)
  /-- Row 8, R112: VPCOMPRESSW xmm1{k1}{z}, xmm2. -/
  | vpcompresswXmm (pfx : Prefixes) (z : Bool) (k : KReg) (dst src : VReg)
  /-- Row 9, R113: VPCOMPRESSW m256{k1}, ymm1. -/
  | vpcompresswM256 (pfx : Prefixes) (k : KReg) (src : VReg) (mem : MemOperand)
  /-- Row 10, R114: VPCOMPRESSW ymm1{k1}{z}, ymm2. -/
  | vpcompresswYmm (pfx : Prefixes) (z : Bool) (k : KReg) (dst src : VReg)
  /-- Row 11, R115: VPCOMPRESSW m512{k1}, zmm1. -/
  | vpcompresswM512 (pfx : Prefixes) (k : KReg) (src : VReg) (mem : MemOperand)
  /-- Row 12, R116: VPCOMPRESSW zmm1{k1}{z}, zmm2. -/
  | vpcompresswZmm (pfx : Prefixes) (z : Bool) (k : KReg) (dst src : VReg)
  deriving DecidableEq, Repr

/-- An instruction seen through what selects it among the twelve (R81): element size, vector length, and store or
register form. -/
inductive Shape where
  | store (es : ElemSize) (vl : VecLen) (pfx : Prefixes) (k : KReg) (src : VReg) (mem : MemOperand)
  | reg (es : ElemSize) (vl : VecLen) (pfx : Prefixes) (z : Bool) (k : KReg) (dst src : VReg)
  deriving DecidableEq, Repr

end Sys2Proof
end

