-- ==== Sys2Proof/WellFormed.lean ====
section
/-! DEFINITION. Which syntax terms an encoding exists for (30_encoding.md R71, R73, R83, R87). -/

namespace Sys2Proof

/-- Whether a displacement is present. -/
def Disp.present : Disp → Bool
  | .none => false
  | .disp8 _ => true
  | .disp32 _ => true

/-- R71, R73: a base without SIB is not number 4 or 12, and number 5 or 13 needs a displacement; a SIB base of number 5
or 13 needs a displacement. -/
def MemOperand.wf : MemOperand → Bool
  | .base b d _ => b.setWidth 3 != 4#3 && (b.setWidth 3 != 5#3 || d.present)
  | .rip _ _ _ => true
  | .sib b _ _ d => b.setWidth 3 != 5#3 || d.present
  | .sibNoBase _ _ _ _ => true

/-- R87: zeroing-masking needs a writemask. -/
def zeroingWf (z : Bool) (k : KReg) : Bool := !z || k != 0#3

/-- The instruction's shape (R81). -/
def Instr.shape : Instr → Shape
  | .vpcompressbM128 p k s m => .store .byte .v128 p k s m
  | .vpcompressbXmm p z k d s => .reg .byte .v128 p z k d s
  | .vpcompressbM256 p k s m => .store .byte .v256 p k s m
  | .vpcompressbYmm p z k d s => .reg .byte .v256 p z k d s
  | .vpcompressbM512 p k s m => .store .byte .v512 p k s m
  | .vpcompressbZmm p z k d s => .reg .byte .v512 p z k d s
  | .vpcompresswM128 p k s m => .store .word .v128 p k s m
  | .vpcompresswXmm p z k d s => .reg .word .v128 p z k d s
  | .vpcompresswM256 p k s m => .store .word .v256 p k s m
  | .vpcompresswYmm p z k d s => .reg .word .v256 p z k d s
  | .vpcompresswM512 p k s m => .store .word .v512 p k s m
  | .vpcompresswZmm p z k d s => .reg .word .v512 p z k d s

/-- The instruction of a shape (R80, R81). -/
def Shape.instr : Shape → Instr
  | .store .byte .v128 p k s m => .vpcompressbM128 p k s m
  | .reg .byte .v128 p z k d s => .vpcompressbXmm p z k d s
  | .store .byte .v256 p k s m => .vpcompressbM256 p k s m
  | .reg .byte .v256 p z k d s => .vpcompressbYmm p z k d s
  | .store .byte .v512 p k s m => .vpcompressbM512 p k s m
  | .reg .byte .v512 p z k d s => .vpcompressbZmm p z k d s
  | .store .word .v128 p k s m => .vpcompresswM128 p k s m
  | .reg .word .v128 p z k d s => .vpcompresswXmm p z k d s
  | .store .word .v256 p k s m => .vpcompresswM256 p k s m
  | .reg .word .v256 p z k d s => .vpcompresswYmm p z k d s
  | .store .word .v512 p k s m => .vpcompresswM512 p k s m
  | .reg .word .v512 p z k d s => .vpcompresswZmm p z k d s

/-- Whether a shape has an encoding. -/
def Shape.wf : Shape → Bool
  | .store _ _ _ _ _ m => m.wf
  | .reg _ _ _ z k _ _ => zeroingWf z k

/-- Whether an instruction has an encoding. -/
def Instr.wf (i : Instr) : Bool := i.shape.wf

end Sys2Proof
end

