-- ==== Sys2Proof/Decode.lean ====
section
/-! DEFINITION. The decoder, total on byte strings (30_encoding.md R95), instruction lengths (R90), and the encoder,
written from the same field tables (R61 to R76). -/

namespace Sys2Proof

/-- Why a byte string is refused by the decoder: no meaning in the model, and no claim that the processor faults (R95
steps 1 to 3, R169). Each is safe. -/
inductive DecodeRefusal where
  /-- R95 step 2: the byte after the prefixes is not 62H. -/
  | notEvex
  /-- R95 step 3: `mmm`, `pp` or the opcode byte is another instruction's. -/
  | otherInstruction
  /-- R89: a segment override 26H, 2EH, 36H or 3EH. -/
  | unlistedPrefix
  /-- R88: a REX byte that does not stand directly before 62H (log 13). -/
  | forbiddenPrefix
  /-- R89: two prefixes of one kind. -/
  | repeatedPrefix
  /-- R90: more than 15 bytes, possible only with prefixes of R88 (log 13). -/
  | tooLong
  /-- R169: the bytes end inside the instruction. -/
  | truncated
  deriving DecidableEq, Repr

/-- What the decoder returns (R95). -/
inductive Decoded where
  | instr (i : Instr) (ilen : Nat)
  | ud (ilen : Nat)
  | refused (r : DecodeRefusal)
  deriving DecidableEq, Repr

/-! ## Lengths (R90) -/

/-- Bytes of a displacement. -/
def Disp.len : Disp → Nat
  | .none => 0
  | .disp8 _ => 1
  | .disp32 _ => 4

/-- `nsib + ndisp` (R90). -/
def MemOperand.len : MemOperand → Nat
  | .base _ d _ => d.len
  | .rip _ _ _ => 4
  | .sib _ _ _ d => 1 + d.len
  | .sibNoBase _ _ _ _ => 5

/-- `npfx` (R90). -/
def Prefixes.len : Prefixes → Nat
  | .none => 0
  | .seg _ => 1
  | .addr32 => 1
  | .segAddr32 _ => 2
  | .addr32Seg _ => 2

/-- The length of a store form (R90). -/
def storeLen (p : Prefixes) (m : MemOperand) : Nat := p.len + 4 + 1 + 1 + m.len

/-- The length of a reg-reg form (R90). -/
def regLen (p : Prefixes) : Nat := p.len + 4 + 1 + 1

/-- `ilen` of a shape. -/
def Shape.len : Shape → Nat
  | .store _ _ p _ _ m => storeLen p m
  | .reg _ _ p _ _ _ _ => regLen p

/-- `ilen` of an instruction (R90). -/
def Instr.len (i : Instr) : Nat := i.shape.len

/-! ## Prefix bytes (R88, R89) -/

/-- The kind of a legacy prefix byte or REX byte; two bytes of one kind are a repeated prefix. -/
inductive PrefixKind where
  | segment (o : SegOverride)
  | addressSize
  | ignoredSegment
  | lock
  | operandSize
  | repne
  | rep
  | rex
  deriving DecidableEq, Repr

/-- The prefix a byte is, if it is one (R88, R89). -/
def prefixKind (b : Byte) : Option PrefixKind :=
  if b = 0x64#8 then some (.segment .fs)
  else if b = 0x65#8 then some (.segment .gs)
  else if b = 0x67#8 then some .addressSize
  else if b = 0x26#8 ∨ b = 0x2E#8 ∨ b = 0x36#8 ∨ b = 0x3E#8 then some .ignoredSegment
  else if b = 0xF0#8 then some .lock
  else if b = 0x66#8 then some .operandSize
  else if b = 0xF2#8 then some .repne
  else if b = 0xF3#8 then some .rep
  else if b.extractLsb' 4 4 = 4#4 then some .rex
  else none

/-- The kind with the segment register forgotten: FS and GS overrides are of one kind (R89: "at most one"). -/
def PrefixKind.group : PrefixKind → PrefixKind
  | .segment _ => .segment .fs
  | k => k

/-- The prefix kinds at the head of a byte string, and the bytes after them. -/
def readPrefixes : List Byte → List PrefixKind × List Byte
  | [] => ([], [])
  | b :: bs =>
    match prefixKind b with
    | some k => let r := readPrefixes bs; (k :: r.1, r.2)
    | none => ([], b :: bs)

/-- A prefix that R88 does not allow before 62H. -/
def PrefixKind.forbidden : PrefixKind → Bool
  | .lock | .operandSize | .repne | .rep | .rex => true
  | .segment _ | .addressSize | .ignoredSegment => false

/-- What a run of prefixes comes to: admitted (R89), #UD (R88), or refused. -/
inductive PrefixClass where
  | admitted (p : Prefixes)
  | ud
  | refused (r : DecodeRefusal)
  deriving DecidableEq, Repr

/-- The admitted prefix runs (R89): none, one, or one of each kind in either order. -/
def admittedPrefixes : List PrefixKind → Option Prefixes
  | [] => some .none
  | [.segment o] => some (.seg o)
  | [.addressSize] => some .addr32
  | [.segment o, .addressSize] => some (.segAddr32 o)
  | [.addressSize, .segment o] => some (.addr32Seg o)
  | _ => none

/-- R88 and R89 over a run of prefixes. A REX byte raises #UD when it stands directly before 62H; elsewhere it is
refused, as R88 allows (log 12, 13). -/
def classifyPrefixes (ks : List PrefixKind) : PrefixClass :=
  match admittedPrefixes ks with
  | some p => .admitted p
  | none =>
    if ks.any (· == .ignoredSegment) then .refused .unlistedPrefix
    else if !(ks.map PrefixKind.group).Nodup then .refused .repeatedPrefix
    else if ks.dropLast.any (· == .rex) then .refused .forbiddenPrefix
    else if ks.any PrefixKind.forbidden then .ud
    else .refused .repeatedPrefix

/-! ## The EVEX fields (R63 to R65) -/

/-- The stored fields of the EVEX bytes P0, P1, P2, inversions not undone. -/
structure EvexFields where
  r : BitVec 1
  x : BitVec 1
  b : BitVec 1
  r' : BitVec 1
  p0bit3 : BitVec 1
  mmm : BitVec 3
  w : BitVec 1
  vvvv : BitVec 4
  p1bit2 : BitVec 1
  pp : BitVec 2
  z : BitVec 1
  ll : BitVec 2
  bc : BitVec 1
  v' : BitVec 1
  aaa : BitVec 3
  deriving DecidableEq, Repr

/-- R63, R64, R65: the fields of P0, P1, P2. -/
def evexFields (p0 p1 p2 : Byte) : EvexFields where
  r := p0.extractLsb' 7 1
  x := p0.extractLsb' 6 1
  b := p0.extractLsb' 5 1
  r' := p0.extractLsb' 4 1
  p0bit3 := p0.extractLsb' 3 1
  mmm := p0.extractLsb' 0 3
  w := p1.extractLsb' 7 1
  vvvv := p1.extractLsb' 3 4
  p1bit2 := p1.extractLsb' 2 1
  pp := p1.extractLsb' 0 2
  z := p2.extractLsb' 7 1
  ll := p2.extractLsb' 5 2
  bc := p2.extractLsb' 4 1
  v' := p2.extractLsb' 3 1
  aaa := p2.extractLsb' 0 3

/-- The pattern of section 5: `mmm` = 010, `pp` = 01 and opcode byte 63H. -/
def inPattern (f : EvexFields) (op : Byte) : Bool :=
  f.mmm == 0b010#3 && f.pp == 0b01#2 && op == 0x63#8

/-- The vector length of L'L; 11 has none (R84). -/
def vecLenOf (ll : BitVec 2) : Option VecLen :=
  if ll = 0b00#2 then some .v128
  else if ll = 0b01#2 then some .v256
  else if ll = 0b10#2 then some .v512
  else none

/-- The element size of W (R64). -/
def elemSizeOf (w : BitVec 1) : ElemSize := if w = 1#1 then .word else .byte

/-- The reserved fields that raise #UD in either form: R82 (`vvvv`), R85 (b), R86 (V'), R87 (P0 bit 3, P1 bit 2, z with no
writemask). R84 is `vecLenOf`. -/
def reservedBroken (f : EvexFields) : Bool :=
  f.vvvv != 0b1111#4 || f.bc != 0#1 || f.v' != 1#1 || f.p0bit3 != 0#1 || f.p1bit2 != 1#1
    || (f.z == 1#1 && f.aaa == 0#3)

/-! ## ModRM, SIB and displacement (R66, R71 to R75) -/

/-- A little-endian disp32 (R75). -/
def takeDisp32 : List Byte → Option (BitVec 32)
  | d0 :: d1 :: d2 :: d3 :: _ => some (d3 ++ d2 ++ d1 ++ d0)
  | _ => none

/-- The displacement that `mod` 00, 01 or 10 announces, outside the special cases of R71 and R73. -/
def takeDisp (mod : BitVec 2) (bs : List Byte) : Option Disp :=
  if mod = 0b00#2 then some .none
  else if mod = 0b01#2 then
    match bs with
    | d :: _ => some (.disp8 d)
    | [] => none
  else (takeDisp32 bs).map .disp32

/-- The memory operand of a ModRM with `mod` other than 11 (R71 to R73); `none` when the bytes end inside it. -/
def takeMem (mod : BitVec 2) (rm : BitVec 3) (nX nB : BitVec 1) (bs : List Byte) : Option MemOperand :=
  if rm = 0b100#3 then
    match bs with
    | [] => none
    | sib :: rest =>
      let scale := sib.extractLsb' 6 2
      let index := nX ++ sib.extractLsb' 3 3
      let base := sib.extractLsb' 0 3
      if mod = 0b00#2 ∧ base = 0b101#3 then
        (takeDisp32 rest).map fun d => .sibNoBase index scale d nB
      else (takeDisp mod rest).map fun d => .sib (nB ++ base) index scale d
  else if mod = 0b00#2 ∧ rm = 0b101#3 then
    (takeDisp32 bs).map fun d => .rip d nX nB
  else (takeDisp mod bs).map fun d => .base (nB ++ rm) d nX

/-! ## The decoder -/

/-- R95 steps 4 to 6 for a store form: length, #UD (R82 to R87, with z = 1 for R83), instruction. `npfx` is the number of
prefix bytes; `pfx` is `none` when R88 makes the whole #UD. -/
def decodeStore (npfx : Nat) (pfx : Option Prefixes) (f : EvexFields) (modrm : Byte) (bs : List Byte) : Decoded :=
  match takeMem (modrm.extractLsb' 6 2) (modrm.extractLsb' 0 3) (~~~f.x) (~~~f.b) bs with
  | none => .refused .truncated
  | some m =>
    let ilen := npfx + 6 + m.len
    if ilen > Config.maxInstrBytes then .refused .tooLong
    else
      match pfx, vecLenOf f.ll with
      | some p, some vl =>
        if reservedBroken f || f.z == 1#1 then .ud ilen
        else .instr (Shape.store (elemSizeOf f.w) vl p f.aaa (~~~f.r' ++ ~~~f.r ++ modrm.extractLsb' 3 3) m).instr ilen
      | _, _ => .ud ilen

/-- R95 steps 4 to 6 for a reg-reg form. -/
def decodeReg (npfx : Nat) (pfx : Option Prefixes) (f : EvexFields) (modrm : Byte) : Decoded :=
  let ilen := npfx + 6
  match pfx, vecLenOf f.ll with
  | some p, some vl =>
    if reservedBroken f then .ud ilen
    else .instr (Shape.reg (elemSizeOf f.w) vl p (f.z == 1#1) f.aaa (~~~f.x ++ ~~~f.b ++ modrm.extractLsb' 0 3)
      (~~~f.r' ++ ~~~f.r ++ modrm.extractLsb' 3 3)).instr ilen
  | _, _ => .ud ilen

/-- R95 steps 2 to 6, after the prefixes. -/
def decodeEvex (npfx : Nat) (pfx : Option Prefixes) : List Byte → Decoded
  | [] => .refused .truncated
  | b0 :: bs =>
    if b0 ≠ 0x62#8 then .refused .notEvex
    else
      match bs with
      | p0 :: p1 :: p2 :: op :: rest =>
        let f := evexFields p0 p1 p2
        if !inPattern f op then .refused .otherInstruction
        else
          match rest with
          | [] => .refused .truncated
          | modrm :: rest' =>
            if modrm.extractLsb' 6 2 = 0b11#2 then decodeReg npfx pfx f modrm
            else decodeStore npfx pfx f modrm rest'
      | _ => .refused .truncated

/-- The decoder (R95): prefixes by R88 and R89, then the EVEX instruction. -/
def decode (bs : List Byte) : Decoded :=
  let (ks, rest) := readPrefixes bs
  match classifyPrefixes ks with
  | .refused r => .refused r
  | .ud => decodeEvex ks.length none rest
  | .admitted p => decodeEvex ks.length (some p) rest

/-! ## The encoder -/

/-- The byte of a segment override (R89). -/
def SegOverride.byte : SegOverride → Byte
  | .fs => 0x64#8
  | .gs => 0x65#8

/-- The prefix bytes (R89). -/
def Prefixes.bytes : Prefixes → List Byte
  | .none => []
  | .seg o => [o.byte]
  | .addr32 => [0x67#8]
  | .segAddr32 o => [o.byte, 0x67#8]
  | .addr32Seg o => [0x67#8, o.byte]

/-- P0 (R63) from the register-number bits nR', nR, nX, nB. -/
def encodeP0 (nR' nR nX nB : BitVec 1) : Byte := ~~~nR ++ ~~~nX ++ ~~~nB ++ ~~~nR' ++ 0b0010#4

/-- P1 (R64): 7DH for the byte form, FDH for the word form. -/
def encodeP1 : ElemSize → Byte
  | .byte => 0x7D#8
  | .word => 0xFD#8

/-- L'L (R65). -/
def VecLen.ll : VecLen → BitVec 2
  | .v128 => 0b00#2
  | .v256 => 0b01#2
  | .v512 => 0b10#2

/-- P2 (R65). -/
def encodeP2 (z : Bool) (vl : VecLen) (k : KReg) : Byte := BitVec.ofBool z ++ vl.ll ++ 0b01#2 ++ k

/-- The bytes of a displacement, little-endian (R75). -/
def Disp.bytes : Disp → List Byte
  | .none => []
  | .disp8 d => [d]
  | .disp32 d => [d.extractLsb' 0 8, d.extractLsb' 8 8, d.extractLsb' 16 8, d.extractLsb' 24 8]

/-- The `mod` field a displacement asks for (R71). -/
def Disp.mod : Disp → BitVec 2
  | .none => 0b00#2
  | .disp8 _ => 0b01#2
  | .disp32 _ => 0b10#2

/-- nX of a memory operand (R68, R71, R73). -/
def MemOperand.nX : MemOperand → BitVec 1
  | .base _ _ x => x
  | .rip _ x _ => x
  | .sib _ i _ _ => i.extractLsb' 3 1
  | .sibNoBase i _ _ _ => i.extractLsb' 3 1

/-- nB of a memory operand (R71, R73). -/
def MemOperand.nB : MemOperand → BitVec 1
  | .base b _ _ => b.extractLsb' 3 1
  | .rip _ _ b => b
  | .sib b _ _ _ => b.extractLsb' 3 1
  | .sibNoBase _ _ _ b => b

/-- ModRM.mod of a memory operand (R71). -/
def MemOperand.mod : MemOperand → BitVec 2
  | .base _ d _ => d.mod
  | .rip _ _ _ => 0b00#2
  | .sib _ _ _ d => d.mod
  | .sibNoBase _ _ _ _ => 0b00#2

/-- ModRM.rm of a memory operand (R71). -/
def MemOperand.rm : MemOperand → BitVec 3
  | .base b _ _ => b.extractLsb' 0 3
  | .rip _ _ _ => 0b101#3
  | .sib _ _ _ _ => 0b100#3
  | .sibNoBase _ _ _ _ => 0b100#3

/-- The SIB byte (R73). -/
def encodeSib (scale : BitVec 2) (index : GReg) (base : BitVec 3) : Byte :=
  scale ++ index.extractLsb' 0 3 ++ base

/-- The SIB and displacement bytes of a memory operand. -/
def MemOperand.bytes : MemOperand → List Byte
  | .base _ d _ => d.bytes
  | .rip d _ _ => (Disp.disp32 d).bytes
  | .sib b i s d => encodeSib s i (b.extractLsb' 0 3) :: d.bytes
  | .sibNoBase i s d _ => encodeSib s i 0b101#3 :: (Disp.disp32 d).bytes

/-- The ModRM byte (R66). -/
def encodeModrm (mod : BitVec 2) (reg rm : BitVec 3) : Byte := mod ++ reg ++ rm

/-- The bytes of a shape (R61). -/
def Shape.bytes : Shape → List Byte
  | .store es vl p k s m =>
    p.bytes ++ [0x62#8, encodeP0 (s.extractLsb' 4 1) (s.extractLsb' 3 1) m.nX m.nB, encodeP1 es, encodeP2 false vl k,
      0x63#8, encodeModrm m.mod (s.extractLsb' 0 3) m.rm] ++ m.bytes
  | .reg es vl p z k d s =>
    p.bytes ++ [0x62#8, encodeP0 (s.extractLsb' 4 1) (s.extractLsb' 3 1) (d.extractLsb' 4 1) (d.extractLsb' 3 1),
      encodeP1 es, encodeP2 z vl k, 0x63#8, encodeModrm 0b11#2 (s.extractLsb' 0 3) (d.extractLsb' 0 3)]

/-- The bytes of an instruction, in ascending address order. -/
def encode (i : Instr) : List Byte := i.shape.bytes

/-! ## Words numbered as the opcode table numbers them -/

/-- The low `n` bytes of `w`, least significant first. -/
def lsbBytes : Nat → Nat → List Byte
  | 0, _ => []
  | n + 1, w => BitVec.ofNat 8 w :: lsbBytes n (w / 256)

/-- The bytes, in address order, of an instruction whose bits are `w`. spec/opcode_table.json numbers its 48 bits with byte
62H in bits 47:40 and ModRM in bits 7:0; a word with its first byte in bits 7:0 is read too (no word of the pattern reads
both ways, log 18). Every byte above `nbits` is zero, up to the longest instruction. -/
def tableBytes (nbits w : Nat) : List Byte :=
  let bs := lsbBytes ((nbits + 7) / 8) w
  let bs := if nbits = 48 ∧ w / 2 ^ 40 % 256 = 0x62 ∧ w / 2 ^ 8 % 256 = 0x63 then bs.reverse else bs
  bs ++ List.replicate (Config.maxInstrBytes - bs.length) 0#8

/-- The instruction the decoder reads from a word of the opcode table. -/
def decodeTableWord (nbits w : Nat) : Option Instr :=
  match decode (tableBytes nbits w) with
  | .instr i _ => some i
  | .ud _ => none
  | .refused _ => none

/-- The program text that holds exactly that instruction: the bytes the decoder takes it to have, all of them when the
decoder refuses. -/
def tableText (nbits w : Nat) : List Byte :=
  match decode (tableBytes nbits w) with
  | .instr _ n => (tableBytes nbits w).take n
  | .ud n => (tableBytes nbits w).take n
  | .refused _ => tableBytes nbits w

end Sys2Proof
end

