-- ==== Sys2Proof/Machine/State.lean ====
section
/-! DEFINITION. The state of the machine as plain data (10_state.md R20 to R35, `Env` of 00_scope.md R8 included), the
faults (60_exceptions.md R130, R143), the refusals (70_reset_and_hazards.md R169) and the reset state. -/

namespace Sys2Proof.Machine

/-- Memory: (address, byte) pairs, addresses strictly rising. An unlisted address has no value (log 7). -/
abbrev Memory := List Host.Cell

/-- The machine's state. Each register holds a value at every moment (R35). -/
structure State where
  /-- ZMM0 to ZMM31 (R20); XMMi and YMMi are the low 128 and 256 bits (R21). -/
  zmm : Vector Vec 32
  /-- K0 to K7 (R23). -/
  kreg : Vector Mask 8
  /-- The general registers 0 to 15, RAX to R15 (R26). -/
  gpr : Vector Addr 16
  /-- RIP, the address of the current instruction's first byte (R27). -/
  pc : Addr
  /-- FS_BASE (R31). -/
  fsBase : Addr
  /-- GS_BASE (R31). -/
  gsBase : Addr
  /-- RFLAGS (R28); carried so that its being untouched can be stated (log 6). -/
  rflags : BitVec 64
  /-- MXCSR (R28); carried so that its being untouched can be stated (log 6). -/
  mxcsr : BitVec 32
  /-- The bytes of data memory (R32, R48); the program text is in `env` (R59). -/
  mem : Memory
  /-- The execution environment, constant over a run (R8, R29; log 2). -/
  env : Env
  /-- The model's own field: how many open choices have been drawn (log 11). -/
  draws : Nat
  deriving DecidableEq, Repr

/-- The faults, the outcome `Fault(vector, code, addr?, pc)` of R143. A fault ends the run (D27). Each is safe: nothing
is claimed of what a handler would do. -/
inductive Fault where
  /-- #UD, invalid opcode: raised by both forms and by decoding (R131 to R134). -/
  | invalidOpcode (pc : Addr)
  /-- #NM, device not available: raised by both forms (R135). -/
  | deviceNotAvailable (pc : Addr)
  /-- #SS(0), stack-segment fault: raised by the store forms (R137). -/
  | stackSegment (pc : Addr)
  /-- #GP(0), general protection: raised by the store forms (R136). -/
  | generalProtection (pc : Addr)
  /-- #PF(code) with the faulting linear address: raised by the store forms (R139) and by the fetch (R49, log 14). -/
  | pageFault (code : BitVec 32) (addr : Addr) (pc : Addr)
  /-- #AC(0), alignment check: raised by the word store forms, by an open choice (R140). -/
  | alignmentCheck (pc : Addr)
  deriving DecidableEq, Repr

/-- The reasons to refuse a step: the model has no meaning for the situation (R169). Each errs toward unprovable: safe. -/
inductive Refusal where
  /-- An instruction without a meaning yet: raised by `exec`'s arms. -/
  | notModelled (mnemonic : String)
  /-- The byte string is refused by the decoder (R95 steps 1 to 3, R169): raised by the fetch. -/
  | undecoded (r : DecodeRefusal)
  /-- `pc` stands at the end of the program: the run is over and there is no step (R169, R170; log 15): raised by the
  fetch. -/
  | runOver
  /-- `pc` is outside the program (R169): raised by the fetch. -/
  | pcOutsideProgram
  /-- The instruction would end past 2^64 - 1 or has a byte at a non-canonical address (R27): raised by the fetch. -/
  | instructionAddress
  /-- The mode is not `Long64` (R60, R169): raised by the fetch and by every meaning. -/
  | modeNotAdmitted
  /-- The store's range wraps the address space (R42): raised by the store forms. -/
  | storeWraps
  /-- The store overlaps the program text (R57): raised by the store forms. -/
  | storeOverlapsText
  /-- The store writes an address the launch memory marks as a device (R47): raised by the store forms. -/
  | storeToDevice
  deriving DecidableEq, Repr

/-- A reason for a step to end without a next state. -/
inductive Stop where
  | fault (f : Fault)
  | refuse (r : Refusal)
  deriving DecidableEq, Repr

/-- `Env` right after reset: the launch premises of R163, and the model's choices of log 4, 5, 8, 10 and 16. -/
def envReset : Env where
  mode := .long64
  hasAvx512Vbmi2 := true
  hasAvx512Vl := true
  osAvx512Enabled := true
  cr0Ts := false
  acEnabled := false
  vaBits := .va48
  zeroLenCheck := .either
  translate := []
  devices := []
  progBase := 0x400000#64
  progBytes := []

/-- The state right after reset. The spec gives no reset value (R34, R160); `pc` = ProgBase is its launch value (R161,
R170), the rest are the model's (log 3, 4, 5, 6, 7, 11). -/
def State.reset : State where
  zmm := Vector.replicate 32 0
  kreg := Vector.replicate 8 0
  gpr := Vector.replicate 16 0
  pc := envReset.progBase
  fsBase := 0
  gsBase := 0
  rflags := 2
  mxcsr := 0x1F80
  mem := []
  env := envReset
  draws := 0

end Sys2Proof.Machine
end

