-- ==== Sys2Proof/Machine/Ops.lean ====
section
/-! DEFINITION. The shared operations over memory and registers: memory bytes (20_memory.md R41, R44), canonical addresses
and `Translate` (R49, R50), register reads and writes (10_state.md), raising an exception (60_exceptions.md R143), and
completing an instruction (R27). -/

namespace Sys2Proof.Machine

/-- The outcome of a step of this machine. -/
abbrev Out := Host.Outcome State Fault Refusal

/-- The outcome with its next state changed by `g`. -/
def mapOut (g : State → State) : Out → Out
  | .next t => .next (g t)
  | .fault f => .fault f
  | .refused r => .refused r

/-- A stop as an outcome. -/
def Stop.out : Stop → Out
  | .fault f => .fault f
  | .refuse r => .refused r

/-! ## Taking an exception (R130, R143) -/

/-- The six exceptions of R130, each with what it records besides the saved `pc`. There is no return from one in scope
(R144): the faulting instruction is restarted from the unchanged registers. -/
inductive Exn where
  | ud
  | nm
  | ss
  | gp
  | pf (code : BitVec 32) (addr : Addr)
  | ac
  deriving DecidableEq, Repr

/-- `raise #XX(code)` (R143): the run ends with the fault, which holds the address of the faulting instruction. -/
def raise (e : Exn) (s : State) : Stop :=
  match e with
  | .ud => .fault (.invalidOpcode s.pc)
  | .nm => .fault (.deviceNotAvailable s.pc)
  | .ss => .fault (.stackSegment s.pc)
  | .gp => .fault (.generalProtection s.pc)
  | .pf code addr => .fault (.pageFault code addr s.pc)
  | .ac => .fault (.alignmentCheck s.pc)

/-- The fault as `Fault(vector, code, addr?, pc)` (R143), with R130's vectors and error codes. -/
structure FaultRecord where
  vector : Nat
  code : Option (BitVec 32)
  addr : Option Addr
  pc : Addr
  deriving DecidableEq, Repr

/-- R130: vector number, error code and recorded address of each fault. -/
def faultRecord : Fault → FaultRecord
  | .invalidOpcode pc => ⟨6, none, none, pc⟩
  | .deviceNotAvailable pc => ⟨7, none, none, pc⟩
  | .stackSegment pc => ⟨12, some 0, none, pc⟩
  | .generalProtection pc => ⟨13, some 0, none, pc⟩
  | .pageFault c a pc => ⟨14, some c, some a, pc⟩
  | .alignmentCheck pc => ⟨17, some 0, none, pc⟩

/-! ## Memory bytes -/

/-- The value of the byte at `a`, if memory lists one. -/
def readMem : Memory → Nat → Option Byte
  | [], _ => none
  | (c, b) :: m, a => if a = c then some b else readMem m a

/-- Memory with the byte at `a` set to `b`, in canonical form. -/
def writeMem : Memory → Nat → Byte → Memory
  | [], a, b => [(a, b)]
  | (c, x) :: m, a, b =>
    if a < c then (a, b) :: (c, x) :: m
    else if a = c then (a, b) :: m
    else (c, x) :: writeMem m a b

/-- The canonical form: addresses strictly rising, each below 2^64 (R32). -/
def memWf : Memory → Bool
  | [] => true
  | (a, _) :: m => a < 2 ^ 64 && m.all (fun c => a < c.1) && memWf m

/-- `MemWrite(la, n, v)` (R12): bits `v[8i+7:8i]` to `la + i`, for i < n. The range does not wrap (R42). -/
def writeBytes (m : Memory) (la : Nat) (v : Vec) : Nat → Memory
  | 0 => m
  | n + 1 => writeMem (writeBytes m la v n) (la + n) (v.extractLsb' (8 * n) 8)

/-- Whether `a` is an address of the program text (R170). -/
def inText (e : Env) (a : Nat) : Bool := e.progBase.toNat ≤ a && a < e.progBase.toNat + e.progBytes.length

/-- The byte at linear address `a`: the program text stands at ProgBase (R48, R170), data memory elsewhere. -/
def byteAt (s : State) (a : Nat) : Option Byte :=
  if inText s.env a then s.env.progBytes[a - s.env.progBase.toNat]? else readMem s.mem a

/-! ## Addresses -/

/-- VA_BITS as a number. -/
def vaWidth : VaBits → Nat
  | .va48 => 48
  | .va57 => 57

/-- R50: bits 63 down to VA_BITS - 1 are all equal. -/
def canonical (e : Env) (a : Addr) : Bool :=
  let top := a >>> (vaWidth e.vaBits - 1)
  top == 0 || top == BitVec.allOnes 64 >>> (vaWidth e.vaBits - 1)

/-- Whether a range holds an address. -/
def inRange (r : AddrRange) (a : Addr) : Bool := r.first ≤ a && a ≤ r.last

/-- `Translate` (R49): the first entry for the address and kind answers; an address no entry names is Ok (log 8). -/
def translate (e : Env) (a : Addr) (kind : AccessKind) : XlatAnswer :=
  match e.translate.find? fun x => inRange x.range a && x.kind == kind with
  | some x => x.answer
  | none => .ok

/-- The code and address of the page fault an access of one byte raises, if any (R49). -/
def pageFaultAt (e : Env) (a : Addr) (kind : AccessKind) : Option (BitVec 32 × Addr) :=
  match translate e a kind with
  | .pageFault c => some (c, a)
  | .ok => none

/-- The first of the `n` bytes from `a` whose access of this kind page-faults, with its code (R107, R139). -/
def pageFaultIn (e : Env) (a : Addr) (kind : AccessKind) (n : Nat) : Option (BitVec 32 × Addr) :=
  (List.range n).findSome? fun i => pageFaultAt e (a + BitVec.ofNat 64 i) kind

/-- Whether the launch memory marks the address as a device (R47). -/
def isDevice (e : Env) (a : Addr) : Bool := e.devices.any fun r => inRange r a

/-- Whether some of the `n` bytes from `a` satisfies `p`. -/
def anyByte (a : Addr) (n : Nat) (p : Addr → Bool) : Bool :=
  (List.range n).any fun i => p (a + BitVec.ofNat 64 i)

/-! ## Registers -/

/-- `ZMM[i]` (R12). -/
def readZmm (s : State) (i : VReg) : Vec := s.zmm[i.toNat]'i.isLt

/-- `ZMM[i] <- v`, all MAX_VL bits (R12). No vector register is hardwired (R22). -/
def writeZmm (s : State) (i : VReg) (v : Vec) : State := { s with zmm := s.zmm.set i.toNat v i.isLt }

/-- `K[i]` (R12). -/
def readK (s : State) (i : KReg) : Mask := s.kreg[i.toNat]'i.isLt

/-- `GPR[i]` (R12). -/
def readGpr (s : State) (i : GReg) : Addr := s.gpr[i.toNat]'i.isLt

end Sys2Proof.Machine
end

