-- ==== Sys2Proof/Machine/Flags.lean ====
section
/-! DEFINITION. The flag computations (10_state.md R28): the instructions in scope write no status flag and no bit of
MXCSR, so each computation gives back what it was given. Completing an instruction goes through them. -/

namespace Sys2Proof.Machine

/-- RFLAGS after an instruction completes (R28): every flag unchanged. -/
def rflagsAfter (f : BitVec 64) : BitVec 64 := f

/-- MXCSR after an instruction completes (R28, R138): unchanged. -/
def mxcsrAfter (f : BitVec 32) : BitVec 32 := f

/-- Normal completion (R27, R168): `pc <- pc + ilen`, the flags by `rflagsAfter` and `mxcsrAfter`. -/
def complete (s : State) (ilen : Nat) : State :=
  { s with pc := s.pc + BitVec.ofNat 64 ilen, rflags := rflagsAfter s.rflags, mxcsr := mxcsrAfter s.mxcsr }

end Sys2Proof.Machine
end

