-- ==== Sys2Proof/Machine/Compress.lean ====
section
/-! DEFINITION. The compress function (40_vpcompressb.md R100) and slices of vector values (00_scope.md R9, R10). Vector
values are 512 bits wide throughout; a form's VL-bit value is one whose bits at and above VL are zero. -/

namespace Sys2Proof.Machine

/-- ESIZE in bytes (R6). -/
def esize : ElemSize → Nat
  | .byte => 1
  | .word => 2

/-- E, the element width in bits (R100). -/
def ebits (es : ElemSize) : Nat := esize es * 8

/-- VL in bits (R6). -/
def vlBits : VecLen → Nat
  | .v128 => 128
  | .v256 => 256
  | .v512 => 512

/-- KL, the number of elements (R6): VL / (8 * ESIZE). -/
def klOf (es : ElemSize) (vl : VecLen) : Nat := vlBits vl / (8 * esize es)

/-- The vector with bits lo to hi-1 set. -/
def rangeBits (lo hi : Nat) : Vec := (BitVec.allOnes hi).setWidth 512 &&& ~~~((BitVec.allOnes lo).setWidth 512)

/-- `v` with bits hi-1 down to lo taken from `x`: `v[hi-1:lo] := x[hi-1:lo]` (R9; nothing when hi ≤ lo). -/
def splice (v x : Vec) (lo hi : Nat) : Vec := (v &&& ~~~(rangeBits lo hi)) ||| (x &&& rangeBits lo hi)

/-- Element i of a vector: `v.byte[i]` or `v.word[i]` (R10). -/
def elem (es : ElemSize) (v : Vec) (i : Nat) : BitVec (ebits es) := v.extractLsb' (ebits es * i) (ebits es)

/-- `v` with element i set to `x`: `v[E*i+E-1 : E*i] := x` (R100). -/
def setElem (es : ElemSize) (v : Vec) (i : Nat) (x : BitVec (ebits es)) : Vec :=
  splice v (x.setWidth 512 <<< (ebits es * i)) (ebits es * i) (ebits es * i + ebits es)

/-- One turn of R100's loop: element j is copied to position k when its mask bit is 1. -/
def compressTurn (es : ElemSize) (src : Vec) (m : Mask) (acc : Nat × Vec) (j : Nat) : Nat × Vec :=
  if m.getLsbD j then (acc.1 + 1, setElem es acc.2 acc.1 (elem es src j)) else acc

/-- `Compress(ESIZE, KL, src, m)` (R100): the count k and the packed value. -/
def compress (es : ElemSize) (kl : Nat) (src : Vec) (m : Mask) : Nat × Vec :=
  (List.range kl).foldl (compressTurn es src m) (0, 0)

end Sys2Proof.Machine
end

