-- ==== Sys2Proof/Machine/Operands.lean ====
section
/-! DEFINITION. The operand forms: writemask (R24, R69), vector source (R21), and the memory operand's effective address,
segment and linear address (30_encoding.md R71 to R76). -/

namespace Sys2Proof.Machine

/-! ## Register operands -/

/-- The mask `m` of R100: all ones when aaa = 000, else K[aaa]; its low KL bits (R24, R69). K0 is not read (R25). -/
def writemask (s : State) (k : KReg) (kl : Nat) : Mask :=
  ((if k = 0#3 then BitVec.allOnes 64 else readK s k).setWidth kl).setWidth 64

/-- `ZMM[src][VL-1:0]` (R21). -/
def sourceValue (s : State) (src : VReg) (vl : VecLen) : Vec := ((readZmm s src).setWidth (vlBits vl)).setWidth 512

/-! ## The memory operand -/

/-- Whether the address size ASZ is 32: a 67H prefix is present (R89). -/
def addr32 : Prefixes → Bool
  | .none => false
  | .seg _ => false
  | .addr32 => true
  | .segAddr32 _ => true
  | .addr32Seg _ => true

/-- The segment override, if one is present (R89). -/
def segOverride : Prefixes → Option SegOverride
  | .none => none
  | .seg o => some o
  | .addr32 => none
  | .segAddr32 o => some o
  | .addr32Seg o => some o

/-- A value modulo 2^ASZ, zero-extended to 64 bits (R74). -/
def toAsz (a32 : Bool) (v : Addr) : Addr := if a32 then (v.setWidth 32).setWidth 64 else v

/-- A register as an address term: with ASZ = 32, its low 32 bits (R74). -/
def regTerm (s : State) (a32 : Bool) (r : GReg) : Addr := toAsz a32 (readGpr s r)

/-- `disp_term` (R75, R76): disp8 is scaled by N = ESIZE, disp32 is not. -/
def dispTerm (es : ElemSize) : Disp → Addr
  | .none => 0
  | .disp8 d => d.signExtend 64 * BitVec.ofNat 64 (esize es)
  | .disp32 d => d.signExtend 64

/-- The index term (R73): none for number 4, else GPR[i] * 2^scale. -/
def indexTerm (s : State) (a32 : Bool) (index : GReg) (scale : BitVec 2) : Addr :=
  if index = 4#4 then 0 else regTerm s a32 index <<< scale.toNat

/-- The effective address EA (R72, R74); `ilen` is the instruction's length, for RIP-relative operands. -/
def effectiveAddress (s : State) (es : ElemSize) (p : Prefixes) (m : MemOperand) (ilen : Nat) : Addr :=
  let a32 := addr32 p
  match m with
  | .base b d _ => toAsz a32 (regTerm s a32 b + dispTerm es d)
  | .rip d _ _ => toAsz a32 (s.pc + BitVec.ofNat 64 ilen + d.signExtend 64)
  | .sib b i sc d => toAsz a32 (regTerm s a32 b + indexTerm s a32 i sc + dispTerm es d)
  | .sibNoBase i sc d _ => toAsz a32 (indexTerm s a32 i sc + d.signExtend 64)

/-- The segments of R74. -/
inductive Segment where
  | fs
  | gs
  | ss
  | ds
  deriving DecidableEq, Repr

/-- Whether a base register's default segment is SS: RSP and RBP (R74). -/
def baseIsStack (b : GReg) : Bool := b == 4#4 || b == 5#4

/-- SEG (R74): an override, else SS for a base of RSP or RBP, else DS. -/
def segmentOf (p : Prefixes) (m : MemOperand) : Segment :=
  match segOverride p with
  | some .fs => .fs
  | some .gs => .gs
  | none =>
    match m with
    | .base b _ _ => if baseIsStack b then .ss else .ds
    | .rip _ _ _ => .ds
    | .sib b _ _ _ => if baseIsStack b then .ss else .ds
    | .sibNoBase _ _ _ _ => .ds

/-- SB, the segment base (R31, R74). -/
def segmentBase (s : State) : Segment → Addr
  | .fs => s.fsBase
  | .gs => s.gsBase
  | .ss => 0
  | .ds => 0

/-- LA = (SB + EA) mod 2^64 (R42, R74). -/
def linearAddress (s : State) (es : ElemSize) (p : Prefixes) (m : MemOperand) (ilen : Nat) : Addr :=
  segmentBase s (segmentOf p m) + effectiveAddress s es p m ilen

end Sys2Proof.Machine
end

