-- ==== Sys2Proof/Machine/Templates.lean ====
section
/-! DEFINITION. The two step templates every instruction is one line over: the store form (40_vpcompressb.md R107) and the
reg-reg form (R108), with the enabling checks they share (60_exceptions.md R133 to R135, R142). -/

namespace Sys2Proof.Machine

/-! ## Faults that need no operand (R107 step 1) -/

/-- Whether a form's CPUID feature flags are present (R2, R133): AVX512VL for 128 and 256 bits only. -/
def featuresPresent (e : Env) (vl : VecLen) : Bool := e.hasAvx512Vbmi2 && (vl == .v512 || e.hasAvx512Vl)

/-- The mode (R60), then #UD of R134 and R133, then #NM of R135, in the order of R142. -/
def enabledStop (vl : VecLen) (s : State) : Option Stop :=
  if s.env.mode ≠ .long64 then some (.refuse .modeNotAdmitted)
  else if !s.env.osAvx512Enabled then some (raise .ud s)
  else if !featuresPresent s.env vl then some (raise .ud s)
  else if s.env.cr0Ts then some (raise .nm s)
  else none

/-! ## The store form (R107) -/

/-- The fault of a non-canonical address: #SS(0) when the segment is SS, else #GP(0) (R50, R136, R137). -/
def addressStop (seg : Segment) (s : State) : Stop := if seg = .ss then raise .ss s else raise .gp s

/-- Whether the n bytes from `la` overlap the program text (R57). -/
def overlapsText (e : Env) (la n : Nat) : Bool :=
  0 < n && 0 < e.progBytes.length && la < e.progBase.toNat + e.progBytes.length && e.progBase.toNat < la + n

/-- The open condition of R43: alignment checking in force, word form, n > 0, odd address. -/
def acOpen (s : State) (es : ElemSize) (la : Addr) (n : Nat) : Bool :=
  s.env.acEnabled && es == .word && 0 < n && la.getLsbD 0

/-- The open condition of R52: n = 0, a non-canonical address, and `zero_len_check` left open. -/
def zeroLenOpen (s : State) (la : Addr) (n : Nat) : Bool :=
  n == 0 && !canonical s.env la && s.env.zeroLenCheck == .either

/-- Whether a zero-length store at a non-canonical address raises (R52). -/
def zeroLenRaises (s : State) : Bool :=
  match s.env.zeroLenCheck with
  | .raises => true
  | .completes => false
  | .either => Config.zeroLenDraw s.draws

/-- R107 step 3, on exactly the n bytes from `la`; then the device marks (R47, log 16). -/
def storeStop (s : State) (es : ElemSize) (seg : Segment) (la : Addr) (n : Nat) : Option Stop :=
  if 0 < n ∧ 2 ^ 64 ≤ la.toNat + n - 1 then some (.refuse .storeWraps)
  else if overlapsText s.env la.toNat n then some (.refuse .storeOverlapsText)
  else if anyByte la n (fun a => !canonical s.env a) then some (addressStop seg s)
  else if n = 0 ∧ canonical s.env la = false ∧ zeroLenRaises s = true then some (addressStop seg s)
  else if acOpen s es la n && Config.acDraw s.draws then some (raise .ac s)
  else
    match pageFaultIn s.env la .write n with
    | some (c, a) => some (raise (.pf c a) s)
    | none => if anyByte la n (isDevice s.env) then some (.refuse .storeToDevice) else none

/-- The number of open choices a completing store has drawn: one under R43's or R52's open condition (log 11). -/
def storeDraws (s : State) (es : ElemSize) (la : Addr) (n : Nat) : Nat :=
  if acOpen s es la n || zeroLenOpen s la n then 1 else 0

/-- R107 step 2's `Compress`: count and packed value of the source register under the writemask. -/
def compressSource (s : State) (es : ElemSize) (vl : VecLen) (k : KReg) (src : VReg) : Nat × Vec :=
  compress es (klOf es vl) (sourceValue s src vl) (writemask s k (klOf es vl))

/-- n, the number of bytes a store form writes (R44). -/
def storeCount (s : State) (es : ElemSize) (vl : VecLen) (k : KReg) (src : VReg) : Nat :=
  (compressSource s es vl k src).1 * esize es

/-- LA of a store form (R107). -/
def storeAddr (s : State) (es : ElemSize) (p : Prefixes) (m : MemOperand) : Addr :=
  linearAddress s es p m (storeLen p m)

/-- R107 step 4: the n bytes at LA, nothing else of memory. -/
def storeCommit (s : State) (es : ElemSize) (la : Addr) (n : Nat) (packed : Vec) : State :=
  { s with mem := writeBytes s.mem la.toNat packed n, draws := s.draws + storeDraws s es la n }

/-- `Store(ESIZE, VL)` (R107) of a count and packed value `c` at the linear address `la`, all of it but the advance of
`pc`. -/
def storeAt (es : ElemSize) (vl : VecLen) (seg : Segment) (la : Addr) (c : Nat × Vec) (s : State) : Out :=
  match enabledStop vl s with
  | some x => x.out
  | none =>
    match storeStop s es seg la (c.1 * esize es) with
    | some x => x.out
    | none => .next (storeCommit s es la (c.1 * esize es) c.2)

/-- `Store(ESIZE, VL)` (R107) of an instruction: of the active elements of its source, at LA of its memory operand, then `pc`
past it. -/
def storeForm (es : ElemSize) (vl : VecLen) (p : Prefixes) (k : KReg) (src : VReg) (m : MemOperand) (s : State) : Out :=
  mapOut (fun t => complete t (storeLen p m))
    (storeAt es vl (segmentOf p m) (storeAddr s es p m) (compressSource s es vl k src) s)

/-! ## The reg-reg form (R108) -/

/-- The destination's new value (R108): k packed elements, bits VL-1 down to k*E kept (z = 0) or cleared (z = 1), bits above
VL always cleared (90_conflicts.md C2). -/
def regResult (es : ElemSize) (vl : VecLen) (z : Bool) (m : Mask) (old src : Vec) : Vec :=
  let c := compress es (klOf es vl) src m
  let new := splice 0 c.2 0 (c.1 * ebits es)
  let new := splice new (if z then 0 else old) (c.1 * ebits es) (vlBits vl)
  splice new 0 (vlBits vl) Config.maxVl

/-- `RegReg(ESIZE, VL)` (R108). -/
def regForm (es : ElemSize) (vl : VecLen) (p : Prefixes) (z : Bool) (k : KReg) (dst src : VReg) (s : State) : Out :=
  match enabledStop vl s with
  | some x => x.out
  | none =>
    let new := regResult es vl z (writemask s k (klOf es vl)) (readZmm s dst) (sourceValue s src vl)
    .next (complete (writeZmm s dst new) (regLen p))

end Sys2Proof.Machine
end

