-- ==== Sys2Proof/Machine/Vpcompressb.lean ====
section
/-! DEFINITION. The six VPCOMPRESSB instructions (40_vpcompressb.md R101 to R106): ESIZE = 1. -/

namespace Sys2Proof.Machine

/-- R101: `Store(ESIZE = 1, VL = 128)`. -/
def execVpcompressbM128 (p : Prefixes) (k : KReg) (src : VReg) (m : MemOperand) (s : State) : Out :=
  storeForm .byte .v128 p k src m s

/-- R102: `RegReg(ESIZE = 1, VL = 128)`. -/
def execVpcompressbXmm (p : Prefixes) (z : Bool) (k : KReg) (dst src : VReg) (s : State) : Out :=
  regForm .byte .v128 p z k dst src s

/-- R103: `Store(ESIZE = 1, VL = 256)`. -/
def execVpcompressbM256 (p : Prefixes) (k : KReg) (src : VReg) (m : MemOperand) (s : State) : Out :=
  storeForm .byte .v256 p k src m s

/-- R104: `RegReg(ESIZE = 1, VL = 256)`. -/
def execVpcompressbYmm (p : Prefixes) (z : Bool) (k : KReg) (dst src : VReg) (s : State) : Out :=
  regForm .byte .v256 p z k dst src s

/-- R105: `Store(ESIZE = 1, VL = 512)`. -/
def execVpcompressbM512 (p : Prefixes) (k : KReg) (src : VReg) (m : MemOperand) (s : State) : Out :=
  storeForm .byte .v512 p k src m s

/-- R106: `RegReg(ESIZE = 1, VL = 512)`. -/
def execVpcompressbZmm (p : Prefixes) (z : Bool) (k : KReg) (dst src : VReg) (s : State) : Out :=
  regForm .byte .v512 p z k dst src s

end Sys2Proof.Machine
end

