-- ==== Sys2Proof/Machine/Vpcompressw.lean ====
section
/-! DEFINITION. The six VPCOMPRESSW instructions (41_vpcompressw.md R111 to R116): ESIZE = 2. -/

namespace Sys2Proof.Machine

/-- R111: `Store(ESIZE = 2, VL = 128)`. -/
def execVpcompresswM128 (p : Prefixes) (k : KReg) (src : VReg) (m : MemOperand) (s : State) : Out :=
  storeForm .word .v128 p k src m s

/-- R112: `RegReg(ESIZE = 2, VL = 128)`. -/
def execVpcompresswXmm (p : Prefixes) (z : Bool) (k : KReg) (dst src : VReg) (s : State) : Out :=
  regForm .word .v128 p z k dst src s

/-- R113: `Store(ESIZE = 2, VL = 256)`. -/
def execVpcompresswM256 (p : Prefixes) (k : KReg) (src : VReg) (m : MemOperand) (s : State) : Out :=
  storeForm .word .v256 p k src m s

/-- R114: `RegReg(ESIZE = 2, VL = 256)`. -/
def execVpcompresswYmm (p : Prefixes) (z : Bool) (k : KReg) (dst src : VReg) (s : State) : Out :=
  regForm .word .v256 p z k dst src s

/-- R115: `Store(ESIZE = 2, VL = 512)`. -/
def execVpcompresswM512 (p : Prefixes) (k : KReg) (src : VReg) (m : MemOperand) (s : State) : Out :=
  storeForm .word .v512 p k src m s

/-- R116: `RegReg(ESIZE = 2, VL = 512)`. -/
def execVpcompresswZmm (p : Prefixes) (z : Bool) (k : KReg) (dst src : VReg) (s : State) : Out :=
  regForm .word .v512 p z k dst src s

end Sys2Proof.Machine
end

