-- ==== Sys2Proof/Machine/Dispatch.lean ====
section
/-! DEFINITION. One arm per instruction: each constructor's meaning. -/

namespace Sys2Proof.Machine

def exec (i : Instr) (s : State) : Host.Outcome State Fault Refusal :=
  match i with
  | .vpcompressbM128 p k src m => Sys2Proof.Machine.execVpcompressbM128 p k src m s
  | .vpcompressbXmm p z k dst src => Sys2Proof.Machine.execVpcompressbXmm p z k dst src s
  | .vpcompressbM256 p k src m => Sys2Proof.Machine.execVpcompressbM256 p k src m s
  | .vpcompressbYmm p z k dst src => Sys2Proof.Machine.execVpcompressbYmm p z k dst src s
  | .vpcompressbM512 p k src m => Sys2Proof.Machine.execVpcompressbM512 p k src m s
  | .vpcompressbZmm p z k dst src => Sys2Proof.Machine.execVpcompressbZmm p z k dst src s
  | .vpcompresswM128 p k src m => Sys2Proof.Machine.execVpcompresswM128 p k src m s
  | .vpcompresswXmm p z k dst src => Sys2Proof.Machine.execVpcompresswXmm p z k dst src s
  | .vpcompresswM256 p k src m => Sys2Proof.Machine.execVpcompresswM256 p k src m s
  | .vpcompresswYmm p z k dst src => Sys2Proof.Machine.execVpcompresswYmm p z k dst src s
  | .vpcompresswM512 p k src m => Sys2Proof.Machine.execVpcompresswM512 p k src m s
  | .vpcompresswZmm p z k dst src => Sys2Proof.Machine.execVpcompresswZmm p z k dst src s

end Sys2Proof.Machine
end

