-- ==== Sys2Proof/Machine/Fetch.lean ====
section
/-! DEFINITION. Fetching and decoding the instruction at `pc` (70_reset_and_hazards.md R169, 20_memory.md R59). -/

namespace Sys2Proof.Machine

/-- What a fetch gives: an instruction to run, or a reason to stop. -/
inductive Fetched where
  | run (i : Instr)
  | stop (x : Stop)
  deriving DecidableEq, Repr

/-- The bytes of the program text from `pc` on (R59); `none` when `pc` is outside the text. -/
def textAtPc (s : State) : Option (List Byte) :=
  if inText s.env s.pc.toNat then some (s.env.progBytes.drop (s.pc.toNat - s.env.progBase.toNat)) else none

/-- The checks on the `ilen` bytes of an instruction: refused when it ends past 2^64 - 1 or has a byte at a non-canonical
address (R27), #PF when `Translate` denies their fetch (R49, log 14; `TextFetchable` of R163 rules both out). -/
def fetchStop (s : State) (ilen : Nat) : Option Stop :=
  if 2 ^ 64 ≤ s.pc.toNat + ilen then some (.refuse .instructionAddress)
  else if anyByte s.pc ilen (fun a => !canonical s.env a) then some (.refuse .instructionAddress)
  else
    match pageFaultIn s.env s.pc .fetch ilen with
    | some (c, a) => some (raise (.pf c a) s)
    | none => none

/-- R169 up to decoding: mode, end of the run, place of `pc`, decoder. A byte string the decoder finds #UD raises it
(R131, R132). -/
def fetchInstr (s : State) : Fetched :=
  if s.env.mode ≠ .long64 then .stop (.refuse .modeNotAdmitted)
  else if s.pc.toNat = s.env.progBase.toNat + s.env.progBytes.length then .stop (.refuse .runOver)
  else
    match textAtPc s with
    | none => .stop (.refuse .pcOutsideProgram)
    | some bs =>
      match decode bs with
      | .refused r => .stop (.refuse (.undecoded r))
      | .ud ilen => .stop ((fetchStop s ilen).getD (raise .ud s))
      | .instr i ilen => (fetchStop s ilen).elim (.run i) .stop

end Sys2Proof.Machine
end

