-- ==== Sys2Proof/Machine/Step.lean ====
section
/-! DEFINITION. One step (70_reset_and_hazards.md R169): fetch and decode, then run. -/

namespace Sys2Proof.Machine

/-- One step of the machine (R17, R169). -/
def step (s : State) : Host.Outcome State Fault Refusal :=
  match fetchInstr s with
  | .run i => exec i s
  | .stop x => x.out

/-- `s` with the instruction of a table word as its whole program, standing at `pc`: the launch of R170 (log 5). -/
def State.withFetchWord (s : State) (nbits w : Nat) : State :=
  { s with env := { s.env with progBase := s.pc, progBytes := tableText nbits w } }

end Sys2Proof.Machine
end

