-- ==== Sys2Proof/Machine/Intrinsics.lean ====
section
/-! DEFINITION. The eighteen C intrinsics of 42_intrinsics.md R120: mask types have KL bits (R121), roles are (src, k, a),
(k, a) and (base_addr, k, a) (R122 to R124). Those that return a vector are functions of vector and mask values; those that
store act on a state, with every outcome of `Store` (R107). They stand beside the machine; no step uses them. -/

namespace Sys2Proof.Machine

/-- `_mm*_mask_compress_epi*(src, k, a)` (R122): the low VL bits of the merging register form. -/
def maskCompress (es : ElemSize) (vl : VecLen) (src : BitVec (vlBits vl)) (k : BitVec (klOf es vl))
    (a : BitVec (vlBits vl)) : BitVec (vlBits vl) :=
  (regResult es vl false (k.setWidth 64) (src.setWidth 512) (a.setWidth 512)).setWidth (vlBits vl)

/-- `_mm*_maskz_compress_epi*(k, a)` (R123): the low VL bits of the zeroing register form. -/
def maskzCompress (es : ElemSize) (vl : VecLen) (k : BitVec (klOf es vl)) (a : BitVec (vlBits vl)) :
    BitVec (vlBits vl) :=
  (regResult es vl true (k.setWidth 64) 0 (a.setWidth 512)).setWidth (vlBits vl)

/-- `_mm*_mask_compressstoreu_epi*(base_addr, k, a)` (R124): `Store` at `base_addr`, of popcount(k) * ESIZE bytes, with its
faults and refusals. A C function has no length, so `pc` stays; a C pointer names no base register, so `seg` says by which
segment the compiled access goes (log 23). -/
def compressStoreu (es : ElemSize) (vl : VecLen) (seg : Segment) (baseAddr : Addr) (k : BitVec (klOf es vl))
    (a : BitVec (vlBits vl)) (s : State) : Out :=
  storeAt es vl seg baseAddr (compress es (klOf es vl) (a.setWidth 512) (k.setWidth 64)) s

/-- R120, prototype 1. -/
def mm_mask_compress_epi8 (src : BitVec 128) (k : BitVec 16) (a : BitVec 128) : BitVec 128 :=
  maskCompress .byte .v128 src k a

/-- R120, prototype 2. -/
def mm_maskz_compress_epi8 (k : BitVec 16) (a : BitVec 128) : BitVec 128 :=
  maskzCompress .byte .v128 k a

/-- R120, prototype 3. -/
def mm256_mask_compress_epi8 (src : BitVec 256) (k : BitVec 32) (a : BitVec 256) : BitVec 256 :=
  maskCompress .byte .v256 src k a

/-- R120, prototype 4. -/
def mm256_maskz_compress_epi8 (k : BitVec 32) (a : BitVec 256) : BitVec 256 :=
  maskzCompress .byte .v256 k a

/-- R120, prototype 5. -/
def mm512_mask_compress_epi8 (src : BitVec 512) (k : BitVec 64) (a : BitVec 512) : BitVec 512 :=
  maskCompress .byte .v512 src k a

/-- R120, prototype 6. -/
def mm512_maskz_compress_epi8 (k : BitVec 64) (a : BitVec 512) : BitVec 512 :=
  maskzCompress .byte .v512 k a

/-- R120, prototype 7. -/
def mm_mask_compressstoreu_epi8 (seg : Segment) (baseAddr : Addr) (k : BitVec 16) (a : BitVec 128) (s : State) :
    Out :=
  compressStoreu .byte .v128 seg baseAddr k a s

/-- R120, prototype 8. -/
def mm256_mask_compressstoreu_epi8 (seg : Segment) (baseAddr : Addr) (k : BitVec 32) (a : BitVec 256) (s : State) :
    Out :=
  compressStoreu .byte .v256 seg baseAddr k a s

/-- R120, prototype 9. -/
def mm512_mask_compressstoreu_epi8 (seg : Segment) (baseAddr : Addr) (k : BitVec 64) (a : BitVec 512) (s : State) :
    Out :=
  compressStoreu .byte .v512 seg baseAddr k a s

/-- R120, prototype 10. -/
def mm_mask_compress_epi16 (src : BitVec 128) (k : BitVec 8) (a : BitVec 128) : BitVec 128 :=
  maskCompress .word .v128 src k a

/-- R120, prototype 11. -/
def mm_maskz_compress_epi16 (k : BitVec 8) (a : BitVec 128) : BitVec 128 :=
  maskzCompress .word .v128 k a

/-- R120, prototype 12. -/
def mm256_mask_compress_epi16 (src : BitVec 256) (k : BitVec 16) (a : BitVec 256) : BitVec 256 :=
  maskCompress .word .v256 src k a

/-- R120, prototype 13. -/
def mm256_maskz_compress_epi16 (k : BitVec 16) (a : BitVec 256) : BitVec 256 :=
  maskzCompress .word .v256 k a

/-- R120, prototype 14. -/
def mm512_mask_compress_epi16 (src : BitVec 512) (k : BitVec 32) (a : BitVec 512) : BitVec 512 :=
  maskCompress .word .v512 src k a

/-- R120, prototype 15. -/
def mm512_maskz_compress_epi16 (k : BitVec 32) (a : BitVec 512) : BitVec 512 :=
  maskzCompress .word .v512 k a

/-- R120, prototype 16. -/
def mm_mask_compressstoreu_epi16 (seg : Segment) (baseAddr : Addr) (k : BitVec 8) (a : BitVec 128) (s : State) :
    Out :=
  compressStoreu .word .v128 seg baseAddr k a s

/-- R120, prototype 17. -/
def mm256_mask_compressstoreu_epi16 (seg : Segment) (baseAddr : Addr) (k : BitVec 16) (a : BitVec 256) (s : State) :
    Out :=
  compressStoreu .word .v256 seg baseAddr k a s

/-- R120, prototype 18. -/
def mm512_mask_compressstoreu_epi16 (seg : Segment) (baseAddr : Addr) (k : BitVec 32) (a : BitVec 512) (s : State) :
    Out :=
  compressStoreu .word .v512 seg baseAddr k a s

end Sys2Proof.Machine
end

