-- ==== Sys2Proof/Safety.lean ====
section
/-! DEFINITION. What a run may assume and when it is over (70_reset_and_hazards.md R163, R170), and the invariants that
claims use. -/

namespace Sys2Proof.Safety

open Sys2Proof.Machine

/-- `Mode64` (R163). -/
abbrev Mode64 (e : Env) : Prop := e.mode = .long64

/-- `FeaturesPresent` (R163), for a program with forms of this vector length. -/
abbrev FeaturesPresent (e : Env) (vl : VecLen) : Prop := e.hasAvx512Vbmi2 = true ∧ (vl = .v512 ∨ e.hasAvx512Vl = true)

/-- `OsEnabled` (R163). -/
abbrev OsEnabled (e : Env) : Prop := e.osAvx512Enabled = true

/-- `TsClear` (R163). -/
abbrev TsClear (e : Env) : Prop := e.cr0Ts = false

/-- `NoAlignCheck` (R163). -/
abbrev NoAlignCheck (e : Env) : Prop := e.acEnabled = false

/-- `TextFetchable` (R163). -/
abbrev TextFetchable (e : Env) : Prop :=
  e.progBase.toNat + e.progBytes.length ≤ 2 ^ 64 ∧
    ∀ i < e.progBytes.length, canonical e (e.progBase + BitVec.ofNat 64 i) = true ∧
      translate e (e.progBase + BitVec.ofNat 64 i) .fetch = .ok

/-- The premises under which a well-encoded instruction of this vector length raises neither #UD nor #NM (R163). -/
abbrev Enabled (s : State) (vl : VecLen) : Prop :=
  Mode64 s.env ∧ FeaturesPresent s.env vl ∧ OsEnabled s.env ∧ TsClear s.env

/-- The active elements of a form, ascending (R15, R24, R69): j < KL with bit j of the writemask register set, or every
j < KL when aaa = 000. -/
def active (s : State) (es : ElemSize) (vl : VecLen) (k : KReg) : List Nat :=
  (List.range (klOf es vl)).filter fun j => k == 0#3 || (readK s k).getLsbD j

/-- The run is over (R170). -/
abbrev RunOver (s : State) : Prop := s.pc.toNat = s.env.progBase.toNat + s.env.progBytes.length

/-- Every one of the `n` bytes from `la` may be written: no wrap (R42), outside the text (R57), canonical (R50), writable
(R49) and no device (R47). -/
abbrev Storable (s : State) (la : Addr) (n : Nat) : Prop :=
  la.toNat + n ≤ 2 ^ 64 ∧
    ∀ i < n, inText s.env (la.toNat + i) = false ∧ canonical s.env (la + BitVec.ofNat 64 i) = true ∧
      translate s.env (la + BitVec.ofNat 64 i) .write = .ok ∧ isDevice s.env (la + BitVec.ofNat 64 i) = false

/-- `pc` stands in the program text or at its end, and the text lies in the address space (R163, R170). -/
abbrev PcInProgram (s : State) : Prop :=
  s.env.progBase.toNat + s.env.progBytes.length ≤ 2 ^ 64 ∧ s.env.progBase.toNat ≤ s.pc.toNat ∧
    s.pc.toNat ≤ s.env.progBase.toNat + s.env.progBytes.length

/-- The `n` bytes from `pc` may be fetched: they end below 2^64, at canonical addresses (R27), and `Translate` answers Ok
(R59). -/
abbrev Fetchable (s : State) (n : Nat) : Prop :=
  s.pc.toNat + n < 2 ^ 64 ∧ ∀ j < n, canonical s.env (s.pc + BitVec.ofNat 64 j) = true ∧
    translate s.env (s.pc + BitVec.ofNat 64 j) .fetch = .ok

/-- The program text from `pc` on. -/
abbrev textFrom (s : State) : List Byte := s.env.progBytes.drop (s.pc.toNat - s.env.progBase.toNat)

/-- The instruction at `pc` decodes to `i` of length `n`, in the admitted mode and with its bytes fetchable (R169). -/
abbrev Fetches (s : State) (i : Instr) (n : Nat) : Prop :=
  Mode64 s.env ∧ inText s.env s.pc.toNat = true ∧ decode (textFrom s) = .instr i n ∧ Fetchable s n

/-- The invariant of the machine: memory in canonical form and `pc` in the program. -/
abbrev MachineInv (s : State) : Prop := memWf s.mem = true ∧ PcInProgram s

end Sys2Proof.Safety
end

