-- ==== Sys2Proof/Certificates/Slice0/Obligations.lean ====
section
/-! DEFINITION. The statements for the provers, from the numbered rules of spec/. -/

namespace Sys2Proof.Claims

open Sys2Proof.Machine Sys2Proof.Safety

/-- n of a store form: ESIZE times the number of active elements (R44). -/
def storeBytes (s : State) (es : ElemSize) (vl : VecLen) (k : KReg) : Nat := (active s es vl k).length * esize es

/-- R108 as an outcome: a next state in which the destination holds the packed active elements, then its old elements
(z = 0) or zeros (z = 1) up to VL, and zeros above VL; `pc` has advanced by the length. -/
def RegResult (es : ElemSize) (vl : VecLen) (p : Prefixes) (z : Bool) (k : KReg) (dst src : VReg) (s : State)
    (o : Out) : Prop :=
  ∃ t, o = .next t ∧ t.pc = s.pc + BitVec.ofNat 64 (regLen p) ∧
    (∀ i (h : i < (active s es vl k).length),
      elem es (readZmm t dst) i = elem es (readZmm s src) (active s es vl k)[i]) ∧
    (∀ i, (active s es vl k).length ≤ i → i < klOf es vl →
      elem es (readZmm t dst) i = if z then 0 else elem es (readZmm s dst) i) ∧
    ∀ b, vlBits vl ≤ b → (readZmm t dst).getLsbD b = false

/-- R107 as an outcome: a next state in which byte b of the i-th active element stands at LA + i*ESIZE + b, every byte
outside LA .. LA+n-1 reads as before, and `pc` has advanced by the length. -/
def StoreResult (es : ElemSize) (vl : VecLen) (p : Prefixes) (k : KReg) (src : VReg) (m : MemOperand) (s : State)
    (o : Out) : Prop :=
  ∃ t, o = .next t ∧ t.pc = s.pc + BitVec.ofNat 64 (storeLen p m) ∧
    (∀ i (h : i < (active s es vl k).length), ∀ b < esize es,
      byteAt t ((storeAddr s es p m).toNat + i * esize es + b) =
        some ((elem es (readZmm s src) (active s es vl k)[i]).extractLsb' (8 * b) 8)) ∧
    ∀ a, (a < (storeAddr s es p m).toNat ∨ (storeAddr s es p m).toNat + storeBytes s es vl k ≤ a) →
      byteAt t a = byteAt s a

/-- The state and operands on which a store form completes whatever the open choices: its n bytes may be written, and LA is
canonical when n = 0 (R52). -/
def StoreReady (es : ElemSize) (vl : VecLen) (p : Prefixes) (k : KReg) (m : MemOperand) (s : State) : Prop :=
  Enabled s vl ∧ Storable s (storeAddr s es p m) (storeBytes s es vl k) ∧
    (storeBytes s es vl k = 0 → canonical s.env (storeAddr s es p m) = true)

/-- The general registers, opmask registers, segment bases, flags and environment are as before. -/
def SameOtherState (s t : State) : Prop :=
  t.kreg = s.kreg ∧ t.gpr = s.gpr ∧ t.fsBase = s.fsBase ∧ t.gsBase = s.gsBase ∧ t.rflags = s.rflags ∧
    t.mxcsr = s.mxcsr ∧ t.env = s.env

/-- The writemask field and the number of elements of an instruction. -/
def maskOf (i : Instr) : KReg × Nat :=
  match i.shape with
  | .store es vl _ k _ _ => (k, klOf es vl)
  | .reg es vl _ _ k _ _ => (k, klOf es vl)

/-- The vector length of an instruction. -/
def vecLen (i : Instr) : VecLen :=
  match i.shape with
  | .store _ vl _ _ _ _ => vl
  | .reg _ vl _ _ _ _ _ => vl

/-- The length of an instruction of the pattern with these prefixes and bytes after the opcode, where the bytes suffice
(R90). -/
def patternLen (p : Prefixes) (f : EvexFields) (modrm : Byte) (rest : List Byte) : Option Nat :=
  if modrm.extractLsb' 6 2 = 0b11#2 then some (p.len + 6)
  else (takeMem (modrm.extractLsb' 6 2) (modrm.extractLsb' 0 3) (~~~f.x) (~~~f.b) rest).map fun m => p.len + 6 + m.len

/-- The text at `pc` is a byte string of the pattern (30_encoding.md section 5), complete and fetchable, in `Long64`. -/
def FetchesPattern (s : State) (p : Prefixes) (p0 p1 p2 modrm : Byte) (rest : List Byte) : Prop :=
  Mode64 s.env ∧ inText s.env s.pc.toNat = true ∧
    textFrom s = p.bytes ++ 0x62#8 :: p0 :: p1 :: p2 :: 0x63#8 :: modrm :: rest ∧
    inPattern (evexFields p0 p1 p2) 0x63#8 = true ∧
    ∃ n, patternLen p (evexFields p0 p1 p2) modrm rest = some n ∧ Fetchable s n

/-- R100's loop run in place, reading elements from the register it writes. -/
def compressInPlace (es : ElemSize) (kl : Nat) (v : Vec) (m : Mask) : Nat × Vec :=
  (List.range kl).foldl (fun acc j => if m.getLsbD j then (acc.1 + 1, setElem es acc.2 acc.1 (elem es acc.2 j)) else acc)
    (0, v)

/-- The positions of the 1 bits of an intrinsic's mask, ascending. -/
def maskBits {kl : Nat} (k : BitVec kl) : List Nat := (List.range kl).filter fun j => k.getLsbD j

/-- The state with `pc` past an instruction of `n` bytes. -/
def advancePc (n : Nat) (t : State) : State := { t with pc := t.pc + BitVec.ofNat 64 n }

/-- Whether a byte is a legacy prefix or REX byte (R88, R89). -/
def isPrefixByte (b : Byte) : Bool :=
  [0x64#8, 0x65#8, 0x67#8, 0x26#8, 0x2E#8, 0x36#8, 0x3E#8, 0xF0#8, 0x66#8, 0xF2#8, 0xF3#8].contains b ||
    b.extractLsb' 4 4 == 4#4

/-- The segment overrides R89 names as refused. -/
def unlistedOverride (b : Byte) : Bool := [0x26#8, 0x2E#8, 0x36#8, 0x3E#8].contains b

/-- The prefix byte that stands for its kind: 64H for the overrides R89 admits one of, 40H for the REX bytes. -/
def prefixKindByte (b : Byte) : Byte := if b = 0x65#8 then 0x64#8 else if b.extractLsb' 4 4 = 4#4 then 0x40#8 else b

/-- ASZ (R71): 32 when a 67H prefix is present, else 64. -/
def asz (p : Prefixes) : Nat := if 0x67#8 ∈ p.bytes then 32 else 64

/-- A general register's value in an address (R74): its low ASZ bits. -/
def gprTerm (s : State) (p : Prefixes) (r : GReg) : Int := ((s.gpr[r.toNat]'r.isLt).toNat : Int) % 2 ^ asz p

/-- The index term of R73: 0 for number 4, else the register times 2^scale. -/
def scaledIndex (s : State) (p : Prefixes) (index : GReg) (scale : BitVec 2) : Int :=
  if index = 4#4 then 0 else gprTerm s p index * 2 ^ scale.toNat

/-- `disp_term` of R75 and R76 as an integer. -/
def dispInt (es : ElemSize) : Disp → Int
  | .none => 0
  | .disp8 d => d.toInt * esize es
  | .disp32 d => d.toInt

/-- The sum of base, index and displacement terms, before it is reduced modulo 2^ASZ (R71 to R75). -/
def addressSum (s : State) (es : ElemSize) (p : Prefixes) (m : MemOperand) (ilen : Nat) : Int :=
  match m with
  | .base b d _ => gprTerm s p b + dispInt es d
  | .rip d _ _ => s.pc.toNat + ilen + d.toInt
  | .sib b i sc d => gprTerm s p b + scaledIndex s p i sc + dispInt es d
  | .sibNoBase i sc d _ => scaledIndex s p i sc + d.toInt

/-- SB of R74. -/
def segBaseInt (s : State) (p : Prefixes) : Int :=
  if 0x64#8 ∈ p.bytes then s.fsBase.toNat else if 0x65#8 ∈ p.bytes then s.gsBase.toNat else 0

/-- The memory operands of R77 that name one address, the base register's value. -/
def sameAddressForms (b : GReg) (x : BitVec 1) (sc : BitVec 2) : List MemOperand :=
  [.base b .none x, .base b (.disp8 0) x, .base b (.disp32 0) x, .sib b 4#4 sc .none, .sib b 4#4 sc (.disp8 0),
    .sib b 4#4 sc (.disp32 0)]

end Sys2Proof.Claims

open Sys2Proof Sys2Proof.Machine Sys2Proof.Safety Sys2Proof.Claims

/-! ## Results and completion -/

/-- R102, R104, R106 over R108: when enabled, VPCOMPRESSB xmm, ymm and zmm (constructors vpcompressbXmm, vpcompressbYmm,
vpcompressbZmm) complete with R108's result, for every operand. -/
def Obligations.ByteRegisterFormsComplete : Prop :=
  ∀ (s : State) (p : Prefixes) (z : Bool) (k : KReg) (dst src : VReg),
    (Enabled s .v128 → RegResult .byte .v128 p z k dst src s (exec (.vpcompressbXmm p z k dst src) s)) ∧
    (Enabled s .v256 → RegResult .byte .v256 p z k dst src s (exec (.vpcompressbYmm p z k dst src) s)) ∧
    (Enabled s .v512 → RegResult .byte .v512 p z k dst src s (exec (.vpcompressbZmm p z k dst src) s))

/-- R112, R114, R116 over R108: when enabled, VPCOMPRESSW xmm, ymm and zmm (constructors vpcompresswXmm, vpcompresswYmm,
vpcompresswZmm) complete with R108's result, for every operand. -/
def Obligations.WordRegisterFormsComplete : Prop :=
  ∀ (s : State) (p : Prefixes) (z : Bool) (k : KReg) (dst src : VReg),
    (Enabled s .v128 → RegResult .word .v128 p z k dst src s (exec (.vpcompresswXmm p z k dst src) s)) ∧
    (Enabled s .v256 → RegResult .word .v256 p z k dst src s (exec (.vpcompresswYmm p z k dst src) s)) ∧
    (Enabled s .v512 → RegResult .word .v512 p z k dst src s (exec (.vpcompresswZmm p z k dst src) s))

/-- R101, R103, R105 over R107: where exactly the n bytes may be written, VPCOMPRESSB m128, m256 and m512 (constructors
vpcompressbM128, vpcompressbM256, vpcompressbM512) complete with R107's result, alignment checking or not. -/
def Obligations.ByteStoreFormsComplete : Prop :=
  ∀ (s : State) (p : Prefixes) (k : KReg) (src : VReg) (m : MemOperand),
    (StoreReady .byte .v128 p k m s → StoreResult .byte .v128 p k src m s (exec (.vpcompressbM128 p k src m) s)) ∧
    (StoreReady .byte .v256 p k m s → StoreResult .byte .v256 p k src m s (exec (.vpcompressbM256 p k src m) s)) ∧
    (StoreReady .byte .v512 p k m s → StoreResult .byte .v512 p k src m s (exec (.vpcompressbM512 p k src m) s))

/-- R111, R113, R115 over R107: where exactly the n bytes may be written, and alignment checking is off or LA is even (R43
leaves the odd address under alignment checking open), VPCOMPRESSW m128, m256 and m512 (constructors vpcompresswM128,
vpcompresswM256, vpcompresswM512) complete with R107's result. -/
def Obligations.WordStoreFormsComplete : Prop :=
  ∀ (s : State) (p : Prefixes) (k : KReg) (src : VReg) (m : MemOperand),
    (NoAlignCheck s.env ∨ (storeAddr s .word p m).getLsbD 0 = false) →
    (StoreReady .word .v128 p k m s → StoreResult .word .v128 p k src m s (exec (.vpcompresswM128 p k src m) s)) ∧
    (StoreReady .word .v256 p k m s → StoreResult .word .v256 p k src m s (exec (.vpcompresswM256 p k src m) s)) ∧
    (StoreReady .word .v512 p k m s → StoreResult .word .v512 p k src m s (exec (.vpcompresswM512 p k src m) s))

/-! ## Frames -/

/-- R22, R25, R26, R28: the six reg-reg instructions change the destination register and `pc` and nothing else. -/
def Obligations.RegisterFormsFrame : Prop :=
  ∀ (i : Instr) es vl p z k dst src, i.shape = .reg es vl p z k dst src → ∀ s t, exec i s = .next t →
    (∀ r, r ≠ dst → readZmm t r = readZmm s r) ∧ SameOtherState s t ∧ t.draws = s.draws ∧ ∀ a, byteAt t a = byteAt s a

/-- R45: the six store instructions change no byte outside LA .. LA + n - 1, and no register but `pc` (R22, R25, R26, R28).
The model's own counter of open choices is not named. -/
def Obligations.StoreFormsFrame : Prop :=
  ∀ (i : Instr) es vl p k src m, i.shape = .store es vl p k src m → ∀ s t, exec i s = .next t →
    t.zmm = s.zmm ∧ SameOtherState s t ∧
      ∀ a, (a < (storeAddr s es p m).toNat ∨ (storeAddr s es p m).toNat + storeBytes s es vl k ≤ a) →
        byteAt t a = byteAt s a

/-- R168: the instructions transfer control only by falling through: on completion `pc` has advanced by `ilen`. -/
def Obligations.CompletionFallsThrough : Prop :=
  ∀ (i : Instr) s t, exec i s = .next t → t.pc = s.pc + BitVec.ofNat 64 (encode i).length

/-- R29, R49, R57: no step changes the environment: mode, feature flags, `Translate`, program text. -/
def Obligations.EnvironmentIsConstant : Prop := ∀ s t, step s = .next t → t.env = s.env

/-! ## What is not read -/

/-- R24: bits of the writemask register at KL and above have no effect on the outcome. -/
def Obligations.MaskBitsAboveKlIgnored : Prop :=
  ∀ (i : Instr) (s : State) (v : Mask),
    (∀ j < (maskOf i).2, v.getLsbD j = (readK s (maskOf i).1).getLsbD j) →
    exec i { s with kreg := s.kreg.set (maskOf i).1.toNat v (maskOf i).1.isLt } =
      mapOut (fun t => { t with kreg := s.kreg.set (maskOf i).1.toNat v (maskOf i).1.isLt }) (exec i s)

/-- R25: no instruction writes an opmask register, and K0 is never read. -/
def Obligations.OpmasksReadOnlyAndK0Unread : Prop :=
  (∀ (i : Instr) s t, exec i s = .next t → t.kreg = s.kreg) ∧
    ∀ (i : Instr) (s : State) (v : Mask),
      exec i { s with kreg := s.kreg.set 0 v } = mapOut (fun t => { t with kreg := s.kreg.set 0 v }) (exec i s)

/-- R28: no step reads or writes RFLAGS or MXCSR. -/
def Obligations.FlagsNeitherReadNorWritten : Prop :=
  (∀ s t, step s = .next t → t.rflags = s.rflags ∧ t.mxcsr = s.mxcsr) ∧
    ∀ (s : State) (f : BitVec 64) (x : BitVec 32),
      step { s with rflags := f, mxcsr := x } = mapOut (fun t => { t with rflags := f, mxcsr := x }) (step s)

/-- R21: bits of the source register at VL and above have no effect on the result of a reg-reg form, nor on the stored
bytes of a store form. -/
def Obligations.SourceBitsAboveVlIgnored : Prop :=
  ∀ (es : ElemSize) (vl : VecLen) (k : KReg) (src : VReg) (s : State) (v : Vec),
    (∀ b < vlBits vl, v.getLsbD b = (readZmm s src).getLsbD b) →
    (∀ p z dst t t', exec (Shape.reg es vl p z k dst src).instr s = .next t →
      exec (Shape.reg es vl p z k dst src).instr (writeZmm s src v) = .next t' → readZmm t' dst = readZmm t dst) ∧
    ∀ p m, exec (Shape.store es vl p k src m).instr (writeZmm s src v) =
      mapOut (fun t => writeZmm t src v) (exec (Shape.store es vl p k src m).instr s)

/-! ## #UD and #NM -/

/-- R82: an instruction of the pattern whose stored vvvv is not 1111 raises #UD, in either form, whatever its other
fields. -/
def Obligations.ReservedVvvvRaisesUd : Prop :=
  ∀ s p p0 p1 p2 modrm rest, FetchesPattern s p p0 p1 p2 modrm rest → (evexFields p0 p1 p2).vvvv ≠ 0b1111#4 →
    step s = .fault (.invalidOpcode s.pc)

/-- R83: a store form with z = 1 raises #UD. -/
def Obligations.ZeroingStoreRaisesUd : Prop :=
  ∀ s p p0 p1 p2 modrm rest, FetchesPattern s p p0 p1 p2 modrm rest → modrm.extractLsb' 6 2 ≠ 0b11#2 →
    (evexFields p0 p1 p2).z = 1#1 → step s = .fault (.invalidOpcode s.pc)

/-- R84, R85, R86, R87: L'L = 11, b = 1, stored V' = 0, P0 bit 3 = 1, P1 bit 2 = 0, and z = 1 with aaa = 000 raise
#UD. -/
def Obligations.ReservedFieldsRaiseUd : Prop :=
  ∀ s p p0 p1 p2 modrm rest, FetchesPattern s p p0 p1 p2 modrm rest →
    ((evexFields p0 p1 p2).ll = 0b11#2 ∨ (evexFields p0 p1 p2).bc = 1#1 ∨ (evexFields p0 p1 p2).v' = 0#1 ∨
      (evexFields p0 p1 p2).p0bit3 = 1#1 ∨ (evexFields p0 p1 p2).p1bit2 = 0#1 ∨
      ((evexFields p0 p1 p2).z = 1#1 ∧ (evexFields p0 p1 p2).aaa = 0#3)) →
    step s = .fault (.invalidOpcode s.pc)

/-- R131 read the other way: an instruction of the pattern that breaks none of R82 to R87 is decoded to an instruction,
and the step is that instruction's. -/
def Obligations.WellEncodedPatternRuns : Prop :=
  ∀ s p p0 p1 p2 modrm rest, FetchesPattern s p p0 p1 p2 modrm rest → reservedBroken (evexFields p0 p1 p2) = false →
    (evexFields p0 p1 p2).ll ≠ 0b11#2 → (modrm.extractLsb' 6 2 = 0b11#2 ∨ (evexFields p0 p1 p2).z = 0#1) →
    ∃ i n, decode (textFrom s) = .instr i n ∧ step s = exec i s

/-- R88, R132 (the model's choice among #UD and refusal, notes/assumptions/12.md): one LOCK, 66H, F2H, F3H or REX byte before
the 62H of the pattern raises #UD. -/
def Obligations.ForbiddenPrefixRaisesUd : Prop :=
  ∀ (s : State) (b p0 p1 p2 modrm : Byte) (rest : List Byte) (n : Nat),
    (b = 0xF0#8 ∨ b = 0x66#8 ∨ b = 0xF2#8 ∨ b = 0xF3#8 ∨ b.extractLsb' 4 4 = 4#4) →
    Mode64 s.env → inText s.env s.pc.toNat = true →
    textFrom s = b :: 0x62#8 :: p0 :: p1 :: p2 :: 0x63#8 :: modrm :: rest →
    inPattern (evexFields p0 p1 p2) 0x63#8 = true → patternLen .none (evexFields p0 p1 p2) modrm rest = some n →
    Fetchable s (n + 1) → step s = .fault (.invalidOpcode s.pc)

/-- R133, R134: in `Long64` an instruction raises #UD exactly when the OS has not enabled AVX-512, AVX512_VBMI2 is missing,
or a 128- or 256-bit form finds AVX512VL missing. -/
def Obligations.MissingFeatureRaisesUd : Prop :=
  ∀ (i : Instr) (s : State), Mode64 s.env →
    (exec i s = .fault (.invalidOpcode s.pc) ↔
      s.env.osAvx512Enabled = false ∨ s.env.hasAvx512Vbmi2 = false ∨
        (vecLen i ≠ .v512 ∧ s.env.hasAvx512Vl = false))

/-- R135: an instruction that passes R133 and R134 raises #NM exactly when cr0_ts is set. -/
def Obligations.TaskSwitchedRaisesNm : Prop :=
  ∀ (i : Instr) (s : State), Mode64 s.env → OsEnabled s.env → FeaturesPresent s.env (vecLen i) →
    (exec i s = .fault (.deviceNotAvailable s.pc) ↔ s.env.cr0Ts = true)

/-- R149: the reg-reg forms touch no memory: they raise #UD and #NM only, and neither change memory nor depend on it. -/
def Obligations.RegisterFormsTouchNoMemory : Prop :=
  ∀ (i : Instr) es vl p z k dst src, i.shape = .reg es vl p z k dst src → ∀ (s : State),
    (∀ f, exec i s = .fault f → f = .invalidOpcode s.pc ∨ f = .deviceNotAvailable s.pc) ∧
    ∀ (m : Memory), exec i { s with mem := m } = mapOut (fun t => { t with mem := m }) (exec i s) ∧
      ∀ t, exec i s = .next t → t.mem = s.mem

/-! ## Memory faults and refusals -/

/-- R136, R137: a store of n > 0 bytes of which one is at a non-canonical address raises #SS(0) when the segment is SS and
#GP(0) otherwise; SS is the segment exactly of a base RSP or RBP without an override; and #GP(0) and #SS(0) have no other
cause but R52's. The range neither wraps nor meets the program text, which are refused first (R107). -/
def Obligations.NonCanonicalStoreFaults : Prop :=
  ∀ (i : Instr) es vl p k src m, i.shape = .store es vl p k src m → ∀ s, Enabled s vl →
    (∀ j < storeBytes s es vl k, (storeAddr s es p m).toNat + storeBytes s es vl k ≤ 2 ^ 64 →
      (∀ l < storeBytes s es vl k, inText s.env ((storeAddr s es p m).toNat + l) = false) →
      canonical s.env (storeAddr s es p m + BitVec.ofNat 64 j) = false →
      exec i s = .fault (if segmentOf p m = .ss then .stackSegment s.pc else .generalProtection s.pc)) ∧
    (segmentOf p m = .ss ↔ segOverride p = none ∧
      ((∃ b d x, m = .base b d x ∧ (b = 4#4 ∨ b = 5#4)) ∨ ∃ b x sc d, m = .sib b x sc d ∧ (b = 4#4 ∨ b = 5#4))) ∧
    ∀ f, (f = .generalProtection s.pc ∨ f = .stackSegment s.pc) → exec i s = .fault f →
      (∃ j < storeBytes s es vl k, canonical s.env (storeAddr s es p m + BitVec.ofNat 64 j) = false) ∨
        (storeBytes s es vl k = 0 ∧ canonical s.env (storeAddr s es p m) = false)

/-- R139: a store whose bytes are all canonical raises #PF for the lowest byte `Translate` denies, with its code and
address, where the range is not refused (R42, R57) and #AC, which comes first (R142), is not raised; and every #PF of a
store is for the lowest byte of its range that `Translate` denies, with that byte's code. -/
def Obligations.PageFaultAtLowestByte : Prop :=
  ∀ (i : Instr) es vl p k src m, i.shape = .store es vl p k src m → ∀ s, Enabled s vl →
    (∀ j c, j < storeBytes s es vl k → (storeAddr s es p m).toNat + storeBytes s es vl k ≤ 2 ^ 64 →
      (∀ l < storeBytes s es vl k, inText s.env ((storeAddr s es p m).toNat + l) = false ∧
        canonical s.env (storeAddr s es p m + BitVec.ofNat 64 l) = true) →
      (s.env.acEnabled = false ∨ es = .byte ∨ (storeAddr s es p m).getLsbD 0 = false ∨
        exec i s ≠ .fault (.alignmentCheck s.pc)) →
      translate s.env (storeAddr s es p m + BitVec.ofNat 64 j) .write = .pageFault c →
      (∀ l < j, translate s.env (storeAddr s es p m + BitVec.ofNat 64 l) .write = .ok) →
      exec i s = .fault (.pageFault c (storeAddr s es p m + BitVec.ofNat 64 j) s.pc)) ∧
    ∀ c a q, exec i s = .fault (.pageFault c a q) → q = s.pc ∧
      ∃ j < storeBytes s es vl k, a = storeAddr s es p m + BitVec.ofNat 64 j ∧
        translate s.env (storeAddr s es p m + BitVec.ofNat 64 j) .write = .pageFault c ∧
        ∀ l < j, translate s.env (storeAddr s es p m + BitVec.ofNat 64 l) .write = .ok

/-- 60_exceptions.md section 1 (R140) and 20_memory.md section 4 (R43): with alignment checking in force, a word store of
n > 0 bytes at an odd address raises #AC(0) or completes; #AC is never raised where alignment checking is off, by an
instruction that is no word store, by a word store of no bytes, or at an even LA. The spec admits both outcomes of the open
case; that the free value `Config.acDraw` at `draws` says which is the model's choice (notes/assumptions/9.md, DESIGN
CHOICE). -/
def Obligations.AlignmentCheckIsOpen : Prop :=
  (∀ vl p k src m s, StoreReady .word vl p k m s → s.env.acEnabled = true → 0 < storeBytes s .word vl k →
    (storeAddr s .word p m).getLsbD 0 = true →
    if Config.acDraw s.draws = true then
      exec (Shape.store .word vl p k src m).instr s = .fault (.alignmentCheck s.pc)
    else StoreResult .word vl p k src m s (exec (Shape.store .word vl p k src m).instr s)) ∧
  ∀ (i : Instr) s q, (s.env.acEnabled = false ∨ ∀ vl p k src m, i.shape = .store .word vl p k src m →
      storeBytes s .word vl k = 0 ∨ (storeAddr s .word p m).getLsbD 0 = false) →
    exec i s ≠ .fault (.alignmentCheck q)

/-- 20_memory.md section 7 (R52): a store of zero bytes never page-faults; at a canonical address it completes and writes
nothing; at a non-canonical one it raises R50's fault or completes. The spec admits both; that `zero_len_check` has a third
value besides R52's two, under which the free value `Config.zeroLenDraw` at `draws` says which, is the model's choice
(notes/assumptions/10.md, DESIGN CHOICE). -/
def Obligations.ZeroLengthStore : Prop :=
  ∀ (i : Instr) es vl p k src m, i.shape = .store es vl p k src m → ∀ s, Enabled s vl → storeBytes s es vl k = 0 →
    (∀ c a q, exec i s ≠ .fault (.pageFault c a q)) ∧
    (canonical s.env (storeAddr s es p m) = true → StoreResult es vl p k src m s (exec i s)) ∧
    (canonical s.env (storeAddr s es p m) = false →
      if (s.env.zeroLenCheck = .raises ∨ (s.env.zeroLenCheck = .either ∧ Config.zeroLenDraw s.draws = true)) then
        exec i s = .fault (if segmentOf p m = .ss then .stackSegment s.pc else .generalProtection s.pc)
      else StoreResult es vl p k src m s (exec i s))

/-- R57: a store of n > 0 bytes that overlaps the program text is refused, and no completed instruction changes a byte of
the text. The range does not wrap, which is refused first (R107). -/
def Obligations.TextIsImmutable : Prop :=
  (∀ (i : Instr) es vl p k src m, i.shape = .store es vl p k src m → ∀ s, Enabled s vl →
    (storeAddr s es p m).toNat + storeBytes s es vl k ≤ 2 ^ 64 →
    (∃ j < storeBytes s es vl k, inText s.env ((storeAddr s es p m).toNat + j) = true) →
    exec i s = .refused .storeOverlapsText) ∧
  ∀ (i : Instr) s t a, exec i s = .next t → inText s.env a = true → byteAt t a = byteAt s a

/-- R42: a store of n > 0 bytes whose range wraps past 2^64 - 1 is refused, and not faulted (90_conflicts.md C7). -/
def Obligations.WrappingStoreIsRefused : Prop :=
  ∀ (i : Instr) es vl p k src m, i.shape = .store es vl p k src m → ∀ s, Enabled s vl → 0 < storeBytes s es vl k →
    2 ^ 64 < (storeAddr s es p m).toNat + storeBytes s es vl k → exec i s = .refused .storeWraps

/-- R47: a completed store run again from the state it leaves, with `pc` back at it, writes the same bytes: memory does not
change again. Where the second run is stopped (an open choice), nothing is said. -/
def Obligations.StoreIsIdempotent : Prop :=
  ∀ (i : Instr) es vl p k src m, i.shape = .store es vl p k src m → ∀ s t u, exec i s = .next t →
    exec i { t with pc := s.pc } = .next u → ∀ a, byteAt u a = byteAt t a

/-- R47: a store that meets no fault and no other refusal but writes an address marked as a device is refused. -/
def Obligations.DeviceStoreIsRefused : Prop :=
  ∀ (i : Instr) es vl p k src m, i.shape = .store es vl p k src m → ∀ s, Enabled s vl →
    (NoAlignCheck s.env ∨ es = .byte ∨ (storeAddr s es p m).getLsbD 0 = false) →
    (storeAddr s es p m).toNat + storeBytes s es vl k ≤ 2 ^ 64 →
    (∀ j < storeBytes s es vl k, inText s.env ((storeAddr s es p m).toNat + j) = false ∧
      canonical s.env (storeAddr s es p m + BitVec.ofNat 64 j) = true ∧
      translate s.env (storeAddr s es p m + BitVec.ofNat 64 j) .write = .ok) →
    (∃ j < storeBytes s es vl k, isDevice s.env (storeAddr s es p m + BitVec.ofNat 64 j) = true) →
    exec i s = .refused .storeToDevice

/-- R51: bytes a store does not write have no effect on it: `Translate` and canonicity (through VA_BITS) may change everywhere
outside LA .. LA + n - 1 and the outcome is the same. A store of n = 0 bytes writes none, and R52 lets the canonicity of LA
matter there; it is kept. -/
def Obligations.UnwrittenBytesHaveNoEffect : Prop :=
  ∀ (i : Instr) es vl p k src m, i.shape = .store es vl p k src m → ∀ (s : State) (tr : List XlatEntry) (va : VaBits),
    (∀ j < storeBytes s es vl k,
      translate { s.env with translate := tr, vaBits := va } (storeAddr s es p m + BitVec.ofNat 64 j) .write =
        translate s.env (storeAddr s es p m + BitVec.ofNat 64 j) .write ∧
      canonical { s.env with translate := tr, vaBits := va } (storeAddr s es p m + BitVec.ofNat 64 j) =
        canonical s.env (storeAddr s es p m + BitVec.ofNat 64 j)) →
    (storeBytes s es vl k = 0 →
      canonical { s.env with translate := tr, vaBits := va } (storeAddr s es p m) = canonical s.env (storeAddr s es p m)) →
    exec i { s with env := { s.env with translate := tr, vaBits := va } } =
      mapOut (fun t => { t with env := { s.env with translate := tr, vaBits := va } }) (exec i s)

/-- R130, R143: every fault of a step records the `pc` of the faulting instruction, one of the six vectors, error code 0
for #SS, #GP and #AC, a code and an address for #PF, and nothing more for #UD and #NM. -/
def Obligations.FaultRecordsPcAndVector : Prop :=
  ∀ s f, step s = .fault f → (faultRecord f).pc = s.pc ∧
    (((faultRecord f).vector ∈ [6, 7] ∧ (faultRecord f).code = none ∧ (faultRecord f).addr = none) ∨
      ((faultRecord f).vector ∈ [12, 13, 17] ∧ (faultRecord f).code = some 0 ∧ (faultRecord f).addr = none) ∨
      ((faultRecord f).vector = 14 ∧ (faultRecord f).code.isSome = true ∧ (faultRecord f).addr.isSome = true))

/-- R142: the order among exceptions: #NM only where no #UD cause holds; #SS, #GP, #AC and #PF only where neither #UD nor
#NM holds; #AC and #PF only where every byte of the range is canonical. -/
def Obligations.ExceptionPriority : Prop :=
  ∀ (i : Instr) s f, exec i s = .fault f →
    ((faultRecord f).vector = 7 → OsEnabled s.env ∧ FeaturesPresent s.env (vecLen i)) ∧
    ((faultRecord f).vector ∈ [12, 13, 14, 17] → Enabled s (vecLen i)) ∧
    ((faultRecord f).vector ∈ [14, 17] → ∀ es vl p k src m, i.shape = .store es vl p k src m →
      ∀ j < storeBytes s es vl k, canonical s.env (storeAddr s es p m + BitVec.ofNat 64 j) = true)

/-! ## Fetch, decode, encode -/

/-- R169: where the bytes at `pc` decode to an instruction and may be fetched, the step is `exec` of it and nothing
more. -/
def Obligations.StepRunsDecodedInstruction : Prop := ∀ s i n, Fetches s i n → step s = exec i s

/-- R170: at the end of the program there is no step (the model's refusal `runOver`, notes/assumptions/15.md); outside it,
and in another mode than `Long64` (30_encoding.md section 1, R60), the step is refused. That the mode is refused before
anything else, also where the run is over, is the model's choice (notes/assumptions/19.md, DESIGN CHOICE). -/
def Obligations.StepOutsideProgramRefused : Prop :=
  ∀ s, (¬ Mode64 s.env → step s = .refused .modeNotAdmitted) ∧
    (Mode64 s.env → RunOver s → step s = .refused .runOver) ∧
    (Mode64 s.env → ¬ RunOver s → inText s.env s.pc.toNat = false → step s = .refused .pcOutsideProgram)

/-- 95_test_vectors.md A10, A11, A43, A45, A49: five words decode to the instructions they stand for. -/
def Obligations.SampleWordsDecode : Prop :=
  decode [0x62#8, 0x42#8, 0xFD#8, 0x8B#8, 0x63#8, 0xD1#8] = .instr (.vpcompresswXmm .none true 3 9 26) 6 ∧
  decode [0x62#8, 0x22#8, 0x7D#8, 0x48#8, 0x63#8, 0xF1#8] = .instr (.vpcompressbZmm .none false 0 17 30) 6 ∧
  decode [0x62#8, 0xE2#8, 0xFD#8, 0x2D#8, 0x63#8, 0x24#8, 0x73#8] =
    .instr (.vpcompresswM256 .none 5 20 (.sib 3 6 1 .none)) 7 ∧
  decode [0x62#8, 0xF2#8, 0xFD#8, 0x09#8, 0x63#8, 0x1C#8, 0xF5#8, 0x20#8, 0#8, 0#8, 0#8] =
    .instr (.vpcompresswM128 .none 1 3 (.sibNoBase 6 3 0x20 0)) 11 ∧
  decode [0x65#8, 0x62#8, 0x82#8, 0xFD#8, 0x4E#8, 0x63#8, 0x44#8, 0xC8#8, 0x3F#8] =
    .instr (.vpcompresswM512 (.seg .gs) 6 16 (.sib 8 9 3 (.disp8 0x3F))) 9

/-- R61 to R76, R90, R95: every well-formed instruction decodes from its encoding, whatever bytes follow, with its
length. -/
def Obligations.DecodeOfEncode : Prop :=
  ∀ (i : Instr) (rest : List Byte), i.wf = true → decode (encode i ++ rest) = .instr i (encode i).length

/-- 30_encoding.md sections 2, 3, 6 and 9: whatever decodes to an instruction begins with that instruction's encoding, so that
every word has one meaning. That no bit is lost, bits that R71 to R73 call ignored and the order of two prefixes included,
is the model's choice: its instructions keep them (notes/assumptions/20.md, DESIGN CHOICE). -/
def Obligations.EncodeOfDecode : Prop :=
  ∀ (bs : List Byte) (i : Instr) (n : Nat), decode bs = .instr i n →
    i.wf = true ∧ n = (encode i).length ∧ ∃ rest, bs = encode i ++ rest

/-- R81: which of the twelve instructions the pattern is depends on W, L'L and `mod` alone. -/
def Obligations.FormSelection : Prop :=
  ∀ p p0 p1 p2 modrm rest i n, inPattern (evexFields p0 p1 p2) 0x63#8 = true →
    decode (Prefixes.bytes p ++ 0x62#8 :: p0 :: p1 :: p2 :: 0x63#8 :: modrm :: rest) = .instr i n →
    (modrm.extractLsb' 6 2 = 0b11#2 → ∃ vl z k dst src, vl.ll = p2.extractLsb' 5 2 ∧
      i = (Shape.reg (if p1.extractLsb' 7 1 = 1#1 then .word else .byte) vl p z k dst src).instr) ∧
    (modrm.extractLsb' 6 2 ≠ 0b11#2 → ∃ vl k src m, vl.ll = p2.extractLsb' 5 2 ∧
      i = (Shape.store (if p1.extractLsb' 7 1 = 1#1 then .word else .byte) vl p k src m).instr)

/-- 30_encoding.md section 9 (R95) and 70_reset_and_hazards.md section 6 (R169): what the decoder refuses after admitted
prefixes, and the model claims no #UD: a first byte that is no prefix and not 62H (step 2); a 62H byte followed by bytes
outside the pattern (step 3); and program text that ends inside an instruction or a #UD byte string, wherever it ends. -/
def Obligations.OutsidePatternRefused : Prop :=
  ∀ (s : State), Mode64 s.env → inText s.env s.pc.toNat = true →
    (∀ (p : Prefixes) (b : Byte) (rest : List Byte), textFrom s = p.bytes ++ b :: rest → isPrefixByte b = false →
      b ≠ 0x62#8 → step s = .refused (.undecoded .notEvex)) ∧
    (∀ (p : Prefixes) (p0 p1 p2 op : Byte) (rest : List Byte),
      textFrom s = p.bytes ++ 0x62#8 :: p0 :: p1 :: p2 :: op :: rest →
      (p0.extractLsb' 0 3 ≠ 0b010#3 ∨ p1.extractLsb' 0 2 ≠ 0b01#2 ∨ op ≠ 0x63#8) →
      step s = .refused (.undecoded .otherInstruction)) ∧
    ∀ (more : List Byte) (n : Nat),
      (decode (textFrom s ++ more) = .ud n ∨ ∃ i, decode (textFrom s ++ more) = .instr i n) →
      (textFrom s).length < n → step s = .refused (.undecoded .truncated)

/-! ## Addresses -/

/-- R74: under a 67H prefix the effective address is the one without it, modulo 2^32, whether or not a segment override
stands beside it. -/
def Obligations.Address32IsTruncation : Prop :=
  ∀ (s : State) (es : ElemSize) (p : Prefixes) (m : MemOperand) (ilen : Nat), addr32 p = true →
    effectiveAddress s es p m ilen = ((effectiveAddress s es .none m ilen).setWidth 32).setWidth 64

/-- R31, R74: a segment override adds FS_BASE or GS_BASE to the address the operand has without it, and without an override no
segment adds anything, under 67H or not. -/
def Obligations.SegmentOverrideAddsBase : Prop :=
  ∀ (s : State) (es : ElemSize) (m : MemOperand) (ilen : Nat) (o : SegOverride),
    linearAddress s es (.seg o) m ilen =
      (match o with | .fs => s.fsBase | .gs => s.gsBase) + linearAddress s es .none m ilen ∧
    linearAddress s es (.segAddr32 o) m ilen =
      (match o with | .fs => s.fsBase | .gs => s.gsBase) + linearAddress s es .addr32 m ilen ∧
    linearAddress s es (.addr32Seg o) m ilen = linearAddress s es (.segAddr32 o) m ilen ∧
    linearAddress s es .none m ilen = effectiveAddress s es .none m ilen ∧
    linearAddress s es .addr32 m ilen = effectiveAddress s es .addr32 m ilen

/-- R72: a RIP-relative operand names pc + ilen + disp, modulo 2^32 under 67H, in segment DS when no override is present; R170:
an instruction without one does the same wherever it stands, and only `pc` moves with it. -/
def Obligations.PositionIndependence : Prop :=
  (∀ (s : State) es p (d : BitVec 32) x b (ilen : Nat),
    (effectiveAddress s es p (.rip d x b) ilen).toNat =
      (s.pc + BitVec.ofNat 64 ilen + d.signExtend 64).toNat % 2 ^ (if addr32 p then 32 else 64) ∧
    (segOverride p = none → segmentOf p (.rip d x b) = .ds)) ∧
  ∀ (i : Instr) (s t : State) (q : Addr), (∀ es vl p k src d x b, i.shape ≠ .store es vl p k src (.rip d x b)) →
    exec i s = .next t → exec i { s with pc := q } = .next { t with pc := q + BitVec.ofNat 64 (encode i).length }

/-- R76: a one-byte displacement d contributes d * N, N the element size: it names the address of the four-byte displacement
d * N. -/
def Obligations.CompressedDisplacement : Prop :=
  ∀ (s : State) (es : ElemSize) (p : Prefixes) (b x : GReg) (sc : BitVec 2) (ix : BitVec 1) (d : BitVec 8) (ilen : Nat),
    effectiveAddress s es p (.base b (.disp8 d) ix) ilen =
      effectiveAddress s es p (.base b (.disp32 (d.signExtend 32 * BitVec.ofNat 32 (esize es))) ix) ilen ∧
    effectiveAddress s es p (.sib b x sc (.disp8 d)) ilen =
      effectiveAddress s es p (.sib b x sc (.disp32 (d.signExtend 32 * BitVec.ofNat 32 (esize es)))) ilen

/-- R77: the encodings of one base address have one meaning: two completed stores that differ in the encoding alone leave
the same memory, and one completes where the other does. -/
def Obligations.EncodingsOfOneAddressAgree : Prop :=
  ∀ (es : ElemSize) (vl : VecLen) (p : Prefixes) (k : KReg) (src : VReg) (b : GReg) (x : BitVec 1) (sc : BitVec 2)
    (s t : State) (m m' : MemOperand), m ∈ sameAddressForms b x sc → m' ∈ sameAddressForms b x sc →
    exec (Shape.store es vl p k src m).instr s = .next t →
    exec (Shape.store es vl p k src m').instr s =
      .next { t with pc := s.pc + BitVec.ofNat 64 (storeLen p m') }

/-! ## Compress -/

/-- R100: `Compress` counts and packs the active elements in order: k is the number of 1 bits below KL, element i is the
source element at the i-th such position, no element moves up, what lies above is 0; all ones give the source and no ones
give 0. -/
def Obligations.CompressPacksInOrder : Prop :=
  ∀ (es : ElemSize) (vl : VecLen) (src : Vec) (m : Mask),
    (∃ js : List Nat, js.Pairwise (· < ·) ∧ (∀ j, j ∈ js ↔ j < klOf es vl ∧ m.getLsbD j = true) ∧
      (compress es (klOf es vl) src m).1 = js.length ∧ js.length ≤ klOf es vl ∧
      (∀ i (h : i < js.length), elem es (compress es (klOf es vl) src m).2 i = elem es src js[i] ∧ i ≤ js[i]) ∧
      ∀ b, js.length * ebits es ≤ b → (compress es (klOf es vl) src m).2.getLsbD b = false) ∧
    ((∀ j < klOf es vl, m.getLsbD j = true) →
      (compress es (klOf es vl) src m).1 = klOf es vl ∧
        ∀ b < vlBits vl, (compress es (klOf es vl) src m).2.getLsbD b = src.getLsbD b) ∧
    ((∀ j < klOf es vl, m.getLsbD j = false) → compress es (klOf es vl) src m = (0, 0))

/-- R100, third property: the loop run in place, reading from the register it writes, leaves what the merging register form
with one register as source and destination leaves, and counts the same. -/
def Obligations.InPlaceLoopAgrees : Prop :=
  ∀ (es : ElemSize) (vl : VecLen) (v : Vec) (m : Mask),
    (compressInPlace es (klOf es vl) v m).1 = (compress es (klOf es vl) v m).1 ∧
      ∀ i < klOf es vl, elem es (compressInPlace es (klOf es vl) v m).2 i = elem es (regResult es vl false m v v) i

/-- 95_test_vectors.md Q4: compressing the packed value under its first k positions changes nothing. -/
def Obligations.CompressTwiceIsOnce : Prop :=
  ∀ (es : ElemSize) (vl : VecLen) (src : Vec) (m m' : Mask),
    (∀ j < klOf es vl, m'.getLsbD j = decide (j < (compress es (klOf es vl) src m).1)) →
    compress es (klOf es vl) (compress es (klOf es vl) src m).2 m' = compress es (klOf es vl) src m

/-- 95_test_vectors.md Q2, R69: with no writemask a reg-reg form copies the source's low VL bits and clears the rest,
whatever z and every opmask register hold. -/
def Obligations.UnmaskedFormCopies : Prop :=
  ∀ (es : ElemSize) (vl : VecLen) (p : Prefixes) (z : Bool) (dst src : VReg) (s : State), Enabled s vl →
    exec (Shape.reg es vl p z 0#3 dst src).instr s =
      .next (complete (writeZmm s dst (((readZmm s src).setWidth (vlBits vl)).setWidth 512)) (regLen p))

/-- 95_test_vectors.md Q7: VPCOMPRESSW leaves what VPCOMPRESSB of the same length leaves under the mask with bits 2j and
2j + 1 equal to bit j. -/
def Obligations.WordFormIsDoubledByteForm : Prop :=
  ∀ (vl : VecLen) (p : Prefixes) (z : Bool) (k : KReg) (dst src : VReg) (s t t' : State) (v : Mask), k ≠ 0#3 →
    (∀ j < klOf .word vl, v.getLsbD (2 * j) = (readK s k).getLsbD j ∧ v.getLsbD (2 * j + 1) = (readK s k).getLsbD j) →
    exec (Shape.reg .word vl p z k dst src).instr s = .next t →
    exec (Shape.reg .byte vl p z k dst src).instr { s with kreg := s.kreg.set k.toNat v k.isLt } = .next t' →
    readZmm t' dst = readZmm t dst

/-- 95_test_vectors.md Q8: a store form writes, at ascending addresses, the low n bytes of what the zeroing register form of
the same length leaves in its destination. -/
def Obligations.StoreWritesZeroingResult : Prop :=
  ∀ (es : ElemSize) (vl : VecLen) (p q : Prefixes) (k : KReg) (src dst : VReg) (m : MemOperand) (s t t' : State),
    exec (Shape.store es vl p k src m).instr s = .next t → exec (Shape.reg es vl q true k dst src).instr s = .next t' →
    ∀ j < storeBytes s es vl k,
      byteAt t ((storeAddr s es p m).toNat + j) = some ((readZmm t' dst).extractLsb' (8 * j) 8)

/-! ## Intrinsics -/

/-- R122: the six mask_compress intrinsics give the low VL bits of the destination after the merging reg-reg form, run with
`src`, `k` and `a` in the destination, the writemask and the source. -/
def Obligations.MaskCompressIsMergingForm : Prop :=
  ∀ (s : State) (p : Prefixes) (k : KReg) (dst src : VReg), k ≠ 0#3 →
    (∀ t, exec (.vpcompressbXmm p false k dst src) s = .next t →
      (readZmm t dst).setWidth 128 =
        mm_mask_compress_epi8 ((readZmm s dst).setWidth 128) ((readK s k).setWidth 16) ((readZmm s src).setWidth 128)) ∧
    (∀ t, exec (.vpcompressbYmm p false k dst src) s = .next t →
      (readZmm t dst).setWidth 256 =
        mm256_mask_compress_epi8 ((readZmm s dst).setWidth 256) ((readK s k).setWidth 32) ((readZmm s src).setWidth 256)) ∧
    (∀ t, exec (.vpcompressbZmm p false k dst src) s = .next t →
      (readZmm t dst).setWidth 512 =
        mm512_mask_compress_epi8 ((readZmm s dst).setWidth 512) ((readK s k).setWidth 64) ((readZmm s src).setWidth 512)) ∧
    (∀ t, exec (.vpcompresswXmm p false k dst src) s = .next t →
      (readZmm t dst).setWidth 128 =
        mm_mask_compress_epi16 ((readZmm s dst).setWidth 128) ((readK s k).setWidth 8) ((readZmm s src).setWidth 128)) ∧
    (∀ t, exec (.vpcompresswYmm p false k dst src) s = .next t →
      (readZmm t dst).setWidth 256 =
        mm256_mask_compress_epi16 ((readZmm s dst).setWidth 256) ((readK s k).setWidth 16) ((readZmm s src).setWidth 256)) ∧
    (∀ t, exec (.vpcompresswZmm p false k dst src) s = .next t →
      (readZmm t dst).setWidth 512 =
        mm512_mask_compress_epi16 ((readZmm s dst).setWidth 512) ((readK s k).setWidth 32) ((readZmm s src).setWidth 512))

/-- R123: the six maskz_compress intrinsics give the low VL bits of the destination after the zeroing reg-reg form; its prior
content does not matter. -/
def Obligations.MaskzCompressIsZeroingForm : Prop :=
  ∀ (s : State) (p : Prefixes) (k : KReg) (dst src : VReg), k ≠ 0#3 →
    (∀ t, exec (.vpcompressbXmm p true k dst src) s = .next t →
      (readZmm t dst).setWidth 128 = mm_maskz_compress_epi8 ((readK s k).setWidth 16) ((readZmm s src).setWidth 128)) ∧
    (∀ t, exec (.vpcompressbYmm p true k dst src) s = .next t →
      (readZmm t dst).setWidth 256 = mm256_maskz_compress_epi8 ((readK s k).setWidth 32) ((readZmm s src).setWidth 256)) ∧
    (∀ t, exec (.vpcompressbZmm p true k dst src) s = .next t →
      (readZmm t dst).setWidth 512 = mm512_maskz_compress_epi8 ((readK s k).setWidth 64) ((readZmm s src).setWidth 512)) ∧
    (∀ t, exec (.vpcompresswXmm p true k dst src) s = .next t →
      (readZmm t dst).setWidth 128 = mm_maskz_compress_epi16 ((readK s k).setWidth 8) ((readZmm s src).setWidth 128)) ∧
    (∀ t, exec (.vpcompresswYmm p true k dst src) s = .next t →
      (readZmm t dst).setWidth 256 = mm256_maskz_compress_epi16 ((readK s k).setWidth 16) ((readZmm s src).setWidth 256)) ∧
    (∀ t, exec (.vpcompresswZmm p true k dst src) s = .next t →
      (readZmm t dst).setWidth 512 = mm512_maskz_compress_epi16 ((readK s k).setWidth 32) ((readZmm s src).setWidth 512))

/-- 42_intrinsics.md section 2 (R124): where a compressstoreu intrinsic completes, popcount(k) * ESIZE bytes at `base_addr` hold
the packed active elements of `a`, and nothing else has changed; where those bytes wrap past 2^64 - 1 it is refused as
`Store` is (R42); and each of the six has, at the linear address of a memory operand and by its segment, the outcome of its
store form, faults and refusals included, but for the advance of `pc`. That an intrinsic takes the segment as an argument
and leaves `pc` is the model's choice (notes/assumptions/23.md, DESIGN CHOICE). -/
def Obligations.CompressStoreuIsStoreForm : Prop :=
  (∀ (es : ElemSize) (vl : VecLen) (seg : Segment) (base : Addr) (k : BitVec (klOf es vl)) (a : BitVec (vlBits vl)) (s : State),
    (∀ t, compressStoreu es vl seg base k a s = .next t →
      (∀ i (h : i < (maskBits k).length), ∀ b < esize es,
        byteAt t (base.toNat + i * esize es + b) =
          some ((elem es (a.setWidth 512) (maskBits k)[i]).extractLsb' (8 * b) 8)) ∧
      (∀ c, (c < base.toNat ∨ base.toNat + (maskBits k).length * esize es ≤ c) → byteAt t c = byteAt s c) ∧
      (memWf s.mem = true → memWf t.mem = true) ∧ t.zmm = s.zmm ∧ SameOtherState s t ∧ t.pc = s.pc) ∧
    (Enabled s vl → 0 < (maskBits k).length → 2 ^ 64 < base.toNat + (maskBits k).length * esize es →
      compressStoreu es vl seg base k a s = .refused .storeWraps)) ∧
  ∀ (s : State) (p : Prefixes) (k : KReg) (src : VReg) (m : MemOperand), k ≠ 0#3 →
    exec (.vpcompressbM128 p k src m) s = mapOut (advancePc (storeLen p m))
      (mm_mask_compressstoreu_epi8 (segmentOf p m) (storeAddr s .byte p m) ((readK s k).setWidth 16)
        ((readZmm s src).setWidth 128) s) ∧
    exec (.vpcompressbM256 p k src m) s = mapOut (advancePc (storeLen p m))
      (mm256_mask_compressstoreu_epi8 (segmentOf p m) (storeAddr s .byte p m) ((readK s k).setWidth 32)
        ((readZmm s src).setWidth 256) s) ∧
    exec (.vpcompressbM512 p k src m) s = mapOut (advancePc (storeLen p m))
      (mm512_mask_compressstoreu_epi8 (segmentOf p m) (storeAddr s .byte p m) ((readK s k).setWidth 64)
        ((readZmm s src).setWidth 512) s) ∧
    exec (.vpcompresswM128 p k src m) s = mapOut (advancePc (storeLen p m))
      (mm_mask_compressstoreu_epi16 (segmentOf p m) (storeAddr s .word p m) ((readK s k).setWidth 8)
        ((readZmm s src).setWidth 128) s) ∧
    exec (.vpcompresswM256 p k src m) s = mapOut (advancePc (storeLen p m))
      (mm256_mask_compressstoreu_epi16 (segmentOf p m) (storeAddr s .word p m) ((readK s k).setWidth 16)
        ((readZmm s src).setWidth 256) s) ∧
    exec (.vpcompresswM512 p k src m) s = mapOut (advancePc (storeLen p m))
      (mm512_mask_compressstoreu_epi16 (segmentOf p m) (storeAddr s .word p m) ((readK s k).setWidth 32)
        ((readZmm s src).setWidth 512) s)

/-! ## Reset, invariants and runs -/

/-- The reset state (R34, R161 for `pc` and the mode; the empty program at 400000H is the model's choice,
notes/assumptions/5.md) meets the invariant and the launch premises of R163, and its run is over. -/
def Obligations.ResetMeetsLaunchPremises : Prop :=
  MachineInv State.reset ∧ Enabled State.reset .v128 ∧ NoAlignCheck State.reset.env ∧ TextFetchable State.reset.env ∧
    State.reset.pc = State.reset.env.progBase ∧ RunOver State.reset ∧ step State.reset = .refused .runOver

/-- Every step keeps the invariant: memory stays in canonical form below 2^64 (R32), and `pc` stays in the program text or
at its end (R168, R170). -/
def Obligations.StepKeepsInvariant : Prop := ∀ s t, MachineInv s → step s = .next t → MachineInv t

/-- R167, R170: a program that is the concatenation of the encodings of its instructions, entered at ProgBase, runs them in
order, one a step: after j completed steps `pc` stands after the first j encodings; before the last, the next step is the
next instruction's; after the last, the run is over. That a step at the end answers the refusal `runOver` is the model's
choice (notes/assumptions/15.md, DESIGN CHOICE). -/
def Obligations.ProgramRunsInOrder : Prop :=
  ∀ (is : List Instr) (s t : State) (j : Nat), (∀ i ∈ is, i.wf = true) → s.env.progBytes = is.flatMap encode →
    s.pc = s.env.progBase → Mode64 s.env → TextFetchable s.env →
    s.env.progBase.toNat + s.env.progBytes.length < 2 ^ 64 → j ≤ is.length → Sys2Proof.core.run j s = .next t →
    t.pc.toNat = s.env.progBase.toNat + ((is.take j).flatMap encode).length ∧
      (∀ h : j < is.length, step t = exec is[j] t) ∧ (j = is.length → RunOver t ∧ step t = .refused .runOver)

/-! ## Address sums, the order of #AC and #PF, prefixes and the place of an instruction -/

/-- R71 to R76: the effective address is the sum of the base register, the index register times 2^scale (none for index number
4; R12 is an index) and the displacement, modulo 2^ASZ, each register read as its low ASZ bits; RIP-relative it is pc + ilen +
disp. A store form's LA is FS_BASE, GS_BASE or 0 plus that, modulo 2^64, with its own length as ilen (R74, R90). -/
def Obligations.EffectiveAddressIsSum : Prop :=
  ∀ (s : State) (es : ElemSize) (p : Prefixes) (m : MemOperand),
    (∀ ilen : Nat, ((effectiveAddress s es p m ilen).toNat : Int) = addressSum s es p m ilen % 2 ^ asz p) ∧
    ∀ vl k src, ((storeAddr s es p m).toNat : Int) =
      (segBaseInt s p + addressSum s es p m (encode (Shape.store es vl p k src m).instr).length % 2 ^ asz p) % 2 ^ 64

/-- 60_exceptions.md section 3 (R142, items 4 and 5): an odd word store with alignment checking in force and a byte `Translate`
denies reports #AC(0) where the open choice of R140 raises it, and otherwise #PF for the lowest denied byte. That the free
value `Config.acDraw` at `draws` makes the choice is the model's (notes/assumptions/9.md, DESIGN CHOICE). -/
def Obligations.AlignmentCheckPrecedesPageFault : Prop :=
  ∀ vl p k src m s, Enabled s vl → s.env.acEnabled = true → (storeAddr s .word p m).getLsbD 0 = true →
    (storeAddr s .word p m).toNat + storeBytes s .word vl k ≤ 2 ^ 64 →
    (∀ l < storeBytes s .word vl k, inText s.env ((storeAddr s .word p m).toNat + l) = false ∧
      canonical s.env (storeAddr s .word p m + BitVec.ofNat 64 l) = true) →
    ∀ j c, j < storeBytes s .word vl k →
      translate s.env (storeAddr s .word p m + BitVec.ofNat 64 j) .write = .pageFault c →
      (∀ l < j, translate s.env (storeAddr s .word p m + BitVec.ofNat 64 l) .write = .ok) →
      exec (Shape.store .word vl p k src m).instr s =
        .fault (if Config.acDraw s.draws = true then .alignmentCheck s.pc
          else .pageFault c (storeAddr s .word p m + BitVec.ofNat 64 j) s.pc)

/-- 30_encoding.md section 5 (R88, R89): a run of prefix bytes with an override 26H, 2EH, 36H or 3EH is refused, and so is one
with two bytes of one kind. Which of the two is named where both hold, that they hold beside bytes of R88 too, and that a REX
byte not in the last place is refused, are the model's choice (notes/assumptions/13.md, DESIGN CHOICE). -/
def Obligations.PrefixRunsRefused : Prop :=
  ∀ (s : State) (run rest : List Byte), Mode64 s.env → inText s.env s.pc.toNat = true → textFrom s = run ++ rest →
    (∀ b ∈ run, isPrefixByte b = true) → (∀ b, rest.head? = some b → isPrefixByte b = false) →
    if run.any unlistedOverride = true then step s = .refused (.undecoded .unlistedPrefix)
    else if ¬ (run.map prefixKindByte).Nodup then step s = .refused (.undecoded .repeatedPrefix)
    else (∃ b ∈ run.dropLast, b.extractLsb' 4 4 = 4#4) → step s = .refused (.undecoded .forbiddenPrefix)

/-- 10_state.md section 4 (R27): an instruction, or a #UD byte string, that ends past 2^64 - 1 or has a byte at a non-canonical
address is refused. Elsewhere a byte whose fetch `Translate` denies raises #PF, for the lowest one; that it does, and after
decoding, is the model's choice (notes/assumptions/14.md, DESIGN CHOICE). -/
def Obligations.InstructionAddressRefused : Prop :=
  ∀ (s : State) (n : Nat), Mode64 s.env → inText s.env s.pc.toNat = true →
    (decode (textFrom s) = .ud n ∨ ∃ i, decode (textFrom s) = .instr i n) →
    ((2 ^ 64 - 1 < s.pc.toNat + n ∨ ∃ j < n, canonical s.env (s.pc + BitVec.ofNat 64 j) = false) →
      step s = .refused .instructionAddress) ∧
    (s.pc.toNat + n < 2 ^ 64 → (∀ j < n, canonical s.env (s.pc + BitVec.ofNat 64 j) = true) →
      ∀ j c, j < n → translate s.env (s.pc + BitVec.ofNat 64 j) .fetch = .pageFault c →
        (∀ l < j, translate s.env (s.pc + BitVec.ofNat 64 l) .fetch = .ok) →
        step s = .fault (.pageFault c (s.pc + BitVec.ofNat 64 j) s.pc))
end

