-- ==== Sys2Proof/Laws/Compress.lean ====
section
/-! SUPPORT. Slices and elements of vectors bit by bit, and what `compress` computes (40_vpcompressb.md R100). -/

namespace Sys2Proof.Machine

theorem esize_pos (es : ElemSize) : 0 < esize es := by cases es <;> decide
theorem ebits_pos (es : ElemSize) : 0 < ebits es := by cases es <;> decide

/-- R6: KL elements span exactly VL bits. -/
@[simp] theorem klOf_mul_ebits (es : ElemSize) (vl : VecLen) : klOf es vl * ebits es = vlBits vl := by
  cases es <;> cases vl <;> decide

theorem vlBits_le (vl : VecLen) : vlBits vl ≤ 512 := by cases vl <;> decide
theorem klOf_le (es : ElemSize) (vl : VecLen) : klOf es vl ≤ 64 := by cases es <;> cases vl <;> decide

theorem getLsbD_rangeBits (lo hi i : Nat) :
    (rangeBits lo hi).getLsbD i = (decide (lo ≤ i) && decide (i < hi) && decide (i < 512)) := by
  simp only [rangeBits, BitVec.getLsbD_and, BitVec.getLsbD_setWidth, BitVec.getLsbD_not, BitVec.getLsbD_allOnes]
  by_cases h1 : i < 512 <;> by_cases h2 : i < hi <;> by_cases h3 : i < lo <;> (simp [h1, h2, h3]; try omega)

/-- `splice` bit by bit. -/
theorem getLsbD_splice (v x : Vec) (lo hi i : Nat) :
    (splice v x lo hi).getLsbD i = if lo ≤ i ∧ i < hi then x.getLsbD i else v.getLsbD i := by
  simp only [splice, BitVec.getLsbD_or, BitVec.getLsbD_and, BitVec.getLsbD_not, getLsbD_rangeBits]
  by_cases h1 : i < 512
  · by_cases h2 : lo ≤ i <;> by_cases h3 : i < hi <;> simp [h1, h2, h3]
  · simp [BitVec.getLsbD_of_ge _ i (by omega : 512 ≤ i)]

/-- `elem` bit by bit. -/
theorem getLsbD_elem (es : ElemSize) (v : Vec) (i b : Nat) :
    (elem es v i).getLsbD b = (decide (b < ebits es) && v.getLsbD (ebits es * i + b)) := by
  simp only [elem, BitVec.getLsbD_extractLsb']

/-- Two vectors with equal elements have equal bits there. -/
theorem getLsbD_of_elem_eq {es : ElemSize} {v w : Vec} {i : Nat} (h : elem es v i = elem es w i) {b : Nat}
    (hb : b < ebits es) : v.getLsbD (ebits es * i + b) = w.getLsbD (ebits es * i + b) := by
  have h' := congrArg (fun x : BitVec (ebits es) => x.getLsbD b) h
  simp only [getLsbD_elem, hb, decide_true, Bool.true_and] at h'
  exact h'

/-- `setElem` bit by bit, for an element inside the vector. -/
theorem getLsbD_setElem (es : ElemSize) (v : Vec) (i : Nat) (x : BitVec (ebits es)) (b : Nat)
    (hi : ebits es * i + ebits es ≤ 512) :
    (setElem es v i x).getLsbD b =
      if ebits es * i ≤ b ∧ b < ebits es * i + ebits es then x.getLsbD (b - ebits es * i) else v.getLsbD b := by
  rw [setElem, getLsbD_splice]
  by_cases h : ebits es * i ≤ b ∧ b < ebits es * i + ebits es
  · rw [if_pos h, if_pos h, BitVec.getLsbD_shiftLeft, BitVec.getLsbD_setWidth]
    simp [show b < 512 by omega, show ¬ b < ebits es * i by omega, show b - ebits es * i < 512 by omega]
  · rw [if_neg h, if_neg h]

/-- The element written by `setElem`. -/
theorem elem_setElem_same (es : ElemSize) (v : Vec) (i : Nat) (x : BitVec (ebits es))
    (hi : ebits es * i + ebits es ≤ 512) : elem es (setElem es v i x) i = x := by
  refine BitVec.eq_of_getLsbD_eq fun b hb => ?_
  rw [getLsbD_elem, getLsbD_setElem _ _ _ _ _ hi, if_pos (by omega)]
  simp [hb]

/-- `setElem` leaves the other elements alone. -/
theorem elem_setElem_other (es : ElemSize) (v : Vec) {i j : Nat} (x : BitVec (ebits es))
    (hi : ebits es * i + ebits es ≤ 512) (h : j ≠ i) : elem es (setElem es v i x) j = elem es v j := by
  refine BitVec.eq_of_getLsbD_eq fun b hb => ?_
  rw [getLsbD_elem, getLsbD_elem, getLsbD_setElem _ _ _ _ _ hi, if_neg]
  intro ⟨h1, h2⟩
  rcases Nat.lt_or_gt_of_ne h with h | h
  · have : ebits es * (j + 1) ≤ ebits es * i := Nat.mul_le_mul_left _ h
    rw [Nat.mul_add] at this; omega
  · have : ebits es * (i + 1) ≤ ebits es * j := Nat.mul_le_mul_left _ h
    rw [Nat.mul_add] at this; omega

/-- The positions of the 1 bits of a mask below `n`, ascending (R100). -/
def positions (m : Mask) (n : Nat) : List Nat := (List.range n).filter fun j => m.getLsbD j

theorem positions_succ (m : Mask) (n : Nat) :
    positions m (n + 1) = if m.getLsbD n then positions m n ++ [n] else positions m n := by
  simp only [positions, List.range_succ, List.filter_append]
  by_cases h : m.getLsbD n <;> simp [h]

theorem positions_length_le (m : Mask) (n : Nat) : (positions m n).length ≤ n := by
  simpa [positions] using List.length_filter_le (fun j => m.getLsbD j) (List.range n)

/-- What R100's loop holds after `n` turns: the count, the packed elements, and zero above them. -/
theorem compress_loop (es : ElemSize) (src : Vec) (m : Mask) (n : Nat) (hn : ebits es * n ≤ 512) :
    (compress es n src m).1 = (positions m n).length ∧
      (∀ i (h : i < (positions m n).length), elem es (compress es n src m).2 i = elem es src (positions m n)[i]) ∧
      ∀ b, (positions m n).length * ebits es ≤ b → (compress es n src m).2.getLsbD b = false := by
  induction n with
  | zero => simp [compress, positions]
  | succ n ih =>
    have hstep : compress es (n + 1) src m = compressTurn es src m (compress es n src m) n := by
      simp [compress, List.range_succ]
    rw [Nat.mul_add] at hn
    obtain ⟨hk, he, hz⟩ := ih (by omega)
    rw [hstep, positions_succ]
    by_cases hm : m.getLsbD n
    · have hle := positions_length_le m n
      have hroom : ebits es * (compress es n src m).1 + ebits es ≤ 512 := by
        have := Nat.mul_le_mul_left (ebits es) hle
        rw [hk]; omega
      simp only [compressTurn, hm, if_true, List.length_append, List.length_singleton]
      refine ⟨by omega, fun i h => ?_, fun b hb => ?_⟩
      · by_cases hi : i = (positions m n).length
        · have h' : elem es (setElem es (compress es n src m).2 (compress es n src m).1 (elem es src n)) i = elem es src n := by
            rw [hi, ← hk]; exact elem_setElem_same _ _ _ _ hroom
          rw [h']; simp [hi]
        · rw [elem_setElem_other _ _ _ hroom (by omega), he i (by omega)]
          simp [List.getElem_append_left (show i < (positions m n).length by omega)]
      · rw [Nat.add_mul] at hb
        rw [getLsbD_setElem _ _ _ _ _ hroom, if_neg, hz b (by omega)]
        rw [hk, Nat.mul_comm]; omega
    · simp only [compressTurn, hm, Bool.false_eq_true, if_false]
      exact ⟨hk, he, hz⟩

section klof
variable (es : ElemSize) (vl : VecLen) (src : Vec) (m : Mask)

theorem ebits_mul_klOf_le : ebits es * klOf es vl ≤ 512 := by
  rw [Nat.mul_comm, klOf_mul_ebits]; exact vlBits_le vl

/-- `k` is the number of active elements (R100). -/
theorem compress_count : (compress es (klOf es vl) src m).1 = (positions m (klOf es vl)).length :=
  (compress_loop es src m _ (ebits_mul_klOf_le es vl)).1

/-- Element i of `packed` is the i-th active element of the source (R100). -/
theorem compress_elem {i : Nat} (h : i < (positions m (klOf es vl)).length) :
    elem es (compress es (klOf es vl) src m).2 i = elem es src (positions m (klOf es vl))[i] :=
  (compress_loop es src m _ (ebits_mul_klOf_le es vl)).2.1 i h

/-- Above the packed elements `packed` is zero (R100). -/
theorem compress_above {b : Nat} (h : (positions m (klOf es vl)).length * ebits es ≤ b) :
    (compress es (klOf es vl) src m).2.getLsbD b = false :=
  (compress_loop es src m _ (ebits_mul_klOf_le es vl)).2.2 b h

theorem compress_count_le : (compress es (klOf es vl) src m).1 ≤ klOf es vl := by
  rw [compress_count]; exact positions_length_le _ _

end klof

/-- R24, R21: the loop sees only the elements and mask bits below KL. -/
theorem compress_congr (es : ElemSize) {src src' : Vec} {m m' : Mask} (n : Nat)
    (hs : ∀ j < n, elem es src j = elem es src' j) (hm : ∀ j < n, m.getLsbD j = m'.getLsbD j) :
    compress es n src m = compress es n src' m' := by
  induction n with
  | zero => rfl
  | succ n ih =>
    have e := ih (fun j h => hs j (by omega)) fun j h => hm j (by omega)
    simp only [compress, List.range_succ, List.foldl_append, List.foldl_cons, List.foldl_nil] at e ⊢
    rw [e, compressTurn, compressTurn, hm n (by omega), hs n (by omega)]

/-- `regResult` bit by bit (R108). -/
theorem getLsbD_regResult (es : ElemSize) (vl : VecLen) (z : Bool) (m : Mask) (old src : Vec) (b : Nat) :
    (regResult es vl z m old src).getLsbD b =
      if vlBits vl ≤ b then false
      else if b < (positions m (klOf es vl)).length * ebits es then
        (compress es (klOf es vl) src m).2.getLsbD b
      else !z && old.getLsbD b := by
  have hk := compress_count es vl src m
  simp only [regResult, getLsbD_splice, hk, Config.maxVl]
  by_cases h1 : vlBits vl ≤ b
  · by_cases h2 : b < 512
    · simp [h1, h2]
    · have hv := vlBits_le vl
      have hkl : (positions m (klOf es vl)).length * ebits es ≤ vlBits vl := by
        rw [← klOf_mul_ebits es vl]; exact Nat.mul_le_mul_right _ (positions_length_le _ _)
      simp [h1, h2, show ¬ b < vlBits vl by omega,
        show ¬ b < (positions m (klOf es vl)).length * ebits es by omega]
  · simp only [h1, false_and, if_false]
    by_cases h3 : b < (positions m (klOf es vl)).length * ebits es
    · simp [h3, show ¬ (positions m (klOf es vl)).length * ebits es ≤ b by omega]
    · simp only [show (positions m (klOf es vl)).length * ebits es ≤ b by omega, show b < vlBits vl by omega,
        and_self, if_true, h3, if_false]
      cases z <;> simp

/-- The packed elements of a register form's result (R108). -/
theorem elem_regResult_packed {es : ElemSize} {vl : VecLen} {z : Bool} {m : Mask} {old src : Vec} {i : Nat}
    (h : i < (positions m (klOf es vl)).length) :
    elem es (regResult es vl z m old src) i = elem es src (positions m (klOf es vl))[i] := by
  rw [← compress_elem es vl src m h]
  refine BitVec.eq_of_getLsbD_eq fun b hb => ?_
  have h1 : ebits es * i + ebits es ≤ (positions m (klOf es vl)).length * ebits es := by
    have := Nat.mul_le_mul_right (ebits es) (show i + 1 ≤ _ from h)
    rw [Nat.add_mul, Nat.mul_comm] at this; omega
  have h2 : (positions m (klOf es vl)).length * ebits es ≤ vlBits vl := by
    rw [← klOf_mul_ebits es vl]; exact Nat.mul_le_mul_right _ (positions_length_le _ _)
  simp only [getLsbD_elem, hb, decide_true, Bool.true_and, getLsbD_regResult]
  rw [if_neg (by omega), if_pos (by omega)]

/-- The elements of a register form's result above the packed ones: kept or cleared (R108). -/
theorem elem_regResult_above {es : ElemSize} {vl : VecLen} {z : Bool} {m : Mask} {old src : Vec} {i : Nat}
    (h : (positions m (klOf es vl)).length ≤ i) (hi : i < klOf es vl) :
    elem es (regResult es vl z m old src) i = if z then 0 else elem es old i := by
  refine BitVec.eq_of_getLsbD_eq fun b hb => ?_
  have h1 : (positions m (klOf es vl)).length * ebits es ≤ ebits es * i := by
    rw [Nat.mul_comm (ebits es)]; exact Nat.mul_le_mul_right _ h
  have h2 : ebits es * i + ebits es ≤ vlBits vl := by
    rw [← klOf_mul_ebits es vl]
    have := Nat.mul_le_mul_right (ebits es) (show i + 1 ≤ _ from hi)
    rw [Nat.add_mul, Nat.mul_comm] at this; omega
  rw [getLsbD_elem, getLsbD_regResult, if_neg (by omega), if_neg (by omega)]
  cases z
  · simp only [Bool.false_eq_true, if_false, Bool.not_false, Bool.true_and, getLsbD_elem]
  · simp

/-- `compress` depends on the active elements in their order and on nothing else. -/
theorem compress_ext {es : ElemSize} {vl : VecLen} {src src' : Vec} {m m' : Mask}
    (hl : (positions m (klOf es vl)).length = (positions m' (klOf es vl)).length)
    (he : ∀ i (h : i < (positions m (klOf es vl)).length) (h' : i < (positions m' (klOf es vl)).length),
      elem es src (positions m (klOf es vl))[i] = elem es src' (positions m' (klOf es vl))[i]) :
    compress es (klOf es vl) src m = compress es (klOf es vl) src' m' := by
  refine Prod.ext (by rw [compress_count, compress_count, hl]) (BitVec.eq_of_getLsbD_eq fun b hb => ?_)
  by_cases h : (positions m (klOf es vl)).length * ebits es ≤ b
  · rw [compress_above _ _ _ _ h, compress_above _ _ _ _ (by rw [← hl]; exact h)]
  · have hi : b / ebits es < (positions m (klOf es vl)).length := by rw [Nat.div_lt_iff_lt_mul (ebits_pos es)]; omega
    have h1 := compress_elem es vl src m hi
    have h2 := compress_elem es vl src' m' (i := b / ebits es) (by rw [← hl]; exact hi)
    have := getLsbD_of_elem_eq (h1.trans ((he _ hi (by rw [← hl]; exact hi)).trans h2.symm)) (Nat.mod_lt b (ebits_pos es))
    rw [Nat.div_add_mod] at this
    exact this

/-- A register form's result depends on the mask below KL and on the low VL bits of its operands (R21, R24). -/
theorem regResult_congr {es : ElemSize} {vl : VecLen} {z : Bool} {m m' : Mask} {old old' src src' : Vec}
    (hm : ∀ j < klOf es vl, m.getLsbD j = m'.getLsbD j) (hs : ∀ b < vlBits vl, src.getLsbD b = src'.getLsbD b)
    (ho : z = false → ∀ b < vlBits vl, old.getLsbD b = old'.getLsbD b) :
    regResult es vl z m old src = regResult es vl z m' old' src' := by
  have hp : positions m (klOf es vl) = positions m' (klOf es vl) :=
    List.filter_congr fun j hj => hm j (List.mem_range.1 hj)
  have hc : compress es (klOf es vl) src m = compress es (klOf es vl) src' m' := by
    refine compress_congr es _ (fun j hj => BitVec.eq_of_getLsbD_eq fun b hb => ?_) hm
    rw [getLsbD_elem, getLsbD_elem, hs]
    rw [← klOf_mul_ebits es vl]
    have := Nat.mul_le_mul_right (ebits es) (show j + 1 ≤ _ from hj)
    rw [Nat.add_mul, Nat.mul_comm] at this; omega
  refine BitVec.eq_of_getLsbD_eq fun b hb => ?_
  rw [getLsbD_regResult, getLsbD_regResult, hp, hc]
  split; · rfl
  split; · rfl
  cases z
  · rw [ho rfl b (by omega)]
  · rfl

end Sys2Proof.Machine
end

