-- ==== Sys2Proof/Laws/Decode.lean ====
section
/-! SUPPORT. Field by field, the decoder undoes the encoder and the encoder the decoder (30_encoding.md R61 to R76). -/

namespace Sys2Proof

/-! ## Lengths (R90) -/

@[simp] theorem Disp.bytes_length (d : Disp) : d.bytes.length = d.len := by cases d <;> rfl

@[simp] theorem MemOperand.bytes_length (m : MemOperand) : m.bytes.length = m.len := by
  cases m <;> simp [MemOperand.bytes, MemOperand.len, Disp.len, Nat.add_comm]

@[simp] theorem Prefixes.bytes_length (p : Prefixes) : p.bytes.length = p.len := by cases p <;> rfl

theorem Disp.len_le (d : Disp) : d.len ≤ 4 := by cases d <;> simp [Disp.len]

theorem MemOperand.len_le (m : MemOperand) : m.len ≤ 5 := by
  cases m with
  | base b d x => have := d.len_le; simp [MemOperand.len]; omega
  | rip => simp [MemOperand.len]
  | sib b i s d => have := d.len_le; simp [MemOperand.len]; omega
  | sibNoBase => simp [MemOperand.len]

theorem Prefixes.len_le (p : Prefixes) : p.len ≤ 2 := by cases p <;> simp [Prefixes.len]

/-- The encoding has the length R90 gives. -/
theorem Shape.bytes_length (x : Shape) : x.bytes.length = x.len := by
  cases x <;> (simp [Shape.bytes, Shape.len, storeLen, regLen]; try omega)

theorem encode_length (i : Instr) : (encode i).length = i.len := Shape.bytes_length _

/-! ## Prefixes (R89) -/

/-- The prefix kinds of an admitted run. -/
def Prefixes.kinds : Prefixes → List PrefixKind
  | .none => []
  | .seg o => [.segment o]
  | .addr32 => [.addressSize]
  | .segAddr32 o => [.segment o, .addressSize]
  | .addr32Seg o => [.addressSize, .segment o]

@[simp] theorem Prefixes.kinds_length (p : Prefixes) : p.kinds.length = p.len := by cases p <;> rfl

@[simp] theorem prefixKind_evex : prefixKind 0x62#8 = none := by decide

/-- The prefix bytes of an encoding are read back. -/
theorem readPrefixes_bytes (p : Prefixes) (bs : List Byte) :
    readPrefixes (p.bytes ++ 0x62#8 :: bs) = (p.kinds, 0x62#8 :: bs) := by
  have h62 : readPrefixes (0x62#8 :: bs) = ([], 0x62#8 :: bs) := by simp [readPrefixes]
  have h67 : prefixKind 0x67#8 = some .addressSize := by decide
  have hseg : ∀ o : SegOverride, prefixKind o.byte = some (.segment o) := by intro o; cases o <;> decide
  cases p <;> simp [Prefixes.bytes, Prefixes.kinds, readPrefixes, h67, hseg]

@[simp] theorem admittedPrefixes_kinds (p : Prefixes) : admittedPrefixes p.kinds = some p := by cases p <;> rfl

/-- Only the admitted runs are admitted. -/
theorem admittedPrefixes_some {ks : List PrefixKind} {p : Prefixes} (h : admittedPrefixes ks = some p) : ks = p.kinds := by
  unfold admittedPrefixes at h
  split at h <;> cases h <;> rfl

@[simp] theorem classifyPrefixes_kinds (p : Prefixes) : classifyPrefixes p.kinds = .admitted p := by
  simp [classifyPrefixes]

/-- A run classed as admitted is the kinds of its prefixes. -/
theorem classifyPrefixes_admitted {ks : List PrefixKind} {p : Prefixes} (h : classifyPrefixes ks = .admitted p) :
    ks = p.kinds := by
  rw [classifyPrefixes] at h
  split at h
  · rename_i q hq; cases h; exact admittedPrefixes_some hq
  · repeat' split at h
    all_goals cases h

/-- A byte read as an override or address-size prefix is that byte. -/
theorem prefixKind_some_byte (b : Byte) :
    (∀ o, prefixKind b = some (.segment o) → b = o.byte) ∧ (prefixKind b = some .addressSize → b = 0x67#8) := by
  have h : ∀ b : Byte, (prefixKind b = some (.segment .fs) → b = 0x64#8) ∧
      (prefixKind b = some (.segment .gs) → b = 0x65#8) ∧ (prefixKind b = some .addressSize → b = 0x67#8) := by decide
  exact ⟨fun o => by cases o; exacts [(h b).1, (h b).2.1], (h b).2.2⟩

/-- A run of prefix bytes before bytes that begin with none is read as the run. -/
theorem readPrefixes_run {run rest : List Byte} (h : ∀ b ∈ run, (prefixKind b).isSome = true)
    (hr : ∀ b, rest.head? = some b → prefixKind b = none) :
    readPrefixes (run ++ rest) = (run.filterMap prefixKind, rest) := by
  induction run with
  | nil =>
    cases rest with
    | nil => rfl
    | cons b bs => simp [readPrefixes, hr b rfl]
  | cons b run ih =>
    obtain ⟨k, hk⟩ := Option.isSome_iff_exists.1 (h b (by simp))
    simp [readPrefixes, hk, ih fun c hc => h c (by simp [hc])]

/-- What `readPrefixes` splits a byte string into. -/
theorem readPrefixes_split (bs : List Byte) :
    ∃ run rest : List Byte, bs = run ++ rest ∧ (∀ b ∈ run, (prefixKind b).isSome = true) ∧
      ∀ b, rest.head? = some b → prefixKind b = none := by
  induction bs with
  | nil => exact ⟨[], [], rfl, by simp, by simp⟩
  | cons b bs ih =>
    cases hb : prefixKind b with
    | none => exact ⟨[], b :: bs, rfl, by simp, by simpa using hb⟩
    | some k =>
      obtain ⟨run, rest, rfl, h1, h2⟩ := ih
      refine ⟨b :: run, rest, rfl, fun c hc => ?_, h2⟩
      rcases List.mem_cons.1 hc with rfl | hc
      · simp [hb]
      · exact h1 c hc

/-- A run of prefixes goes on to the EVEX bytes (admitted, or #UD by R88) exactly where no override is unlisted, no kind is
repeated, and no REX byte stands before the last place. -/
theorem classifyPrefixes_goes_on_iff (ks : List PrefixKind) :
    (∀ r, classifyPrefixes ks ≠ .refused r) ↔
      PrefixKind.ignoredSegment ∉ ks ∧ (ks.map PrefixKind.group).Nodup ∧ PrefixKind.rex ∉ ks.dropLast := by
  rw [classifyPrefixes]
  cases ha : admittedPrefixes ks with
  | some p =>
    obtain rfl := admittedPrefixes_some ha
    simp only [ne_eq, reduceCtorEq, not_false_eq_true, implies_true, true_iff]
    cases p with
    | none | addr32 => decide
    | seg o | segAddr32 o | addr32Seg o => cases o <;> decide
  | none =>
    simp only [List.any_eq_true, beq_iff_eq, exists_eq_right, Bool.not_eq_true', decide_eq_false_iff_not]
    split
    · rename_i h; simp [h]
    rename_i h1
    split
    · rename_i h; simp [h]
    rename_i h2
    rw [not_not] at h2
    split
    · rename_i h; simp [h]
    rename_i h3
    split
    · simp [h1, h2, h3]
    · rename_i h4
      exfalso
      have hk : ∀ k ∈ ks, (∃ o, k = .segment o) ∨ k = .addressSize := by
        intro k hk
        cases k with
        | segment o => exact .inl ⟨o, rfl⟩
        | addressSize => exact .inr rfl
        | ignoredSegment => exact absurd hk h1
        | lock | operandSize | repne | rep | rex => exact absurd ⟨_, hk, rfl⟩ h4
      match ks, ha, h2, hk with
      | [], ha, _, _ => cases ha
      | [a], ha, _, hk =>
        rcases hk a (by simp) with ⟨o, rfl⟩ | rfl <;> cases ha
      | [a, b], ha, h2, hk =>
        rcases hk a (by simp) with ⟨o, rfl⟩ | rfl <;> rcases hk b (by simp) with ⟨o', rfl⟩ | rfl <;>
          simp [PrefixKind.group, admittedPrefixes] at h2 ha
      | a :: b :: c :: _, _, h2, hk =>
        rcases hk a (by simp) with ⟨o, rfl⟩ | rfl <;> rcases hk b (by simp) with ⟨o', rfl⟩ | rfl <;>
          rcases hk c (by simp) with ⟨o'', rfl⟩ | rfl <;> simp [PrefixKind.group] at h2

theorem readPrefixes_cons_some {bs rest : List Byte} {k : PrefixKind} {ks : List PrefixKind}
    (h : readPrefixes bs = (k :: ks, rest)) :
    ∃ b bs', bs = b :: bs' ∧ prefixKind b = some k ∧ readPrefixes bs' = (ks, rest) := by
  cases bs with
  | nil => simp [readPrefixes] at h
  | cons b bs' =>
    rw [readPrefixes] at h
    cases hb : prefixKind b with
    | none => simp [hb] at h
    | some k' =>
      simp only [hb, Prod.mk.injEq, List.cons.injEq] at h
      obtain ⟨⟨rfl, rfl⟩, rfl⟩ := h
      exact ⟨b, bs', rfl, hb, rfl⟩

theorem readPrefixes_nil {bs rest : List Byte} (h : readPrefixes bs = ([], rest)) : bs = rest := by
  cases bs with
  | nil => simpa [readPrefixes] using h
  | cons b bs' =>
    rw [readPrefixes] at h
    cases hb : prefixKind b <;> simp [hb] at h
    exact h

/-- An admitted run stands at the head of the bytes as its encoding. -/
theorem readPrefixes_kinds {bs rest : List Byte} {p : Prefixes} (h : readPrefixes bs = (p.kinds, rest)) :
    bs = p.bytes ++ rest := by
  cases p with
  | none => simpa [Prefixes.bytes] using readPrefixes_nil h
  | seg o =>
    obtain ⟨b, bs', rfl, hb, h'⟩ := readPrefixes_cons_some h
    simp [Prefixes.bytes, readPrefixes_nil h', (prefixKind_some_byte b).1 o hb]
  | addr32 =>
    obtain ⟨b, bs', rfl, hb, h'⟩ := readPrefixes_cons_some h
    simp [Prefixes.bytes, readPrefixes_nil h', (prefixKind_some_byte b).2 hb]
  | segAddr32 o =>
    obtain ⟨b, bs', rfl, hb, h'⟩ := readPrefixes_cons_some h
    obtain ⟨c, cs', rfl, hc, h''⟩ := readPrefixes_cons_some h'
    simp [Prefixes.bytes, readPrefixes_nil h'', (prefixKind_some_byte b).1 o hb, (prefixKind_some_byte c).2 hc]
  | addr32Seg o =>
    obtain ⟨b, bs', rfl, hb, h'⟩ := readPrefixes_cons_some h
    obtain ⟨c, cs', rfl, hc, h''⟩ := readPrefixes_cons_some h'
    simp [Prefixes.bytes, readPrefixes_nil h'', (prefixKind_some_byte b).2 hb, (prefixKind_some_byte c).1 o hc]

/-! ## EVEX fields (R63 to R65) -/

/-- The fields of an encoded EVEX prefix. -/
theorem evexFields_encode (nR' nR nX nB : BitVec 1) (es : ElemSize) (z : Bool) (vl : VecLen) (k : KReg) :
    evexFields (encodeP0 nR' nR nX nB) (encodeP1 es) (encodeP2 z vl k) =
      { r := ~~~nR, x := ~~~nX, b := ~~~nB, r' := ~~~nR', p0bit3 := 0, mmm := 0b010,
        w := (match es with | .byte => 0#1 | .word => 1#1), vvvv := 0b1111, p1bit2 := 1, pp := 0b01,
        z := BitVec.ofBool z, ll := vl.ll, bc := 0, v' := 1, aaa := k } := by
  have h0 : ∀ a b c d : BitVec 1, (encodeP0 a b c d).extractLsb' 7 1 = ~~~b ∧ (encodeP0 a b c d).extractLsb' 6 1 = ~~~c ∧
      (encodeP0 a b c d).extractLsb' 5 1 = ~~~d ∧ (encodeP0 a b c d).extractLsb' 4 1 = ~~~a ∧
      (encodeP0 a b c d).extractLsb' 3 1 = 0 ∧ (encodeP0 a b c d).extractLsb' 0 3 = 0b010 := by decide
  have h2 : ∀ (z : Bool) (k : KReg), ∀ l : BitVec 2, (BitVec.ofBool z ++ l ++ 0b01#2 ++ k).extractLsb' 7 1 = BitVec.ofBool z ∧
      (BitVec.ofBool z ++ l ++ 0b01#2 ++ k).extractLsb' 5 2 = l ∧ (BitVec.ofBool z ++ l ++ 0b01#2 ++ k).extractLsb' 4 1 = 0#1 ∧
      (BitVec.ofBool z ++ l ++ 0b01#2 ++ k).extractLsb' 3 1 = 1#1 ∧
      (BitVec.ofBool z ++ l ++ 0b01#2 ++ k).extractLsb' 0 3 = k := by decide
  obtain ⟨a1, a2, a3, a4, a5, a6⟩ := h0 nR' nR nX nB
  obtain ⟨b1, b2, b3, b4, b5⟩ := h2 z k vl.ll
  simp only [evexFields, a1, a2, a3, a4, a5, a6, encodeP2, b1, b2, b3, b4, b5]
  cases es <;> rfl

@[simp] theorem vecLenOf_ll (vl : VecLen) : vecLenOf vl.ll = some vl := by cases vl <;> rfl

theorem vecLenOf_some {l : BitVec 2} {vl : VecLen} (h : vecLenOf l = some vl) : l = vl.ll := by
  revert l vl; intro l vl; cases vl <;> revert l <;> decide

/-- P0 is determined by its fields. -/
theorem p0_of_fields (p0 : Byte) (h3 : p0.extractLsb' 3 1 = 0#1) (hm : p0.extractLsb' 0 3 = 0b010#3) :
    p0 = encodeP0 (~~~p0.extractLsb' 4 1) (~~~p0.extractLsb' 7 1) (~~~p0.extractLsb' 6 1) (~~~p0.extractLsb' 5 1) := by
  revert p0; decide

/-- P1 is determined by its fields. -/
theorem p1_of_fields (p1 : Byte) (hv : p1.extractLsb' 3 4 = 0b1111#4) (h2 : p1.extractLsb' 2 1 = 1#1)
    (hp : p1.extractLsb' 0 2 = 0b01#2) : p1 = encodeP1 (elemSizeOf (p1.extractLsb' 7 1)) := by
  revert p1; decide

/-- P2 is determined by its fields. -/
theorem p2_of_fields (p2 : Byte) (hb : p2.extractLsb' 4 1 = 0#1) (hv : p2.extractLsb' 3 1 = 1#1) :
    p2 = BitVec.ofBool (p2.extractLsb' 7 1 == 1#1) ++ p2.extractLsb' 5 2 ++ 0b01#2 ++ p2.extractLsb' 0 3 := by
  revert p2; decide

/-! ## ModRM, SIB and register numbers (R66, R68, R73) -/

theorem encodeModrm_fields (mod : BitVec 2) (reg rm : BitVec 3) :
    (encodeModrm mod reg rm).extractLsb' 6 2 = mod ∧ (encodeModrm mod reg rm).extractLsb' 3 3 = reg ∧
      (encodeModrm mod reg rm).extractLsb' 0 3 = rm := by
  revert mod reg rm; decide

theorem modrm_of_fields (b : Byte) : b = encodeModrm (b.extractLsb' 6 2) (b.extractLsb' 3 3) (b.extractLsb' 0 3) := by
  revert b; decide

theorem encodeSib_fields (scale : BitVec 2) (index : GReg) (base : BitVec 3) :
    (encodeSib scale index base).extractLsb' 6 2 = scale ∧
      index.extractLsb' 3 1 ++ (encodeSib scale index base).extractLsb' 3 3 = index ∧
      (encodeSib scale index base).extractLsb' 0 3 = base := by
  revert scale index base; decide

theorem sib_of_fields (nX : BitVec 1) (b : Byte) :
    b = encodeSib (b.extractLsb' 6 2) (nX ++ b.extractLsb' 3 3) (b.extractLsb' 0 3) := by
  revert nX b; decide

theorem greg_split (r : GReg) : r.extractLsb' 3 1 ++ r.extractLsb' 0 3 = r := by revert r; decide

theorem greg_join (n : BitVec 1) (l : BitVec 3) :
    (n ++ l : GReg).extractLsb' 3 1 = n ∧ (n ++ l : GReg).extractLsb' 0 3 = l ∧ (n ++ l : GReg).setWidth 3 = l := by
  revert n l; decide

theorem greg_low (r : GReg) : r.setWidth 3 = r.extractLsb' 0 3 := by revert r; decide

theorem vreg_split (r : VReg) :
    r.extractLsb' 4 1 ++ r.extractLsb' 3 1 ++ r.extractLsb' 0 3 = r := by revert r; decide

theorem vreg_join (a b : BitVec 1) (l : BitVec 3) :
    (a ++ b ++ l : VReg).extractLsb' 4 1 = a ∧ (a ++ b ++ l : VReg).extractLsb' 3 1 = b ∧
      (a ++ b ++ l : VReg).extractLsb' 0 3 = l := by
  revert a b l; decide

/-! ## Displacements and memory operands (R71 to R75) -/

/-- A disp32 is read back. -/
theorem takeDisp32_bytes (d : BitVec 32) (rest : List Byte) : takeDisp32 ((Disp.disp32 d).bytes ++ rest) = some d := by
  simp only [Disp.bytes, List.cons_append, List.nil_append, takeDisp32, Option.some.injEq]
  refine BitVec.eq_of_getLsbD_eq fun i hi => ?_
  simp only [BitVec.getLsbD_append, BitVec.getLsbD_extractLsb']
  by_cases h1 : i < 8
  · simp [h1]
  · by_cases h2 : i < 16
    · simp [h1, show i - 8 < 8 by omega, show 8 + (i - 8) = i by omega]
    · by_cases h3 : i < 24
      · simp [h1, show ¬ i - 8 < 8 by omega, show i - 8 - 8 < 8 by omega, show 16 + (i - 8 - 8) = i by omega]
      · simp [h1, show ¬ i - 8 < 8 by omega, show ¬ i - 8 - 8 < 8 by omega, show i - 8 - 8 - 8 < 8 by omega,
          show 24 + (i - 8 - 8 - 8) = i by omega]

/-- A displacement is read back under its own `mod`. -/
theorem takeDisp_bytes (d : Disp) (rest : List Byte) : takeDisp d.mod (d.bytes ++ rest) = some d := by
  cases d with
  | none => rfl
  | disp8 d => rfl
  | disp32 d => simp [takeDisp, Disp.mod, takeDisp32_bytes]

/-- The bytes of a disp32 that was read. -/
theorem takeDisp32_some {bs : List Byte} {d : BitVec 32} (h : takeDisp32 bs = some d) :
    ∃ rest, bs = (Disp.disp32 d).bytes ++ rest := by
  match bs, h with
  | d0 :: d1 :: d2 :: d3 :: rest, h =>
    simp only [takeDisp32, Option.some.injEq] at h
    subst h
    refine ⟨rest, ?_⟩
    have e : ∀ a b c d : Byte, (d ++ c ++ b ++ a : BitVec 32).extractLsb' 0 8 = a ∧
        (d ++ c ++ b ++ a : BitVec 32).extractLsb' 8 8 = b ∧ (d ++ c ++ b ++ a : BitVec 32).extractLsb' 16 8 = c ∧
        (d ++ c ++ b ++ a : BitVec 32).extractLsb' 24 8 = d := by
      intro a b c d
      refine ⟨?_, ?_, ?_, ?_⟩ <;> refine BitVec.eq_of_getLsbD_eq fun i hi => ?_ <;>
        simp only [BitVec.getLsbD_append, BitVec.getLsbD_extractLsb', hi, decide_true, Bool.true_and]
      · simp [hi]
      · simp [show ¬ 8 + i < 8 by omega, show 8 + i - 8 = i by omega, hi]
      · simp [show ¬ 16 + i < 8 by omega, show 16 + i - 8 = 8 + i by omega, show ¬ 8 + i < 8 by omega, hi]
      · simp [show ¬ 24 + i < 8 by omega, show 24 + i - 8 = 16 + i by omega, show ¬ 16 + i < 8 by omega,
          show 16 + i - 8 = 8 + i by omega]
    obtain ⟨e0, e1, e2, e3⟩ := e d0 d1 d2 d3
    simp [Disp.bytes, e0, e1, e2, e3]

/-- The bytes and `mod` of a displacement that was read. -/
theorem takeDisp_some {mod : BitVec 2} {bs : List Byte} {d : Disp} (hm : mod ≠ 0b11#2) (h : takeDisp mod bs = some d) :
    d.mod = mod ∧ ∃ rest, bs = d.bytes ++ rest := by
  have hc : ∀ mod : BitVec 2, mod ≠ 0b11#2 → mod = 0b00#2 ∨ mod = 0b01#2 ∨ mod = 0b10#2 := by decide
  rcases hc mod hm with rfl | rfl | rfl
  · simp [takeDisp] at h; subst h; exact ⟨rfl, bs, rfl⟩
  · cases bs with
    | nil => simp [takeDisp] at h
    | cons b bs => simp [takeDisp] at h; subst h; exact ⟨rfl, bs, rfl⟩
  · have e : takeDisp 0b10#2 bs = (takeDisp32 bs).map .disp32 := by simp [takeDisp]
    rw [e, Option.map_eq_some_iff] at h
    obtain ⟨d', h, rfl⟩ := h
    exact ⟨rfl, takeDisp32_some h⟩

theorem Disp.mod_ne_reg (d : Disp) : d.mod ≠ 0b11#2 := by cases d <;> simp [Disp.mod]

theorem MemOperand.mod_ne_reg (m : MemOperand) : m.mod ≠ 0b11#2 := by
  cases m <;> simp [MemOperand.mod, Disp.mod_ne_reg]

theorem Disp.mod_zero {d : Disp} (h : d.mod = 0b00#2) : d.present = false := by cases d <;> simp_all [Disp.mod, Disp.present]

theorem Disp.present_of_mod {d : Disp} (h : d.mod ≠ 0b00#2) : d.present = true := by
  cases d <;> simp_all [Disp.mod, Disp.present]

/-- A well-formed memory operand is read back from its encoding. -/
theorem takeMem_bytes {m : MemOperand} (h : m.wf = true) (rest : List Byte) :
    takeMem m.mod m.rm m.nX m.nB (m.bytes ++ rest) = some m := by
  cases m with
  | base b d x =>
    simp only [MemOperand.wf, greg_low, Bool.and_eq_true, Bool.or_eq_true, bne_iff_ne, ne_eq] at h
    have h5 : ¬(d.mod = 0b00#2 ∧ b.extractLsb' 0 3 = 0b101#3) := by
      rintro ⟨h1, h2⟩
      rcases h.2 with h' | h'
      · exact h' h2
      · rw [Disp.mod_zero h1] at h'; cases h'
    simp only [takeMem, MemOperand.mod, MemOperand.rm, MemOperand.nX, MemOperand.nB, MemOperand.bytes, h.1, if_false, h5,
      takeDisp_bytes, Option.map_some, greg_split]
  | rip d x b => simp [takeMem, MemOperand.mod, MemOperand.rm, MemOperand.nX, MemOperand.nB, MemOperand.bytes, takeDisp32_bytes]
  | sib b i s d =>
    simp only [MemOperand.wf, greg_low, Bool.or_eq_true, bne_iff_ne, ne_eq] at h
    obtain ⟨e1, e2, e3⟩ := encodeSib_fields s i (b.extractLsb' 0 3)
    have h5 : ¬(d.mod = 0b00#2 ∧ b.extractLsb' 0 3 = 0b101#3) := by
      rintro ⟨h1, h2⟩
      rcases h with h' | h'
      · exact h' h2
      · rw [Disp.mod_zero h1] at h'; cases h'
    simp only [takeMem, MemOperand.mod, MemOperand.rm, MemOperand.nX, MemOperand.nB, MemOperand.bytes, if_true,
      List.cons_append, e1, e2, e3, h5, if_false, takeDisp_bytes, Option.map_some, greg_split]
  | sibNoBase i s d b =>
    obtain ⟨e1, e2, e3⟩ := encodeSib_fields s i 0b101#3
    simp only [takeMem, MemOperand.mod, MemOperand.rm, MemOperand.nX, MemOperand.nB, MemOperand.bytes, if_true,
      List.cons_append, e1, e2, e3, and_self, takeDisp32_bytes, Option.map_some]

/-- A memory operand that was read is well formed, and its encoding is what was read. -/
theorem takeMem_some {mod : BitVec 2} {rm : BitVec 3} {nX nB : BitVec 1} {bs : List Byte} {m : MemOperand}
    (hmod : mod ≠ 0b11#2) (h : takeMem mod rm nX nB bs = some m) :
    m.wf = true ∧ m.mod = mod ∧ m.rm = rm ∧ m.nX = nX ∧ m.nB = nB ∧ ∃ rest, bs = m.bytes ++ rest := by
  unfold takeMem at h
  split at h
  · rename_i hrm; subst hrm
    cases bs with
    | nil => simp at h
    | cons sib bs =>
      dsimp only at h
      have hs := sib_of_fields nX sib
      obtain ⟨j1, j2, j3⟩ := greg_join nB (sib.extractLsb' 0 3)
      obtain ⟨i1, i2, i3⟩ := greg_join nX (sib.extractLsb' 3 3)
      split at h
      · rename_i h0
        rw [Option.map_eq_some_iff] at h
        obtain ⟨d, hd, rfl⟩ := h
        obtain ⟨rest, rfl⟩ := takeDisp32_some hd
        rw [h0.2] at hs
        exact ⟨rfl, h0.1.symm, rfl, i1, rfl, rest, by rw [MemOperand.bytes, List.cons_append, ← hs]⟩
      · rename_i h0
        rw [Option.map_eq_some_iff] at h
        obtain ⟨d, hd, rfl⟩ := h
        obtain ⟨hdm, rest, rfl⟩ := takeDisp_some hmod hd
        refine ⟨?_, hdm, rfl, i1, j1, rest, by rw [MemOperand.bytes, j2, List.cons_append, ← hs]⟩
        simp only [MemOperand.wf, j3, Bool.or_eq_true, bne_iff_ne, ne_eq]
        by_cases h5 : sib.extractLsb' 0 3 = 0b101#3
        · right
          have : mod ≠ 0b00#2 := fun e => h0 ⟨e, h5⟩
          exact Disp.present_of_mod (hdm ▸ this)
        · exact Or.inl h5
  · rename_i hrm
    obtain ⟨j1, j2, j3⟩ := greg_join nB rm
    split at h
    · rename_i h0
      rw [Option.map_eq_some_iff] at h
      obtain ⟨d, hd, rfl⟩ := h
      obtain ⟨rest, rfl⟩ := takeDisp32_some hd
      exact ⟨rfl, h0.1.symm, h0.2.symm, rfl, rfl, rest, rfl⟩
    · rename_i h0
      rw [Option.map_eq_some_iff] at h
      obtain ⟨d, hd, rfl⟩ := h
      obtain ⟨hdm, rest, rfl⟩ := takeDisp_some hmod hd
      refine ⟨?_, hdm, j2, rfl, j1, rest, rfl⟩
      simp only [MemOperand.wf, j3, Bool.and_eq_true, Bool.or_eq_true, bne_iff_ne, ne_eq]
      refine ⟨hrm, ?_⟩
      by_cases h5 : rm = 0b101#3
      · right
        have : mod ≠ 0b00#2 := fun e => h0 ⟨e, h5⟩
        exact Disp.present_of_mod (hdm ▸ this)
      · exact Or.inl h5

/-- What the decoder does with an admitted run of prefixes and an EVEX instruction of the pattern. -/
theorem decode_evex (p : Prefixes) (p0 p1 p2 modrm : Byte) (rest : List Byte)
    (h : inPattern (evexFields p0 p1 p2) 0x63#8 = true) :
    decode (p.bytes ++ 0x62#8 :: p0 :: p1 :: p2 :: 0x63#8 :: modrm :: rest) =
      if modrm.extractLsb' 6 2 = 0b11#2 then decodeReg p.len (some p) (evexFields p0 p1 p2) modrm
      else decodeStore p.len (some p) (evexFields p0 p1 p2) modrm rest := by
  simp [decode, readPrefixes_bytes, decodeEvex, h]

/-- After a prefix of R88 no byte string decodes to an instruction. -/
theorem decodeEvex_ud_ne_instr (k : Nat) (bs : List Byte) (i : Instr) (n : Nat) :
    decodeEvex k none bs ≠ .instr i n := by
  have hs : ∀ f b rest, decodeStore k none f b rest ≠ .instr i n := by
    intro f b rest h
    simp only [decodeStore] at h
    repeat' split at h
    all_goals cases h
  intro h
  unfold decodeEvex at h
  split at h
  · cases h
  · split at h
    · cases h
    · split at h
      · dsimp only at h
        split at h
        · cases h
        · split at h
          · cases h
          · split at h
            · cases h
            · exact hs _ _ _ h
      · cases h

/-- The bytes behind an instruction that was decoded. -/
theorem decodeEvex_instr {k : Nat} {o : Option Prefixes} {bs : List Byte} {i : Instr} {n : Nat}
    (h : decodeEvex k o bs = .instr i n) :
    ∃ (p0 p1 p2 modrm : Byte) (rest : List Byte), bs = 0x62#8 :: p0 :: p1 :: p2 :: 0x63#8 :: modrm :: rest ∧
      inPattern (evexFields p0 p1 p2) 0x63#8 = true ∧
      (if modrm.extractLsb' 6 2 = 0b11#2 then decodeReg k o (evexFields p0 p1 p2) modrm
        else decodeStore k o (evexFields p0 p1 p2) modrm rest) = .instr i n := by
  unfold decodeEvex at h
  split at h
  · cases h
  · split at h
    · cases h
    · rename_i b0 bs hb
      rw [ne_eq, not_not] at hb
      subst hb
      split at h
      · dsimp only at h
        split at h
        · cases h
        · rename_i p0 p1 p2 op rest hp
          rw [Bool.not_eq_true', Bool.not_eq_false] at hp
          have hop : op = 0x63#8 := by
            simp only [inPattern, Bool.and_eq_true, beq_iff_eq] at hp; exact hp.2
          subst hop
          split at h
          · cases h
          · exact ⟨p0, p1, p2, _, _, rfl, hp, h⟩
      · cases h

/-- The decoder gives an instruction only for an admitted run of prefixes and the pattern. -/
theorem decode_instr {bs : List Byte} {i : Instr} {n : Nat} (h : decode bs = .instr i n) :
    ∃ (p : Prefixes) (p0 p1 p2 modrm : Byte) (rest : List Byte),
      bs = p.bytes ++ 0x62#8 :: p0 :: p1 :: p2 :: 0x63#8 :: modrm :: rest ∧
        inPattern (evexFields p0 p1 p2) 0x63#8 = true ∧
        (if modrm.extractLsb' 6 2 = 0b11#2 then decodeReg p.len (some p) (evexFields p0 p1 p2) modrm
          else decodeStore p.len (some p) (evexFields p0 p1 p2) modrm rest) = .instr i n := by
  cases hr : readPrefixes bs with
  | mk ks bs' =>
    rw [decode, hr] at h
    dsimp only at h
    split at h
    · cases h
    · exact absurd h (decodeEvex_ud_ne_instr _ _ _ _)
    · rename_i p hc
      obtain rfl := classifyPrefixes_admitted hc
      rw [readPrefixes_kinds hr]
      rw [Prefixes.kinds_length] at h
      obtain ⟨p0, p1, p2, modrm, rest, rfl, h1, h2⟩ := decodeEvex_instr h
      exact ⟨p, p0, p1, p2, modrm, rest, rfl, h1, h2⟩

end Sys2Proof
end

