-- ==== Sys2Proof/Laws/Memory.lean ====
section
/-! SUPPORT. What memory reads after writes, and that every memory operation keeps the canonical form. -/

namespace Sys2Proof.Machine

/-- A byte reads as what was last written to it. -/
@[simp] theorem readMem_writeMem_same (m : Memory) (a : Nat) (b : Byte) : readMem (writeMem m a b) a = some b := by
  induction m with
  | nil => simp [writeMem, readMem]
  | cons c m ih =>
    obtain ⟨c, x⟩ := c
    by_cases h1 : a < c
    · simp [writeMem, h1, readMem]
    · by_cases h2 : a = c
      · simp [writeMem, h2, readMem]
      · simp [writeMem, h1, h2, readMem, ih]

/-- A write leaves every other byte alone. -/
theorem readMem_writeMem_other (m : Memory) {a c : Nat} (b : Byte) (h : c ≠ a) :
    readMem (writeMem m a b) c = readMem m c := by
  induction m with
  | nil => simp [writeMem, readMem, h]
  | cons d m ih =>
    obtain ⟨d, x⟩ := d
    by_cases h1 : a < d
    · simp [writeMem, h1, readMem, h]
    · by_cases h2 : a = d
      · subst h2; simp [writeMem, readMem, h]
      · by_cases h3 : c = d <;> simp [writeMem, h1, h2, readMem, h3, ih]

/-- Everything `writeBytes` does to a byte. -/
theorem readMem_writeBytes (m : Memory) (la : Nat) (v : Vec) (n a : Nat) :
    readMem (writeBytes m la v n) a =
      if la ≤ a ∧ a < la + n then some (v.extractLsb' (8 * (a - la)) 8) else readMem m a := by
  induction n with
  | zero => simp only [writeBytes]; rw [if_neg (by omega)]
  | succ n ih =>
    by_cases h : a = la + n
    · subst h; simp [writeBytes]
    · rw [writeBytes, readMem_writeMem_other _ _ h, ih]
      by_cases h' : la ≤ a ∧ a < la + n
      · rw [if_pos h', if_pos (by omega)]
      · rw [if_neg h', if_neg (by omega)]

theorem memWf_cons {c : Host.Cell} {m : Memory} :
    memWf (c :: m) = true ↔ c.1 < 2 ^ 64 ∧ (∀ d ∈ m, c.1 < d.1) ∧ memWf m = true := by
  simp [memWf, and_assoc]

/-- Every address `writeMem` lists was listed or is the one written. -/
theorem mem_writeMem {m : Memory} {a : Nat} {b : Byte} {d : Host.Cell} (h : d ∈ writeMem m a b) :
    d.1 = a ∨ d ∈ m := by
  induction m with
  | nil => simp [writeMem] at h; simp [h]
  | cons c m ih =>
    obtain ⟨c, x⟩ := c
    by_cases h1 : a < c
    · simp [writeMem, h1] at h; rcases h with h | h | h <;> simp [h]
    · by_cases h2 : a = c
      · simp [writeMem, h2] at h; rcases h with h | h <;> simp [h, h2]
      · simp [writeMem, h1, h2] at h
        rcases h with h | h
        · simp [h]
        · rcases ih h with h | h <;> simp [h]

/-- A write keeps the canonical form. -/
theorem memWf_writeMem {m : Memory} (h : memWf m = true) {a : Nat} (ha : a < 2 ^ 64) (b : Byte) :
    memWf (writeMem m a b) = true := by
  induction m with
  | nil => simpa [writeMem, memWf] using ha
  | cons c m ih =>
    obtain ⟨c, x⟩ := c
    rw [memWf_cons] at h
    by_cases h1 : a < c
    · simp only [writeMem, h1, if_true]
      refine memWf_cons.2 ⟨ha, ?_, memWf_cons.2 h⟩
      intro d hd
      rcases List.mem_cons.1 hd with rfl | hd
      · exact h1
      · exact Nat.lt_trans h1 (h.2.1 d hd)
    · by_cases h2 : a = c
      · subst h2; simp only [writeMem, Nat.lt_irrefl, if_false, if_true]; exact memWf_cons.2 h
      · simp only [writeMem, h1, h2, if_false]
        refine memWf_cons.2 ⟨h.1, ?_, ih h.2.2⟩
        intro d hd
        rcases mem_writeMem hd with e | hd
        · simp only [e]; omega
        · exact h.2.1 d hd

/-- A multi-byte write that stays below 2^64 keeps the canonical form. -/
theorem memWf_writeBytes {m : Memory} (h : memWf m = true) (la : Nat) (v : Vec) :
    ∀ n, la + n ≤ 2 ^ 64 → memWf (writeBytes m la v n) = true
  | 0, _ => h
  | n + 1, hn => memWf_writeMem (memWf_writeBytes h la v n (by omega)) (by omega) _

/-- Memories in canonical form that read the same are the same. -/
theorem memory_ext {m m' : Memory} (h : memWf m = true) (h' : memWf m' = true)
    (hr : ∀ a, readMem m a = readMem m' a) : m = m' := by
  have none_of_lt : ∀ {m : Memory} {a : Nat}, (∀ d ∈ m, a < d.1) → readMem m a = none := by
    intro m a hm
    induction m with
    | nil => rfl
    | cons c m ih =>
      obtain ⟨c, x⟩ := c
      have := hm (c, x) (by simp)
      rw [readMem, if_neg (by simp at this; omega)]
      exact ih fun d hd => hm d (by simp [hd])
  induction m generalizing m' with
  | nil =>
    cases m' with
    | nil => rfl
    | cons c m' => have := hr c.1; simp [readMem] at this
  | cons c m ih =>
    obtain ⟨c, x⟩ := c
    cases m' with
    | nil => have := hr c; simp [readMem] at this
    | cons d m' =>
      obtain ⟨d, y⟩ := d
      rw [memWf_cons] at h h'
      have hcd : c = d := by
        rcases Nat.lt_trichotomy c d with hlt | heq | hgt
        · have := hr c
          rw [none_of_lt (m := (d, y) :: m')] at this
          · simp [readMem] at this
          · intro e he
            rcases List.mem_cons.1 he with rfl | he
            · exact hlt
            · exact Nat.lt_trans hlt (h'.2.1 e he)
        · exact heq
        · have := hr d
          rw [none_of_lt (m := (c, x) :: m)] at this
          · simp [readMem] at this
          · intro e he
            rcases List.mem_cons.1 he with rfl | he
            · exact hgt
            · exact Nat.lt_trans hgt (h.2.1 e he)
      subst hcd
      have hxy : x = y := by have := hr c; simpa [readMem] using this
      subst hxy
      congr 1
      refine ih h.2.2 h'.2.2 fun a => ?_
      by_cases ha : a = c
      · subst ha; rw [none_of_lt h.2.1, none_of_lt h'.2.1]
      · have := hr a; simpa [readMem, ha] using this

/-- A store's bytes read as written outside the text (the text never moves, R57). -/
theorem byteAt_text {s : State} {a : Nat} (h : inText s.env a = true) :
    byteAt s a = s.env.progBytes[a - s.env.progBase.toNat]? := by simp [byteAt, h]

theorem byteAt_data {s : State} {a : Nat} (h : inText s.env a = false) : byteAt s a = readMem s.mem a := by
  simp [byteAt, h]

/-- The reset state's memory is in canonical form. -/
theorem memWf_reset : memWf State.reset.mem = true := rfl

end Sys2Proof.Machine
end

