-- ==== Sys2Proof/Laws/State.lean ====
section
/-! SUPPORT. One lemma per field per state update, so that no proof unfolds a record update. -/

namespace Sys2Proof.Machine

@[simp] theorem rflagsAfter_eq (f : BitVec 64) : rflagsAfter f = f := rfl
@[simp] theorem mxcsrAfter_eq (f : BitVec 32) : mxcsrAfter f = f := rfl

@[simp] theorem complete_zmm (s : State) (n : Nat) : (complete s n).zmm = s.zmm := rfl
@[simp] theorem complete_kreg (s : State) (n : Nat) : (complete s n).kreg = s.kreg := rfl
@[simp] theorem complete_gpr (s : State) (n : Nat) : (complete s n).gpr = s.gpr := rfl
@[simp] theorem complete_pc (s : State) (n : Nat) : (complete s n).pc = s.pc + BitVec.ofNat 64 n := rfl
@[simp] theorem complete_fsBase (s : State) (n : Nat) : (complete s n).fsBase = s.fsBase := rfl
@[simp] theorem complete_gsBase (s : State) (n : Nat) : (complete s n).gsBase = s.gsBase := rfl
@[simp] theorem complete_rflags (s : State) (n : Nat) : (complete s n).rflags = s.rflags := rfl
@[simp] theorem complete_mxcsr (s : State) (n : Nat) : (complete s n).mxcsr = s.mxcsr := rfl
@[simp] theorem complete_mem (s : State) (n : Nat) : (complete s n).mem = s.mem := rfl
@[simp] theorem complete_env (s : State) (n : Nat) : (complete s n).env = s.env := rfl
@[simp] theorem complete_draws (s : State) (n : Nat) : (complete s n).draws = s.draws := rfl

@[simp] theorem writeZmm_kreg (s : State) (i : VReg) (v : Vec) : (writeZmm s i v).kreg = s.kreg := rfl
@[simp] theorem writeZmm_gpr (s : State) (i : VReg) (v : Vec) : (writeZmm s i v).gpr = s.gpr := rfl
@[simp] theorem writeZmm_pc (s : State) (i : VReg) (v : Vec) : (writeZmm s i v).pc = s.pc := rfl
@[simp] theorem writeZmm_fsBase (s : State) (i : VReg) (v : Vec) : (writeZmm s i v).fsBase = s.fsBase := rfl
@[simp] theorem writeZmm_gsBase (s : State) (i : VReg) (v : Vec) : (writeZmm s i v).gsBase = s.gsBase := rfl
@[simp] theorem writeZmm_rflags (s : State) (i : VReg) (v : Vec) : (writeZmm s i v).rflags = s.rflags := rfl
@[simp] theorem writeZmm_mxcsr (s : State) (i : VReg) (v : Vec) : (writeZmm s i v).mxcsr = s.mxcsr := rfl
@[simp] theorem writeZmm_mem (s : State) (i : VReg) (v : Vec) : (writeZmm s i v).mem = s.mem := rfl
@[simp] theorem writeZmm_env (s : State) (i : VReg) (v : Vec) : (writeZmm s i v).env = s.env := rfl
@[simp] theorem writeZmm_draws (s : State) (i : VReg) (v : Vec) : (writeZmm s i v).draws = s.draws := rfl

@[simp] theorem readZmm_complete (s : State) (n : Nat) (r : VReg) : readZmm (complete s n) r = readZmm s r := rfl
@[simp] theorem readK_complete (s : State) (n : Nat) (r : KReg) : readK (complete s n) r = readK s r := rfl
@[simp] theorem readGpr_complete (s : State) (n : Nat) (r : GReg) : readGpr (complete s n) r = readGpr s r := rfl

/-- A vector register reads as what was last written to it. -/
@[simp] theorem readZmm_writeZmm_same (s : State) (i : VReg) (v : Vec) : readZmm (writeZmm s i v) i = v := by
  simp [readZmm, writeZmm]

/-- A write to one vector register leaves the others alone. -/
theorem readZmm_writeZmm_other (s : State) {i r : VReg} (v : Vec) (h : r ≠ i) :
    readZmm (writeZmm s i v) r = readZmm s r := by
  have h' : i.toNat ≠ r.toNat := fun e => h (BitVec.eq_of_toNat_eq e.symm)
  simp [readZmm, writeZmm, Vector.getElem_set_ne _ _ h']

section commit
variable (s : State) (es : ElemSize) (la : Addr) (n : Nat) (v : Vec)

@[simp] theorem storeCommit_zmm : (storeCommit s es la n v).zmm = s.zmm := rfl
@[simp] theorem storeCommit_kreg : (storeCommit s es la n v).kreg = s.kreg := rfl
@[simp] theorem storeCommit_gpr : (storeCommit s es la n v).gpr = s.gpr := rfl
@[simp] theorem storeCommit_pc : (storeCommit s es la n v).pc = s.pc := rfl
@[simp] theorem storeCommit_fsBase : (storeCommit s es la n v).fsBase = s.fsBase := rfl
@[simp] theorem storeCommit_gsBase : (storeCommit s es la n v).gsBase = s.gsBase := rfl
@[simp] theorem storeCommit_rflags : (storeCommit s es la n v).rflags = s.rflags := rfl
@[simp] theorem storeCommit_mxcsr : (storeCommit s es la n v).mxcsr = s.mxcsr := rfl
@[simp] theorem storeCommit_mem : (storeCommit s es la n v).mem = writeBytes s.mem la.toNat v n := rfl
@[simp] theorem storeCommit_env : (storeCommit s es la n v).env = s.env := rfl
@[simp] theorem storeCommit_draws : (storeCommit s es la n v).draws = s.draws + storeDraws s es la n := rfl

end commit

section launch
variable (s : State) (nbits w : Nat)

@[simp] theorem withFetchWord_zmm : (s.withFetchWord nbits w).zmm = s.zmm := rfl
@[simp] theorem withFetchWord_kreg : (s.withFetchWord nbits w).kreg = s.kreg := rfl
@[simp] theorem withFetchWord_gpr : (s.withFetchWord nbits w).gpr = s.gpr := rfl
@[simp] theorem withFetchWord_pc : (s.withFetchWord nbits w).pc = s.pc := rfl
@[simp] theorem withFetchWord_mem : (s.withFetchWord nbits w).mem = s.mem := rfl
@[simp] theorem withFetchWord_progBase : (s.withFetchWord nbits w).env.progBase = s.pc := rfl
@[simp] theorem withFetchWord_progBytes : (s.withFetchWord nbits w).env.progBytes = tableText nbits w := rfl

end launch

/-- Two states are equal when their fields are. -/
theorem State.ext_fields {s t : State} (h1 : s.zmm = t.zmm) (h2 : s.kreg = t.kreg) (h3 : s.gpr = t.gpr)
    (h4 : s.pc = t.pc) (h5 : s.fsBase = t.fsBase) (h6 : s.gsBase = t.gsBase) (h7 : s.rflags = t.rflags)
    (h8 : s.mxcsr = t.mxcsr) (h9 : s.mem = t.mem) (h10 : s.env = t.env) (h11 : s.draws = t.draws) : s = t := by
  cases s; cases t; simp_all

end Sys2Proof.Machine
end

