-- ==== Sys2Proof/Laws/Templates.lean ====
section
/-! SUPPORT. What the shared operations of a step can do: the enabling checks, the store checks, the two templates
(40_vpcompressb.md R107, R108), `exec` by shape, and the fetch (70_reset_and_hazards.md R169). -/

namespace Sys2Proof.Machine

open Sys2Proof.Safety

@[simp] theorem Stop.out_fault (f : Fault) : (Stop.fault f).out = .fault f := rfl
@[simp] theorem Stop.out_refuse (r : Refusal) : (Stop.refuse r).out = .refused r := rfl

@[simp] theorem mapOut_next (g : State → State) (t : State) : mapOut g (.next t) = .next (g t) := rfl
@[simp] theorem mapOut_stop (g : State → State) (x : Stop) : mapOut g x.out = x.out := by cases x <;> rfl

/-- A stop is no next state. -/
theorem Stop.out_ne_next (x : Stop) (t : State) : x.out ≠ .next t := by cases x <;> simp [Stop.out]

/-- `raise` gives the exception's fault at `pc` (R143). -/
@[simp] theorem raise_ud (s : State) : raise .ud s = .fault (.invalidOpcode s.pc) := rfl
@[simp] theorem raise_nm (s : State) : raise .nm s = .fault (.deviceNotAvailable s.pc) := rfl
@[simp] theorem raise_ss (s : State) : raise .ss s = .fault (.stackSegment s.pc) := rfl
@[simp] theorem raise_gp (s : State) : raise .gp s = .fault (.generalProtection s.pc) := rfl
@[simp] theorem raise_pf (s : State) (c : BitVec 32) (a : Addr) : raise (.pf c a) s = .fault (.pageFault c a s.pc) := rfl
@[simp] theorem raise_ac (s : State) : raise .ac s = .fault (.alignmentCheck s.pc) := rfl

/-! ## The enabling checks -/

theorem featuresPresent_iff (e : Env) (vl : VecLen) : featuresPresent e vl = true ↔ FeaturesPresent e vl := by
  simp [featuresPresent]

/-- R163: the four premises are exactly what the enabling checks ask. -/
theorem enabledStop_none_iff (vl : VecLen) (s : State) : enabledStop vl s = none ↔ Enabled s vl := by
  rw [Enabled, ← featuresPresent_iff]
  by_cases h1 : s.env.mode = .long64
  · cases h2 : s.env.osAvx512Enabled <;> cases h3 : featuresPresent s.env vl <;> cases h4 : s.env.cr0Ts <;>
      simp [enabledStop, h1, h2, h3, h4, Mode64, OsEnabled, TsClear]
  · simp [enabledStop, h1, Mode64]

/-- The three ways the enabling checks stop, in the order of R142. -/
theorem enabledStop_some {vl : VecLen} {s : State} {x : Stop} (h : enabledStop vl s = some x) :
    (s.env.mode ≠ .long64 ∧ x = .refuse .modeNotAdmitted) ∨
      (s.env.mode = .long64 ∧ (s.env.osAvx512Enabled = false ∨ featuresPresent s.env vl = false) ∧ x = raise .ud s) ∨
      (s.env.mode = .long64 ∧ s.env.osAvx512Enabled = true ∧ featuresPresent s.env vl = true ∧ s.env.cr0Ts = true ∧
        x = raise .nm s) := by
  by_cases h1 : s.env.mode = .long64
  · cases h2 : s.env.osAvx512Enabled <;> cases h3 : featuresPresent s.env vl <;> cases h4 : s.env.cr0Ts <;>
      simp [enabledStop, h1, h2, h3, h4] at h ⊢ <;> simp [← h]
  · simp [enabledStop, h1] at h ⊢; simp [← h]

/-! ## Ranges of bytes -/

theorem anyByte_eq_false (a : Addr) (n : Nat) (p : Addr → Bool) :
    anyByte a n p = false ↔ ∀ i < n, p (a + BitVec.ofNat 64 i) = false := by
  simp [anyByte, List.any_eq_false]

theorem anyByte_eq_true (a : Addr) (n : Nat) (p : Addr → Bool) :
    anyByte a n p = true ↔ ∃ i < n, p (a + BitVec.ofNat 64 i) = true := by
  simp [anyByte, List.any_eq_true]

/-- No byte of the range page-faults. -/
theorem pageFaultIn_none (e : Env) (a : Addr) (kind : AccessKind) (n : Nat) :
    pageFaultIn e a kind n = none ↔ ∀ i < n, translate e (a + BitVec.ofNat 64 i) kind = .ok := by
  simp only [pageFaultIn, List.findSome?_eq_none_iff, List.mem_range]
  refine forall_congr' fun i => imp_congr_right fun _ => ?_
  cases h : translate e (a + BitVec.ofNat 64 i) kind <;> simp [pageFaultAt, h]

theorem pageFaultIn_succ (e : Env) (a : Addr) (kind : AccessKind) (n : Nat) :
    pageFaultIn e a kind (n + 1) =
      (pageFaultIn e a kind n).or (pageFaultAt e (a + BitVec.ofNat 64 n) kind) := by
  simp [pageFaultIn, List.range_succ, List.findSome?_append]

/-- The reported byte is the lowest that page-faults (R139). -/
theorem pageFaultIn_some {e : Env} {a : Addr} {kind : AccessKind} {n : Nat} {c : BitVec 32} {b : Addr}
    (h : pageFaultIn e a kind n = some (c, b)) :
    ∃ i < n, b = a + BitVec.ofNat 64 i ∧ translate e b kind = .pageFault c ∧
      ∀ j < i, translate e (a + BitVec.ofNat 64 j) kind = .ok := by
  induction n with
  | zero => simp [pageFaultIn] at h
  | succ n ih =>
    rw [pageFaultIn_succ] at h
    cases hn : pageFaultIn e a kind n with
    | none =>
      refine ⟨n, Nat.lt_succ_self n, ?_⟩
      rw [hn, Option.none_or, pageFaultAt] at h
      cases ht : translate e (a + BitVec.ofNat 64 n) kind with
      | ok => simp [ht] at h
      | pageFault c' =>
        simp only [ht, Option.some.injEq, Prod.mk.injEq] at h
        obtain ⟨rfl, rfl⟩ := h
        exact ⟨rfl, ht, (pageFaultIn_none e a kind n).1 hn⟩
    | some cb =>
      rw [hn, Option.some_or, ← hn] at h
      obtain ⟨i, hi, r⟩ := ih h
      exact ⟨i, by omega, r⟩

/-- A byte of the range that page-faults, none before it, is the one reported. -/
theorem pageFaultIn_eq_some {e : Env} {a : Addr} {kind : AccessKind} {n i : Nat} {c : BitVec 32} (hi : i < n)
    (hf : translate e (a + BitVec.ofNat 64 i) kind = .pageFault c)
    (hb : ∀ j < i, translate e (a + BitVec.ofNat 64 j) kind = .ok) :
    pageFaultIn e a kind n = some (c, a + BitVec.ofNat 64 i) := by
  cases h : pageFaultIn e a kind n with
  | none => rw [(pageFaultIn_none e a kind n).1 h i hi] at hf; cases hf
  | some cb =>
    obtain ⟨c', b⟩ := cb
    obtain ⟨i', _, rfl, hf', hb'⟩ := pageFaultIn_some h
    have : i' = i := by
      rcases Nat.lt_trichotomy i' i with hlt | heq | hgt
      · rw [hb i' hlt] at hf'; cases hf'
      · exact heq
      · rw [hb' i hgt] at hf; cases hf
    subst this
    rw [hf] at hf'; cases hf'; rfl

/-- The overlap test of R57 is that some byte of the range is a byte of the text. -/
theorem overlapsText_eq_false (e : Env) (la n : Nat) :
    overlapsText e la n = false ↔ ∀ i < n, inText e (la + i) = false := by
  constructor
  · intro h i hi
    by_contra hc
    rw [Bool.not_eq_false] at hc
    simp only [inText, Bool.and_eq_true, decide_eq_true_eq] at hc
    rw [show overlapsText e la n = true by
      simp only [overlapsText, Bool.and_eq_true, decide_eq_true_eq]; omega] at h
    cases h
  · intro h
    by_contra hc
    rw [Bool.not_eq_false] at hc
    simp only [overlapsText, Bool.and_eq_true, decide_eq_true_eq] at hc
    have h' := h (e.progBase.toNat - la) (by omega)
    rw [show inText e (la + (e.progBase.toNat - la)) = true by
      simp only [inText, Bool.and_eq_true, decide_eq_true_eq]; omega] at h'
    cases h'

/-! ## The store checks (R107 step 3) -/

/-- What a store that passes its checks has been checked for. -/
theorem storeStop_none_iff {s : State} {es : ElemSize} {seg : Segment} {la : Addr} {n : Nat} :
    storeStop s es seg la n = none ↔
      Storable s la n ∧ ¬(n = 0 ∧ canonical s.env la = false ∧ zeroLenRaises s = true) ∧
        (acOpen s es la n && Config.acDraw s.draws) = false := by
  have hpf := pageFaultIn_none s.env la .write n
  have hdev := anyByte_eq_false la n (isDevice s.env)
  have hcan := anyByte_eq_false la n (fun a => !canonical s.env a)
  have hov := overlapsText_eq_false s.env la.toNat n
  simp only [Bool.not_eq_false'] at hcan
  simp only [storeStop, Storable]
  split
  · rename_i h; constructor
    · simp
    · rintro ⟨⟨h1, _⟩, _⟩; omega
  rename_i hw
  split
  · rename_i h
    refine ⟨by simp, fun ⟨⟨_, h2⟩, _⟩ => ?_⟩
    rw [hov.2 fun i hi => (h2 i hi).1] at h; cases h
  rename_i ho
  split
  · rename_i h
    refine ⟨by simp, fun ⟨⟨_, h2⟩, _⟩ => ?_⟩
    rw [hcan.2 fun i hi => (h2 i hi).2.1] at h; cases h
  rename_i hc
  split
  · rename_i h
    exact ⟨by simp, fun ⟨_, h2, _⟩ => absurd h h2⟩
  rename_i hz
  split
  · rename_i h
    refine ⟨by simp, fun ⟨_, _, h3⟩ => ?_⟩
    rw [h3] at h; cases h
  rename_i ha
  rw [Bool.not_eq_true] at ho hc ha
  cases hp : pageFaultIn s.env la .write n with
  | some cb =>
    refine ⟨by simp, fun ⟨⟨_, h2⟩, _⟩ => ?_⟩
    rw [hpf.2 fun i hi => (h2 i hi).2.2.1] at hp; cases hp
  | none =>
    dsimp only
    split
    · rename_i h
      refine ⟨by simp, fun ⟨⟨_, h2⟩, _⟩ => ?_⟩
      rw [hdev.2 fun i hi => (h2 i hi).2.2.2] at h; cases h
    · rename_i h
      rw [Bool.not_eq_true] at h
      refine ⟨fun _ => ⟨⟨?_, fun i hi => ⟨hov.1 ho i hi, hcan.1 hc i hi, hpf.1 hp i hi, hdev.1 h i hi⟩⟩, hz, ha⟩,
        fun _ => rfl⟩
      have := la.isLt; omega

/-- Everything that can stop a store (R107 step 3): the two refusals checked first, the fault of a non-canonical address, and,
for a canonical range, #AC by the open choice, #PF for the lowest byte of the range that `Translate` denies, or the device
refusal. -/
theorem storeStop_some {s : State} {es : ElemSize} {seg : Segment} {la : Addr} {n : Nat} {x : Stop}
    (h : storeStop s es seg la n = some x) :
    x = .refuse .storeWraps ∨ x = .refuse .storeOverlapsText ∨
      (((∃ j < n, canonical s.env (la + BitVec.ofNat 64 j) = false) ∨
          (n = 0 ∧ canonical s.env la = false ∧ zeroLenRaises s = true)) ∧ x = addressStop seg s) ∨
      ((∀ j < n, canonical s.env (la + BitVec.ofNat 64 j) = true) ∧
        ((acOpen s es la n = true ∧ x = raise .ac s) ∨
          (∃ c, ∃ j < n, translate s.env (la + BitVec.ofNat 64 j) .write = .pageFault c ∧
            (∀ l < j, translate s.env (la + BitVec.ofNat 64 l) .write = .ok) ∧
            x = raise (.pf c (la + BitVec.ofNat 64 j)) s) ∨
          x = .refuse .storeToDevice)) := by
  have hcan := anyByte_eq_false la n (fun a => !canonical s.env a)
  have hcan' := anyByte_eq_true la n (fun a => !canonical s.env a)
  simp only [Bool.not_eq_false', Bool.not_eq_true'] at hcan hcan'
  simp only [storeStop] at h
  split at h
  · cases h; simp
  split at h
  · cases h; simp
  split at h
  · rename_i hc; cases h; exact .inr (.inr (.inl ⟨.inl (hcan'.1 hc), rfl⟩))
  rename_i hc
  rw [Bool.not_eq_true] at hc
  split at h
  · rename_i hz; cases h; exact .inr (.inr (.inl ⟨.inr hz, rfl⟩))
  refine .inr (.inr (.inr ⟨hcan.1 hc, ?_⟩))
  split at h
  · rename_i ha; cases h; rw [Bool.and_eq_true] at ha; exact .inl ⟨ha.1, rfl⟩
  split at h
  · rename_i c a hpf
    cases h
    obtain ⟨i, hi, rfl, ht, hl⟩ := pageFaultIn_some hpf
    exact .inr (.inl ⟨c, i, hi, ht, hl, rfl⟩)
  · split at h
    · cases h; simp
    · cases h

/-- R52: when a zero-length store at a non-canonical address raises. -/
theorem zeroLenRaises_iff (s : State) :
    zeroLenRaises s = true ↔
      s.env.zeroLenCheck = .raises ∨ (s.env.zeroLenCheck = .either ∧ Config.zeroLenDraw s.draws = true) := by
  unfold zeroLenRaises; split <;> simp_all

/-! ## The templates and `exec` -/

/-- Everything `Store` at an address can do (R107): stop in the enabling checks, stop in the store checks, or commit. -/
theorem storeAt_cases (es : ElemSize) (vl : VecLen) (seg : Segment) (la : Addr) (c : Nat × Vec) (s : State) :
    (∃ x, enabledStop vl s = some x ∧ storeAt es vl seg la c s = x.out) ∨
      (∃ x, enabledStop vl s = none ∧ storeStop s es seg la (c.1 * esize es) = some x ∧
        storeAt es vl seg la c s = x.out) ∨
      (enabledStop vl s = none ∧ storeStop s es seg la (c.1 * esize es) = none ∧
        storeAt es vl seg la c s = .next (storeCommit s es la (c.1 * esize es) c.2)) := by
  cases h1 : enabledStop vl s with
  | some x => exact .inl ⟨x, rfl, by simp only [storeAt, h1]⟩
  | none =>
    cases h2 : storeStop s es seg la (c.1 * esize es) with
    | some x => exact .inr (.inl ⟨x, rfl, rfl, by simp only [storeAt, h1, h2]⟩)
    | none => exact .inr (.inr ⟨rfl, rfl, by simp only [storeAt, h1, h2]⟩)

/-- `Store` at an address answers a next state only as R107 says. -/
theorem storeAt_next {es : ElemSize} {vl : VecLen} {seg : Segment} {la : Addr} {c : Nat × Vec} {s t : State}
    (h : storeAt es vl seg la c s = .next t) :
    enabledStop vl s = none ∧ storeStop s es seg la (c.1 * esize es) = none ∧
      t = storeCommit s es la (c.1 * esize es) c.2 := by
  rcases storeAt_cases es vl seg la c s with ⟨x, _, e⟩ | ⟨x, _, _, e⟩ | ⟨h1, h2, e⟩ <;> rw [e] at h
  · exact absurd h (Stop.out_ne_next _ _)
  · exact absurd h (Stop.out_ne_next _ _)
  · cases h; exact ⟨h1, h2, rfl⟩

/-- Everything a store form can do (R107), in the terms of its operands. -/
theorem storeForm_cases (es : ElemSize) (vl : VecLen) (p : Prefixes) (k : KReg) (src : VReg) (m : MemOperand) (s : State) :
    (∃ x, enabledStop vl s = some x ∧ storeForm es vl p k src m s = x.out) ∨
      (∃ x, enabledStop vl s = none ∧
        storeStop s es (segmentOf p m) (storeAddr s es p m) (storeCount s es vl k src) = some x ∧
        storeForm es vl p k src m s = x.out) ∨
      (enabledStop vl s = none ∧
        storeStop s es (segmentOf p m) (storeAddr s es p m) (storeCount s es vl k src) = none ∧
        storeForm es vl p k src m s =
          .next (complete (storeCommit s es (storeAddr s es p m) (storeCount s es vl k src) (compressSource s es vl k src).2)
            (storeLen p m))) := by
  simp only [storeForm]
  rcases storeAt_cases es vl (segmentOf p m) (storeAddr s es p m) (compressSource s es vl k src) s with
    ⟨x, h1, e⟩ | ⟨x, h1, h2, e⟩ | ⟨h1, h2, e⟩ <;> rw [e]
  · exact .inl ⟨x, h1, mapOut_stop _ x⟩
  · exact .inr (.inl ⟨x, h1, h2, mapOut_stop _ x⟩)
  · exact .inr (.inr ⟨h1, h2, rfl⟩)

/-- A store form answers a next state only as R107 says. -/
theorem storeForm_next {es : ElemSize} {vl : VecLen} {p : Prefixes} {k : KReg} {src : VReg} {m : MemOperand} {s t : State}
    (h : storeForm es vl p k src m s = .next t) :
    enabledStop vl s = none ∧
      storeStop s es (segmentOf p m) (storeAddr s es p m) (storeCount s es vl k src) = none ∧
      t = complete (storeCommit s es (storeAddr s es p m) (storeCount s es vl k src) (compressSource s es vl k src).2)
        (storeLen p m) := by
  rcases storeForm_cases es vl p k src m s with ⟨x, _, e⟩ | ⟨x, _, _, e⟩ | ⟨h1, h2, e⟩ <;> rw [e] at h
  · exact absurd h (Stop.out_ne_next _ _)
  · exact absurd h (Stop.out_ne_next _ _)
  · cases h; exact ⟨h1, h2, rfl⟩

/-- A store form whose checks pass answers the state of R107. -/
theorem storeForm_of_checks {es : ElemSize} {vl : VecLen} {p : Prefixes} {k : KReg} {src : VReg} {m : MemOperand}
    {s : State} (h1 : enabledStop vl s = none)
    (h2 : storeStop s es (segmentOf p m) (storeAddr s es p m) (storeCount s es vl k src) = none) :
    storeForm es vl p k src m s =
      .next (complete (storeCommit s es (storeAddr s es p m) (storeCount s es vl k src) (compressSource s es vl k src).2)
        (storeLen p m)) := by
  rcases storeForm_cases es vl p k src m s with ⟨x, h, _⟩ | ⟨x, _, h, _⟩ | ⟨_, _, e⟩
  · rw [h1] at h; cases h
  · rw [h2] at h; cases h
  · exact e

/-- A store form whose checks stop stops so. -/
theorem storeForm_of_stop {es : ElemSize} {vl : VecLen} {p : Prefixes} {k : KReg} {src : VReg} {m : MemOperand}
    {s : State} {x : Stop} (h1 : enabledStop vl s = none)
    (h2 : storeStop s es (segmentOf p m) (storeAddr s es p m) (storeCount s es vl k src) = some x) :
    storeForm es vl p k src m s = x.out := by
  rcases storeForm_cases es vl p k src m s with ⟨_, h, _⟩ | ⟨_, _, h, e⟩ | ⟨_, h, _⟩
  · rw [h1] at h; cases h
  · rw [h2] at h; cases h; exact e
  · rw [h2] at h; cases h

/-- A store form that is not enabled stops in the enabling checks. -/
theorem storeForm_of_disabled {es : ElemSize} {vl : VecLen} {p : Prefixes} {k : KReg} {src : VReg} {m : MemOperand}
    {s : State} {x : Stop} (h1 : enabledStop vl s = some x) : storeForm es vl p k src m s = x.out := by
  rcases storeForm_cases es vl p k src m s with ⟨_, h, e⟩ | ⟨_, h, _⟩ | ⟨h, _⟩ <;> rw [h1] at h <;> cases h
  exact e

/-- A reg-reg form answers a next state only as R108 says. -/
theorem regForm_next {es : ElemSize} {vl : VecLen} {p : Prefixes} {z : Bool} {k : KReg} {dst src : VReg} {s t : State}
    (h : regForm es vl p z k dst src s = .next t) :
    enabledStop vl s = none ∧
      t = complete (writeZmm s dst (regResult es vl z (writemask s k (klOf es vl)) (readZmm s dst) (sourceValue s src vl)))
        (regLen p) := by
  rw [regForm] at h
  split at h
  · exact absurd h (Stop.out_ne_next _ _)
  · rename_i h1; cases h; exact ⟨h1, rfl⟩

/-- An enabled reg-reg form answers the state of R108. -/
theorem regForm_of_enabled {es : ElemSize} {vl : VecLen} {p : Prefixes} {z : Bool} {k : KReg} {dst src : VReg}
    {s : State} (h : enabledStop vl s = none) :
    regForm es vl p z k dst src s =
      .next (complete (writeZmm s dst (regResult es vl z (writemask s k (klOf es vl)) (readZmm s dst)
        (sourceValue s src vl))) (regLen p)) := by
  simp only [regForm, h]

/-- A store form faults in the enabling checks or in the store checks. -/
theorem storeForm_fault {es : ElemSize} {vl : VecLen} {p : Prefixes} {k : KReg} {src : VReg} {m : MemOperand} {s : State}
    {f : Fault} (h : storeForm es vl p k src m s = .fault f) :
    enabledStop vl s = some (.fault f) ∨
      (enabledStop vl s = none ∧
        storeStop s es (segmentOf p m) (storeAddr s es p m) (storeCount s es vl k src) = some (.fault f)) := by
  rcases storeForm_cases es vl p k src m s with ⟨x, h1, e⟩ | ⟨x, h1, h2, e⟩ | ⟨_, _, e⟩ <;> rw [e] at h
  · cases x <;> cases h; exact .inl h1
  · cases x <;> cases h; exact .inr ⟨h1, h2⟩
  · cases h

/-- A reg-reg form faults in the enabling checks alone. -/
theorem regForm_fault {es : ElemSize} {vl : VecLen} {p : Prefixes} {z : Bool} {k : KReg} {dst src : VReg} {s : State}
    {f : Fault} (h : regForm es vl p z k dst src s = .fault f) : enabledStop vl s = some (.fault f) := by
  rw [regForm] at h
  split at h
  · rename_i x hx; cases x <;> cases h; exact hx
  · cases h

/-- The store checks read the environment, `pc` and the counter of open choices alone. -/
theorem storeStop_congr {s s' : State} (henv : s'.env = s.env) (hpc : s'.pc = s.pc) (hd : s'.draws = s.draws)
    (es : ElemSize) (seg : Segment) (la : Addr) (n : Nat) : storeStop s' es seg la n = storeStop s es seg la n := by
  simp only [storeStop, henv, raise, hpc, addressStop, zeroLenRaises, hd, acOpen]; rfl

/-- A store form run in a state that differs only in what it does not read. -/
theorem storeForm_map {es : ElemSize} {vl : VecLen} {p : Prefixes} {k : KReg} {src : VReg} {m : MemOperand} {s s' : State}
    (g : State → State) (henv : s'.env = s.env) (hpc : s'.pc = s.pc) (hd : s'.draws = s.draws)
    (ha : storeAddr s' es p m = storeAddr s es p m) (hc : compressSource s' es vl k src = compressSource s es vl k src)
    (hg : ∀ n la v l, complete (storeCommit s' es la n v) l = g (complete (storeCommit s es la n v) l)) :
    storeForm es vl p k src m s' = mapOut g (storeForm es vl p k src m s) := by
  have e1 : enabledStop vl s' = enabledStop vl s := by simp only [enabledStop, henv, raise, hpc]
  have e2 : storeCount s' es vl k src = storeCount s es vl k src := by simp only [storeCount, hc]
  rcases storeForm_cases es vl p k src m s with ⟨x, h1, e⟩ | ⟨x, h1, h2, e⟩ | ⟨h1, h2, e⟩ <;> rw [e]
  · rw [storeForm_of_disabled (by rw [e1, h1]), mapOut_stop]
  · rw [storeForm_of_stop (by rw [e1, h1]) (by rw [storeStop_congr henv hpc hd, ha, e2, h2]), mapOut_stop]
  · rw [storeForm_of_checks (by rw [e1, h1]) (by rw [storeStop_congr henv hpc hd, ha, e2, h2]), ha, e2, hc, hg, mapOut_next]

/-- A reg-reg form run in a state that differs only in what it does not read. -/
theorem regForm_map {es : ElemSize} {vl : VecLen} {p : Prefixes} {z : Bool} {k : KReg} {dst src : VReg} {s s' : State}
    (g : State → State) (henv : s'.env = s.env) (hpc : s'.pc = s.pc)
    (hg : complete (writeZmm s' dst (regResult es vl z (writemask s' k (klOf es vl)) (readZmm s' dst)
          (sourceValue s' src vl))) (regLen p) =
      g (complete (writeZmm s dst (regResult es vl z (writemask s k (klOf es vl)) (readZmm s dst)
          (sourceValue s src vl))) (regLen p))) :
    regForm es vl p z k dst src s' = mapOut g (regForm es vl p z k dst src s) := by
  have e1 : enabledStop vl s' = enabledStop vl s := by simp only [enabledStop, henv, raise, hpc]
  simp only [regForm, e1]
  split
  · rw [mapOut_stop]
  · simp only [mapOut, hg]

/-- The six store instructions run the store template. -/
theorem exec_store {i : Instr} {es : ElemSize} {vl : VecLen} {p : Prefixes} {k : KReg} {src : VReg} {m : MemOperand}
    (h : i.shape = .store es vl p k src m) (s : State) : exec i s = storeForm es vl p k src m s := by
  cases i <;> simp only [Instr.shape, Shape.store.injEq, reduceCtorEq] at h <;> obtain ⟨rfl, rfl, rfl, rfl, rfl, rfl⟩ := h <;> rfl

/-- The six reg-reg instructions run the reg-reg template. -/
theorem exec_reg {i : Instr} {es : ElemSize} {vl : VecLen} {p : Prefixes} {z : Bool} {k : KReg} {dst src : VReg}
    (h : i.shape = .reg es vl p z k dst src) (s : State) : exec i s = regForm es vl p z k dst src s := by
  cases i <;> simp only [Instr.shape, Shape.reg.injEq, reduceCtorEq] at h <;>
    obtain ⟨rfl, rfl, rfl, rfl, rfl, rfl, rfl⟩ := h <;> rfl

@[simp] theorem Shape.shape_instr (x : Shape) : x.instr.shape = x := by
  cases x with
  | store es vl => cases es <;> cases vl <;> rfl
  | reg es vl => cases es <;> cases vl <;> rfl

@[simp] theorem Instr.instr_shape (i : Instr) : i.shape.instr = i := by cases i <;> rfl

/-! ## The fetch and the step (R169) -/

/-- A fetch gives an instruction exactly when R169 does. -/
theorem fetchInstr_run_iff {s : State} {i : Instr} :
    fetchInstr s = .run i ↔
      s.env.mode = .long64 ∧ inText s.env s.pc.toNat = true ∧
        ∃ n, decode (s.env.progBytes.drop (s.pc.toNat - s.env.progBase.toNat)) = .instr i n ∧ fetchStop s n = none := by
  by_cases h1 : s.env.mode = .long64
  · cases h3 : inText s.env s.pc.toNat
    · by_cases h2 : s.pc.toNat = s.env.progBase.toNat + s.env.progBytes.length <;>
        simp only [fetchInstr, textAtPc, h3, h1, h2, ne_eq, not_true_eq_false, if_false, if_true, Bool.false_eq_true,
          false_and, and_false, reduceCtorEq]
    · have h2 : s.pc.toNat ≠ s.env.progBase.toNat + s.env.progBytes.length := by
        simp only [inText, Bool.and_eq_true, decide_eq_true_eq] at h3; omega
      simp only [fetchInstr, h1, ne_eq, not_true_eq_false, if_false, h2, textAtPc, h3, if_true, true_and]
      cases h4 : decode (s.env.progBytes.drop (s.pc.toNat - s.env.progBase.toNat)) with
      | refused r => simp
      | ud n => simp
      | instr j n =>
        cases h5 : fetchStop s n with
        | some x => simp [h5]
        | none =>
          simp only [h5, Option.elim_none, Fetched.run.injEq, Decoded.instr.injEq]
          constructor
          · rintro rfl; exact ⟨n, ⟨rfl, rfl⟩, h5⟩
          · rintro ⟨_, ⟨rfl, rfl⟩, _⟩; rfl
  · simp [fetchInstr, h1]

/-- The fetch checks pass exactly for an instruction inside the address space at canonical, fetchable addresses. -/
theorem fetchStop_none_iff {s : State} {n : Nat} :
    fetchStop s n = none ↔ Fetchable s n := by
  have hpf := pageFaultIn_none s.env s.pc .fetch n
  have hcan := anyByte_eq_false s.pc n (fun a => !canonical s.env a)
  simp only [Bool.not_eq_false'] at hcan
  simp only [fetchStop, Fetchable]
  split
  · rename_i h; exact ⟨by simp, fun ⟨h1, _⟩ => by omega⟩
  rename_i hw
  split
  · rename_i h
    refine ⟨by simp, fun ⟨_, h2⟩ => ?_⟩
    rw [hcan.2 fun j hj => (h2 j hj).1] at h; cases h
  rename_i hc
  rw [Bool.not_eq_true] at hc
  cases hp : pageFaultIn s.env s.pc .fetch n with
  | some cb =>
    refine ⟨by simp, fun ⟨_, h2⟩ => ?_⟩
    rw [hpf.2 fun j hj => (h2 j hj).2] at hp; cases hp
  | none => exact ⟨fun _ => ⟨by omega, fun j hj => ⟨hcan.1 hc j hj, hpf.1 hp j hj⟩⟩, fun _ => rfl⟩

/-- Everything a step can do when it answers a next state. -/
theorem step_next {s t : State} (h : step s = .next t) :
    ∃ i n, s.env.mode = .long64 ∧ inText s.env s.pc.toNat = true ∧
      decode (s.env.progBytes.drop (s.pc.toNat - s.env.progBase.toNat)) = .instr i n ∧ fetchStop s n = none ∧
      exec i s = .next t := by
  rw [step] at h
  split at h
  · rename_i i hf
    obtain ⟨h1, h2, n, h3, h4⟩ := fetchInstr_run_iff.1 hf
    exact ⟨i, n, h1, h2, h3, h4, h⟩
  · exact absurd h (Stop.out_ne_next _ _)

/-- A fetched instruction is run. -/
theorem step_of_run {s : State} {i : Instr} (h : fetchInstr s = .run i) : step s = exec i s := by simp only [step, h]

/-- A byte string of the program the decoder finds #UD raises it (R131, R132). -/
theorem step_of_ud {s : State} {n : Nat} (h1 : Mode64 s.env) (h2 : inText s.env s.pc.toNat = true)
    (hd : decode (textFrom s) = .ud n) (hf : Fetchable s n) : step s = .fault (.invalidOpcode s.pc) := by
  have h3 : s.pc.toNat ≠ s.env.progBase.toNat + s.env.progBytes.length := by
    simp only [inText, Bool.and_eq_true, decide_eq_true_eq] at h2; omega
  have hm : s.env.mode = .long64 := h1
  have h4 := (fetchStop_none_iff (s := s) (n := n)).2 hf
  simp only [textFrom] at hd
  simp only [step, fetchInstr, hm, ne_eq, not_true_eq_false, if_false, h3, textAtPc, h2, if_true, hd, h4]; rfl

/-- A byte string of the program the decoder refuses is refused. -/
theorem step_of_undecoded {s : State} {r : DecodeRefusal} (h1 : Mode64 s.env) (h2 : inText s.env s.pc.toNat = true)
    (hd : decode (textFrom s) = .refused r) : step s = .refused (.undecoded r) := by
  have h3 : s.pc.toNat ≠ s.env.progBase.toNat + s.env.progBytes.length := by
    simp only [inText, Bool.and_eq_true, decide_eq_true_eq] at h2; omega
  have hm : s.env.mode = .long64 := h1
  simp only [textFrom] at hd
  simp only [step, fetchInstr, hm, ne_eq, not_true_eq_false, if_false, h3, textAtPc, h2, if_true, hd]; rfl

/-- A decoded byte string, instruction or #UD, whose fetch checks stop is stopped so. -/
theorem step_of_fetchStop {s : State} {n : Nat} {x : Stop} (h1 : Mode64 s.env) (h2 : inText s.env s.pc.toNat = true)
    (hd : decode (textFrom s) = .ud n ∨ ∃ i, decode (textFrom s) = .instr i n) (hx : fetchStop s n = some x) :
    step s = x.out := by
  have h3 : s.pc.toNat ≠ s.env.progBase.toNat + s.env.progBytes.length := by
    simp only [inText, Bool.and_eq_true, decide_eq_true_eq] at h2; omega
  have hm : s.env.mode = .long64 := h1
  simp only [textFrom] at hd
  rcases hd with hd | ⟨i, hd⟩ <;>
    simp only [step, fetchInstr, hm, ne_eq, not_true_eq_false, if_false, h3, textAtPc, h2, if_true, hd, hx] <;> rfl

/-- `k + 1` steps are `k` steps and one more. -/
theorem run_succ (M : Host.Core) (k : Nat) (s : M.State) :
    M.run (k + 1) s =
      match M.run k s with
      | .next t => M.step t
      | .fault r => .fault r
      | .refused r => .refused r := by
  induction k generalizing s with
  | zero => simp only [Host.Core.run]; cases M.step s <;> rfl
  | succ k ih =>
    rw [Host.Core.run]
    conv_rhs => rw [Host.Core.run]
    cases M.step s with
    | next t => exact ih t
    | fault => rfl
    | refused => rfl

end Sys2Proof.Machine
end

