-- ==== Sys2Proof/Laws/Operands.lean ====
section
/-! SUPPORT. What the writemask and source operands feed to `compress`, in the terms of the active elements. -/

namespace Sys2Proof.Machine

open Sys2Proof.Safety

/-- Bit j of the mask that reaches R100's loop (R24, R69). -/
theorem getLsbD_writemask (s : State) (k : KReg) (kl j : Nat) (hk : kl ≤ 64) :
    (writemask s k kl).getLsbD j = (decide (j < kl) && (k == 0#3 || (readK s k).getLsbD j)) := by
  simp only [writemask, BitVec.getLsbD_setWidth]
  by_cases hj : j < kl
  · by_cases h0 : k = 0#3
    · simp only [h0, if_true, BitVec.getLsbD_allOnes, hj, show j < 64 by omega, decide_true, Bool.and_self, beq_self_eq_true,
        Bool.true_or]
    · simp [h0, hj, show j < 64 by omega]
  · simp [hj]

/-- The positions R100's loop selects are the active elements. -/
theorem positions_writemask (s : State) (es : ElemSize) (vl : VecLen) (k : KReg) :
    positions (writemask s k (klOf es vl)) (klOf es vl) = active s es vl k := by
  refine List.filter_congr fun j hj => ?_
  rw [getLsbD_writemask _ _ _ _ (klOf_le es vl)]
  simp [List.mem_range.1 hj]

/-- The source elements are those of the register (R21). -/
theorem elem_sourceValue (s : State) (es : ElemSize) (src : VReg) (vl : VecLen) {j : Nat} (hj : j < klOf es vl) :
    elem es (sourceValue s src vl) j = elem es (readZmm s src) j := by
  refine BitVec.eq_of_getLsbD_eq fun b hb => ?_
  have h := vlBits_le vl
  have h1 : ebits es * j + ebits es ≤ vlBits vl := by
    rw [← klOf_mul_ebits es vl]
    have := Nat.mul_le_mul_right (ebits es) (show j + 1 ≤ _ from hj)
    rw [Nat.add_mul, Nat.mul_comm] at this; omega
  simp only [getLsbD_elem, sourceValue, BitVec.getLsbD_setWidth, show ebits es * j + b < 512 by omega,
    show ebits es * j + b < vlBits vl by omega, decide_true, Bool.true_and]

/-- An active element lies below KL. -/
theorem active_lt {s : State} {es : ElemSize} {vl : VecLen} {k : KReg} {j : Nat} (h : j ∈ active s es vl k) :
    j < klOf es vl := List.mem_range.1 (List.mem_filter.1 h).1

theorem active_length_le (s : State) (es : ElemSize) (vl : VecLen) (k : KReg) :
    (active s es vl k).length ≤ klOf es vl := by
  rw [← positions_writemask]; exact positions_length_le _ _

/-- R44: n is the number of active elements times ESIZE. -/
theorem storeCount_eq (s : State) (es : ElemSize) (vl : VecLen) (k : KReg) (src : VReg) :
    storeCount s es vl k src = (active s es vl k).length * esize es := by
  rw [storeCount, compressSource, compress_count, positions_writemask]

/-- Element i of what a store form packs (R100). -/
theorem elem_compressSource {s : State} {es : ElemSize} {vl : VecLen} {k : KReg} {src : VReg} {i : Nat}
    (h : i < (active s es vl k).length) :
    elem es (compressSource s es vl k src).2 i = elem es (readZmm s src) (active s es vl k)[i] := by
  have hp := positions_writemask s es vl k
  have h' : i < (positions (writemask s k (klOf es vl)) (klOf es vl)).length := by rw [hp]; exact h
  rw [compressSource, compress_elem es vl _ _ h']
  have e : (positions (writemask s k (klOf es vl)) (klOf es vl))[i] = (active s es vl k)[i] := by
    simp only [hp]
  rw [e, elem_sourceValue _ _ _ _ (active_lt (List.getElem_mem h))]

/-- Byte b of element i is byte i * ESIZE + b of the vector (R41). -/
theorem byte_of_elem (es : ElemSize) (v : Vec) (i b : Nat) (hb : b < esize es) :
    v.extractLsb' (8 * (i * esize es + b)) 8 = (elem es v i).extractLsb' (8 * b) 8 := by
  refine BitVec.eq_of_getLsbD_eq fun j hj => ?_
  simp only [BitVec.getLsbD_extractLsb', getLsbD_elem, hj, decide_true, Bool.true_and]
  have h1 : 8 * b + j < ebits es := by rw [ebits]; omega
  have h2 : ebits es * i + (8 * b + j) = 8 * (i * esize es + b) + j := by
    rw [ebits, Nat.mul_right_comm, Nat.mul_comm (esize es) i]; ring
  simp [h1, h2]

/-- A reg-reg form's packed elements (R108). -/
theorem elem_regResult_active {s : State} {es : ElemSize} {vl : VecLen} {z : Bool} {k : KReg} {src : VReg} {old : Vec}
    {i : Nat} (h : i < (active s es vl k).length) :
    elem es (regResult es vl z (writemask s k (klOf es vl)) old (sourceValue s src vl)) i =
      elem es (readZmm s src) (active s es vl k)[i] := by
  have hp := positions_writemask s es vl k
  have h' : i < (positions (writemask s k (klOf es vl)) (klOf es vl)).length := by rw [hp]; exact h
  rw [elem_regResult_packed h']
  have e : (positions (writemask s k (klOf es vl)) (klOf es vl))[i] = (active s es vl k)[i] := by
    simp only [hp]
  rw [e, elem_sourceValue _ _ _ _ (active_lt (List.getElem_mem h))]

/-- A reg-reg form's elements above the packed ones (R108). -/
theorem elem_regResult_inactive {s : State} {es : ElemSize} {vl : VecLen} {z : Bool} {k : KReg} {src : VReg} {old : Vec}
    {i : Nat} (h : (active s es vl k).length ≤ i) (hi : i < klOf es vl) :
    elem es (regResult es vl z (writemask s k (klOf es vl)) old (sourceValue s src vl)) i =
      if z then 0 else elem es old i :=
  elem_regResult_above (by rw [positions_writemask]; exact h) hi

/-- A reg-reg form clears every bit at and above VL (R108, 90_conflicts.md C2). -/
theorem getLsbD_regResult_high {es : ElemSize} {vl : VecLen} {z : Bool} {m : Mask} {old src : Vec} {b : Nat}
    (h : vlBits vl ≤ b) : (regResult es vl z m old src).getLsbD b = false := by
  rw [getLsbD_regResult, if_pos h]

/-- What a byte reads after a store's commit: the stored bytes inside the range, the old byte elsewhere (R44, R45). The
program text is never in the range of a store that completes. -/
theorem byteAt_storeCommit {s : State} {es : ElemSize} {la : Addr} {n : Nat} {v : Vec} {ilen : Nat}
    (hov : ∀ i < n, inText s.env (la.toNat + i) = false) (a : Nat) :
    byteAt (complete (storeCommit s es la n v) ilen) a =
      if la.toNat ≤ a ∧ a < la.toNat + n then some (v.extractLsb' (8 * (a - la.toNat)) 8) else byteAt s a := by
  simp only [byteAt, complete_env, storeCommit_env, complete_mem, storeCommit_mem, readMem_writeBytes]
  by_cases h : la.toNat ≤ a ∧ a < la.toNat + n
  · have := hov (a - la.toNat) (by omega)
    rw [show la.toNat + (a - la.toNat) = a by omega] at this
    simp [h, this]
  · simp [h]

end Sys2Proof.Machine
end

