-- ==== Sys2Proof/Laws/PerInstr.lean ====
section
/-! SUPPORT. Statements made of every instruction as syntax, one lemma per constructor. -/

namespace Sys2Proof.Laws.Length

/-- R90: the length of the encoding is `ilen`: 6 to 11 bytes and at most two prefixes. -/
def Statement (i : Instr) : Prop := (encode i).length = i.len ∧ 6 ≤ i.len ∧ i.len ≤ 13

theorem of_store {i : Instr} {es : ElemSize} {vl : VecLen} {p : Prefixes} {k : KReg} {src : VReg} {m : MemOperand}
    (h : i.shape = .store es vl p k src m) : Statement i := by
  have hp := Prefixes.len_le p
  have hm := MemOperand.len_le m
  rw [Statement, encode_length, Instr.len, h, Shape.len, storeLen]; omega

theorem of_reg {i : Instr} {es : ElemSize} {vl : VecLen} {p : Prefixes} {z : Bool} {k : KReg} {dst src : VReg}
    (h : i.shape = .reg es vl p z k dst src) : Statement i := by
  have hp := Prefixes.len_le p
  rw [Statement, encode_length, Instr.len, h, Shape.len, regLen]; omega

theorem vpcompressbM128 (p : Prefixes) (k : KReg) (src : VReg) (m : MemOperand) :
    Statement (.vpcompressbM128 p k src m) := of_store rfl

theorem vpcompressbXmm (p : Prefixes) (z : Bool) (k : KReg) (dst src : VReg) :
    Statement (.vpcompressbXmm p z k dst src) := of_reg rfl

theorem vpcompressbM256 (p : Prefixes) (k : KReg) (src : VReg) (m : MemOperand) :
    Statement (.vpcompressbM256 p k src m) := of_store rfl

theorem vpcompressbYmm (p : Prefixes) (z : Bool) (k : KReg) (dst src : VReg) :
    Statement (.vpcompressbYmm p z k dst src) := of_reg rfl

theorem vpcompressbM512 (p : Prefixes) (k : KReg) (src : VReg) (m : MemOperand) :
    Statement (.vpcompressbM512 p k src m) := of_store rfl

theorem vpcompressbZmm (p : Prefixes) (z : Bool) (k : KReg) (dst src : VReg) :
    Statement (.vpcompressbZmm p z k dst src) := of_reg rfl

theorem vpcompresswM128 (p : Prefixes) (k : KReg) (src : VReg) (m : MemOperand) :
    Statement (.vpcompresswM128 p k src m) := of_store rfl

theorem vpcompresswXmm (p : Prefixes) (z : Bool) (k : KReg) (dst src : VReg) :
    Statement (.vpcompresswXmm p z k dst src) := of_reg rfl

theorem vpcompresswM256 (p : Prefixes) (k : KReg) (src : VReg) (m : MemOperand) :
    Statement (.vpcompresswM256 p k src m) := of_store rfl

theorem vpcompresswYmm (p : Prefixes) (z : Bool) (k : KReg) (dst src : VReg) :
    Statement (.vpcompresswYmm p z k dst src) := of_reg rfl

theorem vpcompresswM512 (p : Prefixes) (k : KReg) (src : VReg) (m : MemOperand) :
    Statement (.vpcompresswM512 p k src m) := of_store rfl

theorem vpcompresswZmm (p : Prefixes) (z : Bool) (k : KReg) (dst src : VReg) :
    Statement (.vpcompresswZmm p z k dst src) := of_reg rfl

end Sys2Proof.Laws.Length
end

