-- ==== Sys2Proof/Tests/Slice0.lean ====
section
/-! SUPPORT. The model's own tests, from the words and values of spec/95_test_vectors.md and the worked examples of
40_vpcompressb.md and 41_vpcompressw.md, and one witness for each statement that has hypotheses. -/

namespace Sys2Proof.Tests

set_option Elab.async false

open Sys2Proof.Machine Sys2Proof.Safety Sys2Proof.Claims

/-! ## Helpers -/

/-- A launch state: K1, ZMM2 and ZMM1, RAX, and a program at 400000H. -/
def start (k1 : Mask) (zmm2 zmm1 : Vec) (rax : Addr) (prog : List Byte) : State :=
  { State.reset with
    kreg := State.reset.kreg.set 1 k1
    zmm := (State.reset.zmm.set 2 zmm2).set 1 zmm1
    gpr := State.reset.gpr.set 0 rax
    env := { envReset with progBytes := prog } }

/-- The outcome is a next state with a property. -/
def meets (o : Out) (p : State → Bool) : Bool :=
  match o with
  | .next t => p t
  | .fault _ => false
  | .refused _ => false

/-- The outcome is this fault. -/
def faults (o : Out) (f : Fault) : Bool :=
  match o with
  | .next _ => false
  | .fault g => g == f
  | .refused _ => false

/-- The outcome is this refusal. -/
def refuses (o : Out) (r : Refusal) : Bool :=
  match o with
  | .next _ => false
  | .fault _ => false
  | .refused q => q == r

/-- The bytes of memory from `la` on. -/
def bytesAre (t : State) (la : Nat) (bs : List Byte) : Bool :=
  (List.range bs.length).map (fun i => byteAt t (la + i)) == bs.map some

theorem meets_iff {o : Out} {p : State → Bool} : meets o p = true ↔ ∃ t, o = .next t ∧ p t = true := by
  cases o <;> simp [meets]

theorem faults_iff {o : Out} {f : Fault} : faults o f = true ↔ o = .fault f := by
  cases o <;> simp [faults]

theorem runs {o : Out} (h : meets o (fun _ => true) = true) : ∃ t, o = .next t :=
  let ⟨t, ht, _⟩ := meets_iff.1 h; ⟨t, ht⟩

/-! Sources and destinations of the vectors; source bits above VL are 99H bytes. -/

def bytes128 : Vec := 0x9999999999999999999999999999999999999999999999999999999999999999999999999999999999999999999999991F1E1D1C1B1A19181716151413121110#512
def bytes256 : Vec := 0x99999999999999999999999999999999999999999999999999999999999999995F5E5D5C5B5A595857565554535251504F4E4D4C4B4A49484746454443424140#512
def bytes512 : Vec := 0x3F3E3D3C3B3A393837363534333231302F2E2D2C2B2A292827262524232221201F1E1D1C1B1A191817161514131211100F0E0D0C0B0A09080706050403020100#512
def words128 : Vec := 0x999999999999999999999999999999999999999999999999999999999999999999999999999999999999999999999999A007A006A005A004A003A002A001A000#512
def words256 : Vec := 0x9999999999999999999999999999999999999999999999999999999999999999100F100E100D100C100B100A1009100810071006100510041003100210011000#512
def words512 : Vec := 0x201F201E201D201C201B201A2019201820172016201520142013201220112010200F200E200D200C200B200A2009200820072006200520042003200220012000#512
def dest128 : Vec := 0x777777777777777777777777777777777777777777777777777777777777777777777777777777777777777777777777EEEEEEEEEEEEEEEEEEEEEEEEEEEEEEEE#512
def dest256 : Vec := 0x7777777777777777777777777777777777777777777777777777777777777777EEEEEEEEEEEEEEEEEEEEEEEEEEEEEEEEEEEEEEEEEEEEEEEEEEEEEEEEEEEEEEEE#512
def dest512 : Vec := 0xEEEEEEEEEEEEEEEEEEEEEEEEEEEEEEEEEEEEEEEEEEEEEEEEEEEEEEEEEEEEEEEEEEEEEEEEEEEEEEEEEEEEEEEEEEEEEEEEEEEEEEEEEEEEEEEEEEEEEEEEEEEEEEEE#512

/-! ## Well-formedness: one ill-formed term per check -/

/-- R71: base number 4 or 12 without a SIB byte. -/
theorem test_wf_base_needs_sib : (MemOperand.base 12 .none 0).wf = false := by decide
/-- R71: base number 5 or 13 without a displacement. -/
theorem test_wf_base_needs_disp : (MemOperand.base 13 .none 0).wf = false := by decide
/-- R73: SIB base number 5 or 13 without a displacement. -/
theorem test_wf_sib_base_needs_disp : (Instr.vpcompressbM128 .none 1 2 (.sib 5 0 0 .none)).wf = false := by decide
/-- R87: z = 1 without a writemask. -/
theorem test_wf_zeroing_needs_mask : (Instr.vpcompresswZmm .none true 0 1 2).wf = false := by decide

/-! ## Decoding -/

/-- 95_test_vectors.md A1: `62 F2 7D 09 63 D1`. -/
theorem test_decode_A1 : decode [0x62#8, 0xF2#8, 0x7D#8, 0x09#8, 0x63#8, 0xD1#8] = .instr (.vpcompressbXmm .none false 1 1 2) 6 := by decide

/-- 95_test_vectors.md A17: `62 F2 7D 29 63 10`. -/
theorem test_decode_A17 : decode [0x62#8, 0xF2#8, 0x7D#8, 0x29#8, 0x63#8, 0x10#8] = .instr (.vpcompressbM256 .none 1 2 (.base 0 .none 0)) 6 := by decide

/-- 95_test_vectors.md A5: `62 F2 7D A9 63 D1`. -/
theorem test_decode_A5 : decode [0x62#8, 0xF2#8, 0x7D#8, 0xA9#8, 0x63#8, 0xD1#8] = .instr (.vpcompressbYmm .none true 1 1 2) 6 := by decide

/-- 95_test_vectors.md A11: `62 22 7D 48 63 F1`. -/
theorem test_decode_A11 : decode [0x62#8, 0x22#8, 0x7D#8, 0x48#8, 0x63#8, 0xF1#8] = .instr (.vpcompressbZmm .none false 0 17 30) 6 := by decide

/-- 95_test_vectors.md A10: `62 42 FD 8B 63 D1`. -/
theorem test_decode_A10 : decode [0x62#8, 0x42#8, 0xFD#8, 0x8B#8, 0x63#8, 0xD1#8] = .instr (.vpcompresswXmm .none true 3 9 26) 6 := by decide

/-- 95_test_vectors.md A7: `62 F2 FD A9 63 D1`. -/
theorem test_decode_A7 : decode [0x62#8, 0xF2#8, 0xFD#8, 0xA9#8, 0x63#8, 0xD1#8] = .instr (.vpcompresswYmm .none true 1 1 2) 6 := by decide

/-- 95_test_vectors.md A12: `62 92 FD CF 63 C7`. -/
theorem test_decode_A12 : decode [0x62#8, 0x92#8, 0xFD#8, 0xCF#8, 0x63#8, 0xC7#8] = .instr (.vpcompresswZmm .none true 7 31 0) 6 := by decide

/-- 95_test_vectors.md T46: `62 72 7D 0A 63 05 10 00 00 00`. -/
theorem test_decode_T46 : decode [0x62#8, 0x72#8, 0x7D#8, 0x0A#8, 0x63#8, 0x05#8, 0x10#8, 0x00#8, 0x00#8, 0x00#8] = .instr (.vpcompressbM128 .none 2 8 (.rip 0x10 0 0)) 10 := by decide

/-- 95_test_vectors.md T47: `62 02 7D 4F 63 7C AC 08`. -/
theorem test_decode_T47 : decode [0x62#8, 0x02#8, 0x7D#8, 0x4F#8, 0x63#8, 0x7C#8, 0xAC#8, 0x08#8] = .instr (.vpcompressbM512 .none 7 31 (.sib 12 13 2 (.disp8 8))) 8 := by decide

/-- 95_test_vectors.md T48: `62 F2 FD 09 63 1C F5 20 00 00 00`. -/
theorem test_decode_T48 : decode [0x62#8, 0xF2#8, 0xFD#8, 0x09#8, 0x63#8, 0x1C#8, 0xF5#8, 0x20#8, 0x00#8, 0x00#8, 0x00#8] = .instr (.vpcompresswM128 .none 1 3 (.sibNoBase 6 3 0x20 0)) 11 := by decide

/-- 95_test_vectors.md T44: `62 F2 FD 29 63 50 80`. -/
theorem test_decode_T44 : decode [0x62#8, 0xF2#8, 0xFD#8, 0x29#8, 0x63#8, 0x50#8, 0x80#8] = .instr (.vpcompresswM256 .none 1 2 (.base 0 (.disp8 0x80) 0)) 7 := by decide

/-- 95_test_vectors.md T53: `65 62 82 FD 4E 63 44 C8 3F`. -/
theorem test_decode_T53 : decode [0x65#8, 0x62#8, 0x82#8, 0xFD#8, 0x4E#8, 0x63#8, 0x44#8, 0xC8#8, 0x3F#8] = .instr (.vpcompresswM512 (.seg .gs) 6 16 (.sib 8 9 3 (.disp8 0x3F))) 9 := by decide

/-- 95_test_vectors.md T52: `67 62 F2 FD 4A 63 1C 8B`. -/
theorem test_decode_T52 : decode [0x67#8, 0x62#8, 0xF2#8, 0xFD#8, 0x4A#8, 0x63#8, 0x1C#8, 0x8B#8] = .instr (.vpcompresswM512 .addr32 2 3 (.sib 3 1 2 .none)) 8 := by decide

/-- T53's word, encoded. -/
theorem test_encode_T53 : encode (.vpcompresswM512 (.seg .gs) 6 16 (.sib 8 9 3 (.disp8 0x3F))) =
    [0x65#8, 0x62#8, 0x82#8, 0xFD#8, 0x4E#8, 0x63#8, 0x44#8, 0xC8#8, 0x3F#8] := by decide
/-- R89: a repeated prefix is refused. -/
theorem test_decode_repeated : decode [0x64#8, 0x64#8, 0x62#8, 0xF2#8, 0x7D#8, 0x08#8, 0x63#8, 0x07#8] = .refused .repeatedPrefix := by decide
/-- R95 step 2. -/
theorem test_decode_not_evex : decode [0xC3#8, 0x62#8, 0xF2#8, 0x7D#8, 0x08#8, 0x63#8] = .refused .notEvex := by decide
/-- R169: the bytes end inside the instruction. -/
theorem test_decode_truncated : decode [0x62#8, 0xF2#8, 0xFD#8, 0x49#8, 0x63#8, 0x90#8, 0x03#8, 0x00#8, 0x00#8] = .refused .truncated := by decide
/-- spec/opcode_table.json's numbering: 62H in bits 47:40. -/
theorem test_table_word : decodeTableWord 48 0x62F2FD4963D1 = some (.vpcompresswZmm .none false 1 1 2) := by decide

/-! ## One step -/

/-- 95_test_vectors.md T1: bits 127:64 kept, bits above VL cleared. -/
theorem test_compressb_xmm_merges :
    meets (step (start 0xA5A5 bytes128 dest128 0 [0x62#8, 0xF2#8, 0x7D#8, 0x09#8, 0x63#8, 0xD1#8]))
      (fun t => readZmm t 1 == 0xEEEEEEEEEEEEEEEE1F1D1A1817151210#512 && t.pc == 0x400006#64) = true := by decide +kernel

/-- T3: mask zero, merging, still clears bits above VL. -/
theorem test_compressb_xmm_zero_mask :
    meets (step (start 0x0 bytes128 dest128 0 [0x62#8, 0xF2#8, 0x7D#8, 0x09#8, 0x63#8, 0xD1#8]))
      (fun t => readZmm t 1 == 0xEEEEEEEEEEEEEEEEEEEEEEEEEEEEEEEE#512 && t.pc == 0x400006#64) = true := by decide +kernel

/-- T15. -/
theorem test_compressb_ymm_merges :
    meets (step (start 0x80000001 bytes256 dest256 0 [0x62#8, 0xF2#8, 0x7D#8, 0x29#8, 0x63#8, 0xD1#8]))
      (fun t => readZmm t 1 == 0xEEEEEEEEEEEEEEEEEEEEEEEEEEEEEEEEEEEEEEEEEEEEEEEEEEEEEEEEEEEE5F40#512 && t.pc == 0x400006#64) = true := by decide +kernel

/-- T16. -/
theorem test_compressb_ymm_zeroes :
    meets (step (start 0xFF00 bytes256 dest256 0 [0x62#8, 0xF2#8, 0x7D#8, 0xA9#8, 0x63#8, 0xD1#8]))
      (fun t => readZmm t 1 == 0x4F4E4D4C4B4A4948#512 && t.pc == 0x400006#64) = true := by decide +kernel

/-- T17. -/
theorem test_compressb_zmm_merges :
    meets (step (start 0x8000000000000001 bytes512 dest512 0 [0x62#8, 0xF2#8, 0x7D#8, 0x49#8, 0x63#8, 0xD1#8]))
      (fun t => readZmm t 1 == 0xEEEEEEEEEEEEEEEEEEEEEEEEEEEEEEEEEEEEEEEEEEEEEEEEEEEEEEEEEEEEEEEEEEEEEEEEEEEEEEEEEEEEEEEEEEEEEEEEEEEEEEEEEEEEEEEEEEEEEEEEEEEE3F00#512 && t.pc == 0x400006#64) = true := by decide +kernel

/-- T18. -/
theorem test_compressb_zmm_zeroes :
    meets (step (start 0xAAAAAAAAAAAAAAAA bytes512 dest512 0 [0x62#8, 0xF2#8, 0x7D#8, 0xC9#8, 0x63#8, 0xD1#8]))
      (fun t => readZmm t 1 == 0x3F3D3B39373533312F2D2B29272523211F1D1B19171513110F0D0B0907050301#512 && t.pc == 0x400006#64) = true := by decide +kernel

/-- T10: a word moves whole. -/
theorem test_compressw_xmm_merges :
    meets (step (start 0xF0 words128 dest128 0 [0x62#8, 0xF2#8, 0xFD#8, 0x09#8, 0x63#8, 0xD1#8]))
      (fun t => readZmm t 1 == 0xEEEEEEEEEEEEEEEEA007A006A005A004#512 && t.pc == 0x400006#64) = true := by decide +kernel

/-- T12: KL = 8, bit 8 ignored. -/
theorem test_compressw_xmm_ignores_high_mask :
    meets (step (start 0x1FF words128 dest128 0 [0x62#8, 0xF2#8, 0xFD#8, 0x09#8, 0x63#8, 0xD1#8]))
      (fun t => readZmm t 1 == 0xA007A006A005A004A003A002A001A000#512 && t.pc == 0x400006#64) = true := by decide +kernel

/-- T13. -/
theorem test_compressw_ymm_merges :
    meets (step (start 0x8421 words256 dest256 0 [0x62#8, 0xF2#8, 0xFD#8, 0x29#8, 0x63#8, 0xD1#8]))
      (fun t => readZmm t 1 == 0xEEEEEEEEEEEEEEEEEEEEEEEEEEEEEEEEEEEEEEEEEEEEEEEE100F100A10051000#512 && t.pc == 0x400006#64) = true := by decide +kernel

/-- T14. -/
theorem test_compressw_ymm_zeroes :
    meets (step (start 0x8421 words256 dest256 0 [0x62#8, 0xF2#8, 0xFD#8, 0xA9#8, 0x63#8, 0xD1#8]))
      (fun t => readZmm t 1 == 0x100F100A10051000#512 && t.pc == 0x400006#64) = true := by decide +kernel

/-- T19: mask bits 63:32 ignored. -/
theorem test_compressw_zmm_merges :
    meets (step (start 0xFFFF00010000 words512 dest512 0 [0x62#8, 0xF2#8, 0xFD#8, 0x49#8, 0x63#8, 0xD1#8]))
      (fun t => readZmm t 1 == 0xEEEEEEEEEEEEEEEEEEEEEEEEEEEEEEEEEEEEEEEEEEEEEEEEEEEEEEEEEEEEEEEEEEEEEEEEEEEEEEEEEEEEEEEEEEEEEEEEEEEEEEEEEEEEEEEEEEEEEEEEEEEE2010#512 && t.pc == 0x400006#64) = true := by decide +kernel

/-- T20. -/
theorem test_compressw_zmm_zeroes :
    meets (step (start 0xFFFF0000 words512 dest512 0 [0x62#8, 0xF2#8, 0xFD#8, 0xC9#8, 0x63#8, 0xD1#8]))
      (fun t => readZmm t 1 == 0x201F201E201D201C201B201A2019201820172016201520142013201220112010#512 && t.pc == 0x400006#64) = true := by decide +kernel

/-- T30: only the contiguous vector is written. -/
theorem test_compressb_m128 :
    meets (step (start 0xA5A5 bytes128 0 0x1000 [0x62#8, 0xF2#8, 0x7D#8, 0x09#8, 0x63#8, 0x10#8]))
      (fun t => bytesAre t 0x1000 [0x10#8, 0x12#8, 0x15#8, 0x17#8, 0x18#8, 0x1A#8, 0x1D#8, 0x1F#8] && byteAt t 0xFFF == none && byteAt t 0x1008 == none && byteAt t 0x100F == none && t.pc == 0x400006#64) = true := by decide +kernel

/-- T32: no writemask, odd address. -/
theorem test_compressb_m128_unmasked :
    meets (step (start 0x0 bytes128 0 0x1001 [0x62#8, 0xF2#8, 0x7D#8, 0x08#8, 0x63#8, 0x10#8]))
      (fun t => bytesAre t 0x1001 [0x10#8, 0x11#8, 0x12#8, 0x13#8, 0x14#8, 0x15#8, 0x16#8, 0x17#8, 0x18#8, 0x19#8, 0x1A#8, 0x1B#8, 0x1C#8, 0x1D#8, 0x1E#8, 0x1F#8] && byteAt t 0x1000 == none && byteAt t 0x1011 == none && t.pc == 0x400006#64) = true := by decide +kernel

/-- T36. -/
theorem test_compressb_m256 :
    meets (step (start 0x80000001 bytes256 0 0x2000 [0x62#8, 0xF2#8, 0x7D#8, 0x29#8, 0x63#8, 0x10#8]))
      (fun t => bytesAre t 0x2000 [0x40#8, 0x5F#8] && byteAt t 0x1FFF == none && byteAt t 0x2002 == none && t.pc == 0x400006#64) = true := by decide +kernel

/-- T37. -/
theorem test_compressb_m512 :
    meets (step (start 0x8000000000000001 bytes512 0 0x3000 [0x62#8, 0xF2#8, 0x7D#8, 0x49#8, 0x63#8, 0x10#8]))
      (fun t => bytesAre t 0x3000 [0x00#8, 0x3F#8] && byteAt t 0x2FFF == none && byteAt t 0x3002 == none && t.pc == 0x400006#64) = true := by decide +kernel

/-- T39: full 64-byte store. -/
theorem test_compressb_m512_full :
    meets (step (start 0x0 bytes512 0 0x3000 [0x62#8, 0xF2#8, 0x7D#8, 0x48#8, 0x63#8, 0x10#8]))
      (fun t => bytesAre t 0x3000 [0x00#8, 0x01#8, 0x02#8, 0x03#8, 0x04#8, 0x05#8, 0x06#8, 0x07#8, 0x08#8, 0x09#8, 0x0A#8, 0x0B#8, 0x0C#8, 0x0D#8, 0x0E#8, 0x0F#8, 0x10#8, 0x11#8, 0x12#8, 0x13#8, 0x14#8, 0x15#8, 0x16#8, 0x17#8, 0x18#8, 0x19#8, 0x1A#8, 0x1B#8, 0x1C#8, 0x1D#8, 0x1E#8, 0x1F#8, 0x20#8, 0x21#8, 0x22#8, 0x23#8, 0x24#8, 0x25#8, 0x26#8, 0x27#8, 0x28#8, 0x29#8, 0x2A#8, 0x2B#8, 0x2C#8, 0x2D#8, 0x2E#8, 0x2F#8, 0x30#8, 0x31#8, 0x32#8, 0x33#8, 0x34#8, 0x35#8, 0x36#8, 0x37#8, 0x38#8, 0x39#8, 0x3A#8, 0x3B#8, 0x3C#8, 0x3D#8, 0x3E#8, 0x3F#8] && byteAt t 0x2FFF == none && byteAt t 0x3040 == none && t.pc == 0x400006#64) = true := by decide +kernel

/-- T33: little-endian words. -/
theorem test_compressw_m128 :
    meets (step (start 0xF0 words128 0 0x1000 [0x62#8, 0xF2#8, 0xFD#8, 0x09#8, 0x63#8, 0x10#8]))
      (fun t => bytesAre t 0x1000 [0x04#8, 0xA0#8, 0x05#8, 0xA0#8, 0x06#8, 0xA0#8, 0x07#8, 0xA0#8] && byteAt t 0xFFF == none && byteAt t 0x1008 == none && t.pc == 0x400006#64) = true := by decide +kernel

/-- T34: odd address, ac_enabled false. -/
theorem test_compressw_m128_odd :
    meets (step (start 0x5 words128 0 0x1003 [0x62#8, 0xF2#8, 0xFD#8, 0x09#8, 0x63#8, 0x10#8]))
      (fun t => bytesAre t 0x1003 [0x00#8, 0xA0#8, 0x02#8, 0xA0#8] && byteAt t 0x1002 == none && byteAt t 0x1007 == none && t.pc == 0x400006#64) = true := by decide +kernel

/-- T35. -/
theorem test_compressw_m256 :
    meets (step (start 0x8421 words256 0 0x2000 [0x62#8, 0xF2#8, 0xFD#8, 0x29#8, 0x63#8, 0x10#8]))
      (fun t => bytesAre t 0x2000 [0x00#8, 0x10#8, 0x05#8, 0x10#8, 0x0A#8, 0x10#8, 0x0F#8, 0x10#8] && byteAt t 0x1FFF == none && byteAt t 0x2008 == none && t.pc == 0x400006#64) = true := by decide +kernel

/-- T38: mask bits 63:32 ignored. -/
theorem test_compressw_m512 :
    meets (step (start 0xFFFF00010000 words512 0 0x3000 [0x62#8, 0xF2#8, 0xFD#8, 0x49#8, 0x63#8, 0x10#8]))
      (fun t => bytesAre t 0x3000 [0x10#8, 0x20#8] && byteAt t 0x2FFF == none && byteAt t 0x3002 == none && t.pc == 0x400006#64) = true := by decide +kernel

/-- T43: disp8 = 1 scaled by N = 2. -/
theorem test_compressw_m512_disp8 :
    meets (step (start 0x1 words512 0 0x1000 [0x62#8, 0xF2#8, 0xFD#8, 0x49#8, 0x63#8, 0x50#8, 0x01#8]))
      (fun t => bytesAre t 0x1002 [0x00#8, 0x20#8] && byteAt t 0x1001 == none && byteAt t 0x1004 == none && t.pc == 0x400007#64) = true := by decide +kernel


/-! Operands and instructions of the witnesses. -/

def rax : MemOperand := .base 0 .none 0
def stack : MemOperand := .sib 4 4 0 .none
/-- Register form, merging: xmm2 to xmm1 under K1. -/
def regByte : Instr := .vpcompressbXmm .none false 1 1 2
/-- Store form, xmm2 to the bytes at RAX under K1. -/
def storeByte : Instr := .vpcompressbM128 .none 1 2 rax
/-- Store form, xmm2 to the bytes at RSP under K1. -/
def storeStack : Instr := .vpcompressbM128 .none 1 2 stack

/-! ## Faults and refusals -/

/-- 95_test_vectors.md T91's word, a LOCK prefix: #UD (R88). -/
theorem test_lock_raises_ud : faults (step (start 1 0 0 0 [0xF0#8, 0x62#8, 0xF2#8, 0x7D#8, 0x49#8, 0x63#8, 0xD1#8]))
    (.invalidOpcode 0x400000) = true := by decide +kernel
/-- R42, R52 to R57: a store of the last byte below 2^64 completes, one byte more is refused. -/
theorem test_store_to_the_top : meets (exec storeByte (start 1 0x5A 0 0xFFFFFFFFFFFFFFFF []))
    (fun t => byteAt t 0xFFFFFFFFFFFFFFFF == some 0x5A#8) = true := by decide +kernel
theorem test_store_over_the_top : refuses (exec storeByte (start 3 0x5A 0 0xFFFFFFFFFFFFFFFF [])) .storeWraps = true := by
  decide +kernel
/-- R50: the last canonical byte of the low half and the byte above it. -/
theorem test_canonical_edge : canonical envReset 0x7FFFFFFFFFFF = true ∧ canonical envReset 0x800000000000 = false ∧
    canonical envReset 0xFFFF7FFFFFFFFFFF = false ∧ canonical envReset 0xFFFF800000000000 = true := by decide +kernel

/-! ## Witnesses: a state and operands that meet the hypotheses of each statement -/

theorem witness_ByteRegisterFormsComplete :
    Enabled State.reset .v128 ∧ Enabled State.reset .v256 ∧ Enabled State.reset .v512 := by decide
/-- R133: the 512-bit forms complete without AVX512VL. -/
theorem witness_ByteRegisterFormsComplete_no_vl :
    Enabled { State.reset with env := { envReset with hasAvx512Vl := false } } .v512 := by decide
theorem witness_WordRegisterFormsComplete :
    Enabled State.reset .v128 ∧ Enabled State.reset .v256 ∧ Enabled State.reset .v512 := by decide

/-- `storeReady` for a state, by evaluation. -/
theorem storeReady_of {es : ElemSize} {vl : VecLen} {k : KReg} {m : MemOperand} {s : State}
    (h : (decide (Enabled s vl) && decide (Storable s (storeAddr s es .none m) (storeBytes s es vl k)) &&
      canonical s.env (storeAddr s es .none m)) = true) : StoreReady es vl .none k m s := by
  simp only [Bool.and_eq_true, decide_eq_true_eq] at h
  exact ⟨h.1.1, h.1.2, fun _ => h.2⟩

/-- A state with four active elements and RAX = 1000H. -/
def four : State := start 0x69 bytes512 dest512 0x1000 []

theorem witness_ByteStoreFormsComplete :
    StoreReady .byte .v128 .none 1 rax four ∧ StoreReady .byte .v256 .none 1 rax four ∧
      StoreReady .byte .v512 .none 1 rax four :=
  ⟨storeReady_of (by decide +kernel), storeReady_of (by decide +kernel), storeReady_of (by decide +kernel)⟩
/-- n = 0: K1 = 0. -/
theorem witness_ByteStoreFormsComplete_empty : StoreReady .byte .v128 .none 1 rax (start 0 0 0 0x1000 []) :=
  storeReady_of (by decide +kernel)
/-- The last byte below 2^64. -/
theorem witness_ByteStoreFormsComplete_top : StoreReady .byte .v128 .none 1 rax (start 1 0 0 0xFFFFFFFFFFFFFFFF []) :=
  storeReady_of (by decide +kernel)
theorem witness_WordStoreFormsComplete :
    NoAlignCheck four.env ∧ StoreReady .word .v128 .none 1 rax four ∧ StoreReady .word .v256 .none 1 rax four ∧
      StoreReady .word .v512 .none 1 rax four :=
  ⟨rfl, storeReady_of (by decide +kernel), storeReady_of (by decide +kernel), storeReady_of (by decide +kernel)⟩

/-- Alignment checking in force: an even address (RAX = 1000H) and an odd one (RAX = 1001H). -/
def checkedAt (k1 : Mask) (a : Addr) : State :=
  { start k1 words512 0 a [] with env := { envReset with acEnabled := true } }

theorem witness_WordStoreFormsComplete_even :
    ¬ NoAlignCheck (checkedAt 0x69 0x1000).env ∧ (storeAddr (checkedAt 0x69 0x1000) .word .none rax).getLsbD 0 = false ∧
      StoreReady .word .v128 .none 1 rax (checkedAt 0x69 0x1000) ∧
      StoreReady .word .v512 .none 1 rax (checkedAt 0x69 0x1000) :=
  ⟨by decide, by decide +kernel, storeReady_of (by decide +kernel), storeReady_of (by decide +kernel)⟩

theorem witness_RegisterFormsFrame :
    regByte.shape = .reg .byte .v128 .none false 1 1 2 ∧ ∃ t, exec regByte four = .next t :=
  ⟨rfl, runs (by decide +kernel)⟩
theorem witness_StoreFormsFrame :
    storeByte.shape = .store .byte .v128 .none 1 2 rax ∧ ∃ t, exec storeByte four = .next t :=
  ⟨rfl, runs (by decide +kernel)⟩
theorem witness_CompletionFallsThrough : ∃ t, exec storeByte four = .next t := runs (by decide +kernel)

/-- A program of one register and one store instruction. -/
def twoInstrs : List Instr := [regByte, storeByte]
def running : State := start 0x69 bytes512 dest512 0x1000 (twoInstrs.flatMap encode)

theorem witness_EnvironmentIsConstant : ∃ t, step running = .next t := runs (by decide +kernel)
/-- Bit 16, the first above KL = 16. -/
theorem witness_MaskBitsAboveKlIgnored :
    (∀ j < (maskOf regByte).2, (0x10069#64).getLsbD j = (readK four (maskOf regByte).1).getLsbD j) ∧
      (0x10069#64 ≠ readK four (maskOf regByte).1) := by decide +kernel
theorem witness_OpmasksReadOnlyAndK0Unread : ∃ t, exec regByte four = .next t := runs (by decide +kernel)
theorem witness_FlagsNeitherReadNorWritten : ∃ t, step running = .next t := runs (by decide +kernel)
/-- Bit 128, the first above VL = 128. -/
theorem witness_SourceBitsAboveVlIgnored :
    (∀ b < vlBits .v128, (bytes512 ^^^ (1#512 <<< 128)).getLsbD b = (readZmm four 2).getLsbD b) ∧
      (∃ t, exec regByte four = .next t) ∧ ∃ t, exec regByte (writeZmm four 2 (bytes512 ^^^ (1#512 <<< 128))) = .next t :=
  ⟨by decide +kernel, runs (by decide +kernel), runs (by decide +kernel)⟩

/-- The launch state of a six-byte program `62 p0 p1 p2 63 modrm` stands on that pattern. -/
theorem pattern_at {p0 p1 p2 modrm : Byte} (h : (inPattern (evexFields p0 p1 p2) 0x63#8 &&
      (patternLen .none (evexFields p0 p1 p2) modrm [] == some 6)) = true) :
    FetchesPattern (start 1 0 0 0 [0x62#8, p0, p1, p2, 0x63#8, modrm]) .none p0 p1 p2 modrm [] := by
  simp only [Bool.and_eq_true, beq_iff_eq] at h
  have hf : Fetchable State.reset 6 := by decide +kernel
  exact ⟨rfl, rfl, by simp [textFrom, start, State.reset, envReset, Prefixes.bytes], h.1, 6, h.2, hf.1, fun j hj => hf.2 j hj⟩

/-- T60 and T62: vvvv = 1110, register and store form. -/
theorem witness_ReservedVvvvRaisesUd :
    (FetchesPattern (start 1 0 0 0 [0x62#8, 0xF2#8, 0x75#8, 0x49#8, 0x63#8, 0xD1#8]) .none 0xF2 0x75 0x49 0xD1 [] ∧
      (evexFields 0xF2 0x75 0x49).vvvv ≠ 0b1111#4) ∧
    FetchesPattern (start 1 0 0 0 [0x62#8, 0xF2#8, 0x75#8, 0x49#8, 0x63#8, 0x10#8]) .none 0xF2 0x75 0x49 0x10 [] :=
  ⟨⟨pattern_at (by decide), by decide⟩, pattern_at (by decide)⟩
/-- T63: z = 1, memory destination. -/
theorem witness_ZeroingStoreRaisesUd :
    FetchesPattern (start 1 0 0 0 [0x62#8, 0xF2#8, 0x7D#8, 0xC9#8, 0x63#8, 0x10#8]) .none 0xF2 0x7D 0xC9 0x10 [] ∧
      (0x10#8).extractLsb' 6 2 ≠ 0b11#2 ∧ (evexFields 0xF2 0x7D 0xC9).z = 1#1 :=
  ⟨pattern_at (by decide), by decide, by decide⟩
/-- T64: L'L = 11. -/
theorem witness_ReservedFieldsRaiseUd_ll :
    FetchesPattern (start 1 0 0 0 [0x62#8, 0xF2#8, 0x7D#8, 0x69#8, 0x63#8, 0xD1#8]) .none 0xF2 0x7D 0x69 0xD1 [] ∧
      (evexFields 0xF2 0x7D 0x69).ll = 0b11#2 := ⟨pattern_at (by decide), by decide⟩
/-- T65: b = 1. -/
theorem witness_ReservedFieldsRaiseUd_b :
    FetchesPattern (start 1 0 0 0 [0x62#8, 0xF2#8, 0x7D#8, 0x59#8, 0x63#8, 0xD1#8]) .none 0xF2 0x7D 0x59 0xD1 [] ∧
      (evexFields 0xF2 0x7D 0x59).bc = 1#1 := ⟨pattern_at (by decide), by decide⟩
/-- T66: stored V' = 0. -/
theorem witness_ReservedFieldsRaiseUd_v' :
    FetchesPattern (start 1 0 0 0 [0x62#8, 0xF2#8, 0x7D#8, 0x41#8, 0x63#8, 0xD1#8]) .none 0xF2 0x7D 0x41 0xD1 [] ∧
      (evexFields 0xF2 0x7D 0x41).v' = 0#1 := ⟨pattern_at (by decide), by decide⟩
/-- T68: P0 bit 3 = 1. -/
theorem witness_ReservedFieldsRaiseUd_p0 :
    FetchesPattern (start 1 0 0 0 [0x62#8, 0xFA#8, 0x7D#8, 0x49#8, 0x63#8, 0xD1#8]) .none 0xFA 0x7D 0x49 0xD1 [] ∧
      (evexFields 0xFA 0x7D 0x49).p0bit3 = 1#1 := ⟨pattern_at (by decide), by decide⟩
/-- T69: P1 bit 2 = 0. -/
theorem witness_ReservedFieldsRaiseUd_p1 :
    FetchesPattern (start 1 0 0 0 [0x62#8, 0xF2#8, 0x79#8, 0x49#8, 0x63#8, 0xD1#8]) .none 0xF2 0x79 0x49 0xD1 [] ∧
      (evexFields 0xF2 0x79 0x49).p1bit2 = 0#1 := ⟨pattern_at (by decide), by decide⟩
/-- T67: z = 1 with aaa = 000. -/
theorem witness_ReservedFieldsRaiseUd :
    FetchesPattern (start 1 0 0 0 [0x62#8, 0xF2#8, 0x7D#8, 0xC8#8, 0x63#8, 0xD1#8]) .none 0xF2 0x7D 0xC8 0xD1 [] ∧
      (evexFields 0xF2 0x7D 0xC8).z = 1#1 ∧ (evexFields 0xF2 0x7D 0xC8).aaa = 0#3 :=
  ⟨pattern_at (by decide), by decide, by decide⟩
/-- T17 and T30's words. -/
theorem witness_WellEncodedPatternRuns :
    (FetchesPattern (start 1 0 0 0 [0x62#8, 0xF2#8, 0x7D#8, 0x49#8, 0x63#8, 0xD1#8]) .none 0xF2 0x7D 0x49 0xD1 [] ∧
      reservedBroken (evexFields 0xF2 0x7D 0x49) = false ∧ (evexFields 0xF2 0x7D 0x49).ll ≠ 0b11#2) ∧
    FetchesPattern (start 1 0 0 0 [0x62#8, 0xF2#8, 0x7D#8, 0x09#8, 0x63#8, 0x10#8]) .none 0xF2 0x7D 0x09 0x10 [] ∧
      reservedBroken (evexFields 0xF2 0x7D 0x09) = false ∧ (evexFields 0xF2 0x7D 0x09).z = 0#1 :=
  ⟨⟨pattern_at (by decide), by decide, by decide⟩, pattern_at (by decide), by decide, by decide⟩
theorem witness_ForbiddenPrefixRaisesUd :
    let s := start 1 0 0 0 [0xF0#8, 0x62#8, 0xF2#8, 0x7D#8, 0x49#8, 0x63#8, 0xD1#8]
    Mode64 s.env ∧ inText s.env s.pc.toNat = true ∧
      textFrom s = [0xF0#8, 0x62#8, 0xF2#8, 0x7D#8, 0x49#8, 0x63#8, 0xD1#8] ∧
      inPattern (evexFields 0xF2 0x7D 0x49) 0x63#8 = true ∧
      patternLen .none (evexFields 0xF2 0x7D 0x49) 0xD1 [] = some 6 ∧ Fetchable s 7 := by decide +kernel

/-- The reset state with another environment. -/
def withEnv (e : Env) : State := { four with env := e }

theorem witness_MissingFeatureRaisesUd :
    Mode64 (withEnv { envReset with osAvx512Enabled := false }).env ∧
      Mode64 (withEnv { envReset with hasAvx512Vbmi2 := false }).env ∧
      (Mode64 (withEnv { envReset with hasAvx512Vl := false }).env ∧ vecLen regByte ≠ .v512) ∧
      faults (exec regByte (withEnv { envReset with hasAvx512Vl := false })) (.invalidOpcode 0x400000) = true := by
  decide +kernel
theorem witness_TaskSwitchedRaisesNm :
    let s := withEnv { envReset with cr0Ts := true }
    Mode64 s.env ∧ OsEnabled s.env ∧ FeaturesPresent s.env (vecLen regByte) ∧ s.env.cr0Ts = true := by decide
theorem witness_RegisterFormsTouchNoMemory :
    regByte.shape = .reg .byte .v128 .none false 1 1 2 ∧
      exec regByte (withEnv { envReset with cr0Ts := true }) = .fault (.deviceNotAvailable 0x400000) ∧
      ∃ t, exec regByte four = .next t := ⟨rfl, faults_iff.1 (by decide +kernel), runs (by decide +kernel)⟩

/-! Stores of `storeByte` (base RAX, segment DS) and of `storeStack` (base RSP, segment SS). -/

/-- Two bytes at 00007FFF_FFFFFFFFH: the second is non-canonical. -/
def edge : State := { start 3 0x0201 0 0x7FFFFFFFFFFF [] with gpr := Vector.replicate 16 0x7FFFFFFFFFFF }

theorem witness_NonCanonicalStoreFaults :
    Enabled edge .v128 ∧ 1 < storeBytes edge .byte .v128 1 ∧
      (storeAddr edge .byte .none rax).toNat + storeBytes edge .byte .v128 1 ≤ 2 ^ 64 ∧
      (∀ l < storeBytes edge .byte .v128 1, inText edge.env ((storeAddr edge .byte .none rax).toNat + l) = false) ∧
      canonical edge.env (storeAddr edge .byte .none rax + BitVec.ofNat 64 1) = false ∧
      segmentOf .none rax = .ds := by decide +kernel
theorem witness_NonCanonicalStoreFaults_stack :
    Enabled edge .v128 ∧ storeStack.shape = .store .byte .v128 .none 1 2 stack ∧ segmentOf .none stack = .ss ∧
      canonical edge.env (storeAddr edge .byte .none stack + BitVec.ofNat 64 1) = false ∧
      faults (exec storeStack edge) (.stackSegment 0x400000) = true ∧
      faults (exec storeByte edge) (.generalProtection 0x400000) = true := by decide +kernel

/-- The page from 1002H on may not be written. -/
def paged : State :=
  withEnv { envReset with translate := [⟨⟨0x1002, 0x1FFF⟩, .write, .pageFault 7⟩] }

theorem witness_PageFaultAtLowestByte :
    Enabled paged .v128 ∧ 2 < storeBytes paged .byte .v128 1 ∧
      (storeAddr paged .byte .none rax).toNat + storeBytes paged .byte .v128 1 ≤ 2 ^ 64 ∧
      (∀ l < storeBytes paged .byte .v128 1, inText paged.env ((storeAddr paged .byte .none rax).toNat + l) = false ∧
        canonical paged.env (storeAddr paged .byte .none rax + BitVec.ofNat 64 l) = true) ∧
      translate paged.env (storeAddr paged .byte .none rax + BitVec.ofNat 64 2) .write = .pageFault 7 ∧
      (∀ l < 2, translate paged.env (storeAddr paged .byte .none rax + BitVec.ofNat 64 l) .write = .ok) ∧
      faults (exec storeByte paged) (.pageFault 7 0x1002 0x400000) = true := by decide +kernel
/-- Alignment checking in force at an odd LA; this byte store raises no #AC. -/
theorem witness_PageFaultAtLowestByte_checked :
    exec storeByte { checkedAt 0x69 0x1001 with env := { paged.env with acEnabled := true } } =
      .fault (.pageFault 7 0x1002 0x400000) := faults_iff.1 (by decide +kernel)

theorem witness_AlignmentCheckIsOpen :
    StoreReady .word .v128 .none 1 rax (checkedAt 1 0x1001) ∧ (checkedAt 1 0x1001).env.acEnabled = true ∧ 0 < storeBytes (checkedAt 1 0x1001) .word .v128 1 ∧
      (storeAddr (checkedAt 1 0x1001) .word .none rax).getLsbD 0 = true :=
  ⟨storeReady_of (by decide +kernel), rfl, by decide +kernel, by decide +kernel⟩
/-- No #AC: alignment checking off, a byte store, a word store of no bytes at an odd LA, a word store at an even LA. -/
theorem witness_AlignmentCheckIsOpen_never : four.env.acEnabled = false ∧
    (∀ vl p k src m, storeByte.shape ≠ .store .word vl p k src m) ∧
    ((checkedAt 0 0x1001).env.acEnabled = true ∧ storeBytes (checkedAt 0 0x1001) .word .v128 1 = 0 ∧
      (storeAddr (checkedAt 0 0x1001) .word .none rax).getLsbD 0 = true) ∧
    ((checkedAt 1 0x1000).env.acEnabled = true ∧ storeBytes (checkedAt 1 0x1000) .word .v128 1 = 2 ∧
      (storeAddr (checkedAt 1 0x1000) .word .none rax).getLsbD 0 = false) :=
  ⟨rfl, by intros; simp [storeByte, Instr.shape], by decide +kernel, by decide +kernel⟩

/-- Alignment checking in force, RAX = 1001H, and 1002H the first byte that may not be written. -/
def checkedPaged : State := { checkedAt 0x69 0x1001 with env := { paged.env with acEnabled := true } }

theorem witness_AlignmentCheckPrecedesPageFault :
    Enabled checkedPaged .v128 ∧ checkedPaged.env.acEnabled = true ∧
      (storeAddr checkedPaged .word .none rax).getLsbD 0 = true ∧
      (storeAddr checkedPaged .word .none rax).toNat + storeBytes checkedPaged .word .v128 1 ≤ 2 ^ 64 ∧
      (∀ l < storeBytes checkedPaged .word .v128 1,
        inText checkedPaged.env ((storeAddr checkedPaged .word .none rax).toNat + l) = false ∧
          canonical checkedPaged.env (storeAddr checkedPaged .word .none rax + BitVec.ofNat 64 l) = true) ∧
      1 < storeBytes checkedPaged .word .v128 1 ∧
      translate checkedPaged.env (storeAddr checkedPaged .word .none rax + BitVec.ofNat 64 1) .write = .pageFault 7 ∧
      ∀ l < 1, translate checkedPaged.env (storeAddr checkedPaged .word .none rax + BitVec.ofNat 64 l) .write = .ok := by
  decide +kernel

/-- A zero-length store at a non-canonical address, under each setting of `zero_len_check`. -/
def emptyAt (c : ZeroLenCheck) (a : Addr) : State := { start 0 0 0 a [] with env := { envReset with zeroLenCheck := c } }

theorem witness_ZeroLengthStore : ∀ c ∈ [ZeroLenCheck.raises, .completes, .either],
    Enabled (emptyAt c 0x800000000000) .v128 ∧ storeBytes (emptyAt c 0x800000000000) .byte .v128 1 = 0 ∧
      canonical (emptyAt c 0x800000000000).env (storeAddr (emptyAt c 0x800000000000) .byte .none rax) = false ∧
      canonical (emptyAt c 0x7FFFFFFFFFFF).env (storeAddr (emptyAt c 0x7FFFFFFFFFFF) .byte .none rax) = true := by
  decide +kernel
theorem test_zero_length_raises :
    faults (exec storeByte (emptyAt .raises 0x800000000000)) (.generalProtection 0x400000) = true := by decide +kernel
theorem test_zero_length_completes :
    meets (exec storeByte (emptyAt .completes 0x800000000000)) (fun t => t.mem == []) = true := by decide +kernel

/-- A store of the two bytes at RAX, with a program of twelve bytes at 400000H to 40000BH. -/
def nearText (a : Addr) : State := start 3 0x0201 0 a (twoInstrs.flatMap encode)

/-- The last byte stored is the text's first; the first byte stored is the text's last. -/
theorem witness_TextIsImmutable :
    Enabled (nearText 0x3FFFFF) .v128 ∧
      (storeAddr (nearText 0x3FFFFF) .byte .none rax).toNat + storeBytes (nearText 0x3FFFFF) .byte .v128 1 ≤ 2 ^ 64 ∧
      (∃ j < storeBytes (nearText 0x3FFFFF) .byte .v128 1,
        inText (nearText 0x3FFFFF).env ((storeAddr (nearText 0x3FFFFF) .byte .none rax).toNat + j) = true) ∧
      (∃ j < storeBytes (nearText 0x40000B) .byte .v128 1,
        inText (nearText 0x40000B).env ((storeAddr (nearText 0x40000B) .byte .none rax).toNat + j) = true) := by
  decide +kernel
/-- One byte further on either side the store completes. -/
theorem witness_TextIsImmutable_outside :
    (∃ t, exec storeByte (nearText 0x3FFFFE) = .next t) ∧ (∃ t, exec storeByte (nearText 0x40000C) = .next t) ∧
      inText (nearText 0x40000C).env 0x40000B = true :=
  ⟨runs (by decide +kernel), runs (by decide +kernel), by decide +kernel⟩

theorem witness_WrappingStoreIsRefused :
    let s := start 3 0x0201 0 0xFFFFFFFFFFFFFFFF []
    Enabled s .v128 ∧ 0 < storeBytes s .byte .v128 1 ∧
      2 ^ 64 < (storeAddr s .byte .none rax).toNat + storeBytes s .byte .v128 1 := by decide +kernel
theorem witness_StoreIsIdempotent :
    ∃ t, exec storeByte four = .next t ∧ ∃ u, exec storeByte { t with pc := four.pc } = .next u := by
  obtain ⟨t, ht, h⟩ := meets_iff.1 (show meets (exec storeByte four)
    (fun t => meets (exec storeByte { t with pc := four.pc }) fun _ => true) = true by decide +kernel)
  exact ⟨t, ht, runs h⟩

/-- The fourth byte stored is a device's. -/
def withDevice : State := withEnv { envReset with devices := [⟨0x1003, 0x1003⟩] }

theorem witness_DeviceStoreIsRefused :
    Enabled withDevice .v128 ∧ NoAlignCheck withDevice.env ∧
      (storeAddr withDevice .byte .none rax).toNat + storeBytes withDevice .byte .v128 1 ≤ 2 ^ 64 ∧
      (∀ j < storeBytes withDevice .byte .v128 1,
        inText withDevice.env ((storeAddr withDevice .byte .none rax).toNat + j) = false ∧
          canonical withDevice.env (storeAddr withDevice .byte .none rax + BitVec.ofNat 64 j) = true ∧
          translate withDevice.env (storeAddr withDevice .byte .none rax + BitVec.ofNat 64 j) .write = .ok) ∧
      ∃ j < storeBytes withDevice .byte .v128 1,
        isDevice withDevice.env (storeAddr withDevice .byte .none rax + BitVec.ofNat 64 j) = true := by decide +kernel

/-- Every address outside the four bytes stored faults. -/
def allButFour : List XlatEntry :=
  [⟨⟨0, 0xFFF⟩, .write, .pageFault 6⟩, ⟨⟨0x1004, 0xFFFFFFFFFFFFFFFF⟩, .write, .pageFault 6⟩]

theorem witness_UnwrittenBytesHaveNoEffect :
    storeByte.shape = .store .byte .v128 .none 1 2 rax ∧ (∀ j < storeBytes four .byte .v128 1,
      translate { four.env with translate := allButFour, vaBits := .va57 }
          (storeAddr four .byte .none rax + BitVec.ofNat 64 j) .write =
        translate four.env (storeAddr four .byte .none rax + BitVec.ofNat 64 j) .write ∧
      canonical { four.env with translate := allButFour, vaBits := .va57 }
          (storeAddr four .byte .none rax + BitVec.ofNat 64 j) =
        canonical four.env (storeAddr four .byte .none rax + BitVec.ofNat 64 j)) ∧
      storeBytes four .byte .v128 1 = 4 := by decide +kernel
/-- The byte above the one stored at 00007FFF_FFFFFFFFH is canonical under 57 address bits and not under 48; and a store of no
bytes at an LA that is canonical under both. -/
theorem witness_UnwrittenBytesHaveNoEffect_edge :
    storeBytes (start 1 0 0 0x7FFFFFFFFFFF []) .byte .v128 1 = 1 ∧
      canonical envReset 0x7FFFFFFFFFFF = canonical { envReset with vaBits := .va57 } 0x7FFFFFFFFFFF ∧
      canonical envReset 0x800000000000 ≠ canonical { envReset with vaBits := .va57 } 0x800000000000 ∧
      storeBytes (start 0 0 0 0x7FFFFFFFFFFF []) .byte .v128 1 = 0 := by decide +kernel

/-- A fault of each kind that no open choice decides. -/
theorem witness_FaultRecordsPcAndVector :
    step (start 1 0 0 0 [0x62#8, 0xF2#8, 0x75#8, 0x49#8, 0x63#8, 0xD1#8]) = .fault (.invalidOpcode 0x400000) ∧
      step (start 3 0x0201 0 0x7FFFFFFFFFFF (encode storeByte)) = .fault (.generalProtection 0x400000) ∧
      step { running with pc := 0x400006, env := { running.env with translate := paged.env.translate } } =
        .fault (.pageFault 7 0x1002 0x400006) :=
  ⟨faults_iff.1 (by decide +kernel), faults_iff.1 (by decide +kernel), faults_iff.1 (by decide +kernel)⟩
theorem witness_ExceptionPriority :
    exec regByte (withEnv { envReset with cr0Ts := true }) = .fault (.deviceNotAvailable 0x400000) ∧
      exec storeByte edge = .fault (.generalProtection 0x400000) ∧
      exec storeByte paged = .fault (.pageFault 7 0x1002 0x400000) :=
  ⟨faults_iff.1 (by decide +kernel), faults_iff.1 (by decide +kernel), faults_iff.1 (by decide +kernel)⟩

/-! Fetch, decode, encode. -/

theorem witness_StepRunsDecodedInstruction : Fetches running regByte 6 := by decide +kernel
theorem witness_StepOutsideProgramRefused :
    ¬ Mode64 (withEnv { envReset with mode := .compat32 }).env ∧
      (Mode64 running.env ∧ RunOver { running with pc := 0x40000C }) ∧
      (¬ RunOver { running with pc := 0x40000D } ∧
        inText running.env ({ running with pc := 0x40000D } : State).pc.toNat = false) ∧
      (¬ RunOver { running with pc := 0x3FFFFF } ∧
        inText running.env ({ running with pc := 0x3FFFFF } : State).pc.toNat = false) := by decide +kernel
theorem witness_DecodeOfEncode :
    (Instr.vpcompresswM512 (.addr32Seg .gs) 6 16 (.sib 8 9 3 (.disp32 0x3F))).wf = true ∧ regByte.wf = true := by decide
theorem witness_EncodeOfDecode : decode (encode storeByte ++ [0x90#8]) = .instr storeByte 6 := by decide
theorem witness_FormSelection :
    inPattern (evexFields 0xF2 0x7D 0x09) 0x63#8 = true ∧
      decode (Prefixes.bytes .none ++ [0x62#8, 0xF2#8, 0x7D#8, 0x09#8, 0x63#8, 0xD1#8]) = .instr regByte 6 ∧
      decode (Prefixes.bytes .none ++ [0x62#8, 0xF2#8, 0x7D#8, 0x09#8, 0x63#8, 0x10#8]) = .instr storeByte 6 := by decide
theorem witness_OutsidePatternRefused :
    let s := start 1 0 0 0 [0x62#8, 0xF2#8, 0x7D#8, 0x09#8, 0x62#8, 0xD1#8]
    Mode64 s.env ∧ inText s.env s.pc.toNat = true ∧
      textFrom s = Prefixes.bytes .none ++ [0x62#8, 0xF2#8, 0x7D#8, 0x09#8, 0x62#8, 0xD1#8] ∧ (0x62#8 : Byte) ≠ 0x63#8 ∧
      (0xF1#8 : Byte).extractLsb' 0 3 ≠ 0b010#3 ∧ (0x7C#8 : Byte).extractLsb' 0 2 ≠ 0b01#2 := by decide
/-- R95 step 2: a byte after a 67H prefix that is no prefix and not 62H. -/
theorem witness_OutsidePatternRefused_notEvex :
    let s := start 1 0 0 0 [0x67#8, 0xC3#8]
    inText s.env s.pc.toNat = true ∧ textFrom s = Prefixes.addr32.bytes ++ [0xC3#8] ∧ isPrefixByte 0xC3 = false ∧
      refuses (step s) (.undecoded .notEvex) = true := by decide +kernel
/-- R169: T45's word without its last byte, after its first byte, and the word of R82 (#UD) without its last byte. -/
theorem witness_OutsidePatternRefused_truncated :
    let w : List Byte := [0x62#8, 0xF2#8, 0xFD#8, 0x49#8, 0x63#8, 0x90#8, 0x03#8, 0#8, 0#8, 0#8]
    let u : List Byte := [0x62#8, 0xF2#8, 0x75#8, 0x49#8, 0x63#8, 0xD1#8]
    (∀ n ∈ [1, 5, 6, 9], let s := start 1 0 0 0 (w.take n)
      inText s.env s.pc.toNat = true ∧ (textFrom s).length < 10 ∧
        decode (textFrom s ++ w.drop n) = .instr (.vpcompresswM512 .none 1 2 (.base 0 (.disp32 3) 0)) 10 ∧
        refuses (step s) (.undecoded .truncated) = true) ∧
      decode (textFrom (start 1 0 0 0 (u.take 5)) ++ u.drop 5) = .ud 6 ∧
      (textFrom (start 1 0 0 0 (u.take 5))).length < 6 := by decide +kernel

/-- 64H 2EH; 64H 67H 65H (two overrides); 40H F0H (a REX byte before another prefix): all prefix bytes, before 62H. -/
theorem witness_PrefixRunsRefused :
    (∀ run ∈ [[0x64#8, 0x2E#8], [0x64#8, 0x67#8, 0x65#8], [0x40#8, 0xF0#8]],
      let s := start 1 0 0 0 (run ++ [0x62#8])
      Mode64 s.env ∧ inText s.env s.pc.toNat = true ∧ textFrom s = run ++ [0x62#8] ∧
        (∀ b ∈ run, isPrefixByte b = true)) ∧ isPrefixByte 0x62 = false ∧
      ([0x64#8, 0x2E#8].any unlistedOverride = true ∧
        refuses (step (start 1 0 0 0 [0x64#8, 0x2E#8, 0x62#8])) (.undecoded .unlistedPrefix) = true) ∧
      ([0x64#8, 0x67#8, 0x65#8].any unlistedOverride = false ∧ ¬ ([0x64#8, 0x67#8, 0x65#8].map prefixKindByte).Nodup ∧
        refuses (step (start 1 0 0 0 [0x64#8, 0x67#8, 0x65#8, 0x62#8])) (.undecoded .repeatedPrefix) = true) ∧
      ([0x40#8, 0xF0#8].any unlistedOverride = false ∧ ([0x40#8, 0xF0#8].map prefixKindByte).Nodup ∧
        ∃ b ∈ [0x40#8, 0xF0#8].dropLast, b.extractLsb' 4 4 = 4#4) := by decide +kernel

/-- `regByte`, six bytes long, alone at address `a`. -/
def placedAt (a : Addr) : State :=
  { start 1 0 0 0 (encode regByte) with pc := a, env := { envReset with progBytes := encode regByte, progBase := a } }

/-- Ending one past 2^64 - 1, and with its last byte the first non-canonical one. -/
theorem witness_InstructionAddressRefused :
    let s := placedAt 0xFFFFFFFFFFFFFFFA
    let u := placedAt 0x7FFFFFFFFFFB
    (Mode64 s.env ∧ inText s.env s.pc.toNat = true ∧ decode (textFrom s) = .instr regByte 6 ∧
      2 ^ 64 - 1 < s.pc.toNat + 6) ∧
      Mode64 u.env ∧ inText u.env u.pc.toNat = true ∧ decode (textFrom u) = .instr regByte 6 ∧
      canonical u.env (u.pc + BitVec.ofNat 64 5) = false := by decide +kernel
/-- One byte lower it runs. -/
theorem test_instruction_address_edge :
    meets (step (placedAt 0xFFFFFFFFFFFFFFF9)) (fun t => t.pc == 0xFFFFFFFFFFFFFFFF#64) = true ∧
      meets (step (placedAt 0x7FFFFFFFFFFA)) (fun t => t.pc == 0x800000000000#64) = true := by decide +kernel
/-- The page of its third byte on may not be fetched. -/
theorem witness_InstructionAddressRefused_fetch :
    let s := { placedAt 0xFFE with env := { (placedAt 0xFFE).env with translate := [⟨⟨0x1000, 0x1FFF⟩, .fetch, .pageFault 5⟩] } }
    Mode64 s.env ∧ inText s.env s.pc.toNat = true ∧ decode (textFrom s) = .instr regByte 6 ∧ s.pc.toNat + 6 < 2 ^ 64 ∧
      (∀ j < 6, canonical s.env (s.pc + BitVec.ofNat 64 j) = true) ∧
      translate s.env (s.pc + BitVec.ofNat 64 2) .fetch = .pageFault 5 ∧
      ∀ l < 2, translate s.env (s.pc + BitVec.ofNat 64 l) .fetch = .ok := by decide +kernel

/-! Addresses. -/

theorem witness_Address32IsTruncation :
    addr32 .addr32 = true ∧ addr32 (.segAddr32 .fs) = true ∧ addr32 (.addr32Seg .gs) = true := by decide
/-- T51: the upper half of RAX is dropped. -/
theorem test_address32 : effectiveAddress (start 0 0 0 0xFFFFFFFF00002000 []) .byte .addr32 rax 7 = 0x2000 := by
  decide +kernel
theorem witness_PositionIndependence :
    segOverride .addr32 = none ∧ (∀ es vl p k src d x b, storeByte.shape ≠ .store es vl p k src (.rip d x b)) ∧
      ∃ t, exec storeByte four = .next t :=
  ⟨rfl, by intros; simp [storeByte, Instr.shape, rax], runs (by decide +kernel)⟩
theorem witness_EncodingsOfOneAddressAgree :
    MemOperand.base 0 .none 0 ∈ sameAddressForms 0 0 0 ∧ MemOperand.sib 0 4 0 (.disp32 0) ∈ sameAddressForms 0 0 0 ∧
      ∃ t, exec (Shape.store .byte .v128 .none 1 2 (.base 0 .none 0)).instr four = .next t :=
  ⟨by decide, by decide, runs (by decide +kernel)⟩

/-- RAX, RBX, RCX, RSI and R12 of T48, T52 and T56, and R13 of T47; R12 is that of T47 in `gprT47`. -/
def gprSib : Vector Addr 16 :=
  (((Vector.replicate 16 0).set 0 0x1000 |>.set 3 0xFFFFFFF0 |>.set 1 8).set 6 0x100).set 12 5
def gprT47 : Vector Addr 16 := ((Vector.replicate 16 0).set 12 0x10000).set 13 3

/-- T47, T48, T49, T52, T53, T56, T58, T59: the linear addresses the vectors give, from their words' operands. -/
theorem test_linear_addresses :
    storeAddr { four with gpr := gprT47 } .byte .none (.sib 12 13 2 (.disp8 8)) = 0x10014 ∧
      storeAddr { four with gpr := gprSib } .word .none (.sibNoBase 6 3 0x20 0) = 0x820 ∧
      storeAddr { four with gpr := gprSib } .byte .none (.sibNoBase 4 0 0x1000 0) = 0x1000 ∧
      storeAddr { four with gpr := gprSib } .word .addr32 (.sib 3 1 2 .none) = 0x10 ∧
      storeAddr { four with gpr := ((Vector.replicate 16 0).set 8 0x2000).set 9 2, gsBase := 0x1000 } .word (.seg .gs)
        (.sib 8 9 3 (.disp8 0x3F)) = 0x308E ∧
      storeAddr { four with gpr := gprSib } .byte .none (.sib 0 12 0 .none) = 0x1005 ∧
      storeAddr { four with gpr := Vector.replicate 16 0x100000000 } .byte .none (.base 0 (.disp32 0x80000000) 0) = 0x80000000 ∧
      storeAddr { four with gpr := Vector.replicate 16 0xFFFFFFFFFFFFFFF0 } .byte .none (.base 0 (.disp8 0x20) 0) = 0x10 := by
  decide +kernel

/-! Compress and the intrinsics. -/

theorem witness_CompressPacksInOrder :
    (∀ j < klOf .byte .v128, (0xFFFF#64).getLsbD j = true) ∧ ∀ j < klOf .byte .v128, (0xFFFF0000#64).getLsbD j = false := by
  decide
theorem witness_CompressTwiceIsOnce :
    ∀ j < klOf .byte .v128, (0xF#64).getLsbD j = decide (j < (compress .byte (klOf .byte .v128) bytes512 0x69).1) := by
  decide +kernel
theorem witness_UnmaskedFormCopies : Enabled four .v128 := by decide
/-- K1 = 69H and its doubling 3CC3H. -/
theorem witness_WordFormIsDoubledByteForm :
    (∀ j < klOf .word .v128, (0x3CC3#64).getLsbD (2 * j) = (readK four 1).getLsbD j ∧
      (0x3CC3#64).getLsbD (2 * j + 1) = (readK four 1).getLsbD j) ∧
      (∃ t, exec (Shape.reg .word .v128 .none false 1 1 2).instr four = .next t) ∧
      ∃ t, exec (Shape.reg .byte .v128 .none false 1 1 2).instr
        { four with kreg := four.kreg.set (1#3).toNat 0x3CC3 (1#3).isLt } = .next t :=
  ⟨by decide +kernel, runs (by decide +kernel), runs (by decide +kernel)⟩
theorem witness_StoreWritesZeroingResult :
    (∃ t, exec (Shape.store .byte .v128 .none 1 2 rax).instr four = .next t) ∧
      ∃ t, exec (Shape.reg .byte .v128 .none true 1 1 2).instr four = .next t :=
  ⟨runs (by decide +kernel), runs (by decide +kernel)⟩
theorem witness_MaskCompressIsMergingForm : (1#3 : KReg) ≠ 0#3 ∧ ∃ t, exec regByte four = .next t :=
  ⟨by decide, runs (by decide +kernel)⟩
theorem witness_MaskzCompressIsZeroingForm :
    (1#3 : KReg) ≠ 0#3 ∧ ∃ t, exec (.vpcompresswYmm .none true 1 1 2) four = .next t := ⟨by decide, runs (by decide +kernel)⟩
theorem witness_CompressStoreuIsStoreForm : (1#3 : KReg) ≠ 0#3 ∧
    (∃ t, compressStoreu .byte .v128 .ds 0x1000 0x69 (bytes512.setWidth 128) four = .next t) ∧
    ∃ t, exec storeByte four = .next t := ⟨by decide, runs (by decide +kernel), runs (by decide +kernel)⟩
/-- Two bytes below 2^64: two bytes fit, the three of k = 7 wrap and are refused (T88). -/
theorem witness_CompressStoreuIsStoreForm_wrap :
    Enabled four .v128 ∧ 0 < (maskBits 7#16).length ∧
      2 ^ 64 < (0xFFFFFFFFFFFFFFFE : Addr).toNat + (maskBits 7#16).length * esize .byte ∧
      refuses (mm_mask_compressstoreu_epi8 .ds 0xFFFFFFFFFFFFFFFE 7 0x030201 four) .storeWraps = true ∧
      meets (mm_mask_compressstoreu_epi8 .ds 0xFFFFFFFFFFFFFFFE 3 0x030201 four)
        (fun t => byteAt t 0xFFFFFFFFFFFFFFFF == some 2#8 && memWf t.mem) = true := by decide +kernel

/-! Invariants and runs. -/

theorem witness_StepKeepsInvariant : MachineInv running ∧ ∃ t, step running = .next t :=
  ⟨by decide +kernel, runs (by decide +kernel)⟩
theorem witness_ProgramRunsInOrder :
    (∀ i ∈ twoInstrs, i.wf = true) ∧ running.env.progBytes = twoInstrs.flatMap encode ∧
      running.pc = running.env.progBase ∧ Mode64 running.env ∧ TextFetchable running.env ∧
      running.env.progBase.toNat + running.env.progBytes.length < 2 ^ 64 ∧
      (∃ t, Sys2Proof.core.run 1 running = .next t) ∧ ∃ t, Sys2Proof.core.run 2 running = .next t := by
  refine ⟨by decide, rfl, rfl, rfl, by decide +kernel, by decide +kernel, ?_, ?_⟩
  · exact runs (show meets (Sys2Proof.core.run 1 running) (fun _ => true) = true by decide +kernel)
  · exact runs (show meets (Sys2Proof.core.run 2 running) (fun _ => true) = true by decide +kernel)

end Sys2Proof.Tests
end

section
/-! SUPPORT. What a completing instruction leaves unchanged, and that an outcome depends neither on mask bits at and above
KL (R24) nor on RFLAGS and MXCSR (R28): running in a changed state is running and then making the same change. -/

namespace Sys2Proof.Machine

open Sys2Proof.Claims

/-! ## The frame of a completing instruction -/

/-- R22, R25, R26, R28: completing changes no register but a vector destination and `pc`. -/
theorem exec_sameOtherState {i : Instr} {s t : State} (h : exec i s = .next t) : SameOtherState s t := by
  cases hi : i.shape with
  | store es vl p k src m =>
    rw [exec_store hi] at h
    obtain ⟨_, _, rfl⟩ := storeForm_next h
    simp [SameOtherState]
  | reg es vl p z k dst src =>
    rw [exec_reg hi] at h
    obtain ⟨_, rfl⟩ := regForm_next h
    simp [SameOtherState]

/-! ## The opmask registers -/

/-- `s` with the opmask registers `r`. -/
def withKreg (r : Vector Mask 8) (s : State) : State := { s with kreg := r }

/-- K[k] after a write to it alone. -/
theorem readK_withKreg_set (s : State) (k : KReg) (v : Mask) :
    readK (withKreg (s.kreg.set k.toNat v k.isLt) s) k = v := by
  simp [readK, withKreg]

/-- R24, R69: the mask of R100 sees the writemask register below KL alone, and no register when aaa = 000. -/
theorem writemask_congr {s s' : State} {k : KReg} (es : ElemSize) (vl : VecLen)
    (h : k ≠ 0#3 → ∀ j < klOf es vl, (readK s' k).getLsbD j = (readK s k).getLsbD j) :
    writemask s' k (klOf es vl) = writemask s k (klOf es vl) := by
  refine BitVec.eq_of_getLsbD_eq fun j _ => ?_
  rw [getLsbD_writemask _ _ _ _ (klOf_le es vl), getLsbD_writemask _ _ _ _ (klOf_le es vl)]
  by_cases hk : k = 0#3
  · simp [hk]
  · by_cases hj : j < klOf es vl
    · rw [h hk j hj]
    · simp [hj]

/-- An instruction reads of the opmask registers only the bits below KL of its writemask register, and writes none. -/
theorem exec_withKreg (i : Instr) (s : State) (r : Vector Mask 8)
    (h : (maskOf i).1 ≠ 0#3 → ∀ j < (maskOf i).2,
      (readK (withKreg r s) (maskOf i).1).getLsbD j = (readK s (maskOf i).1).getLsbD j) :
    exec i (withKreg r s) = mapOut (withKreg r) (exec i s) := by
  cases hi : i.shape with
  | store es vl p k src m =>
    simp only [maskOf, hi] at h
    have hc : compressSource (withKreg r s) es vl k src = compressSource s es vl k src := by
      rw [compressSource, writemask_congr es vl h]; rfl
    rw [exec_store hi, exec_store hi]
    exact storeForm_map (withKreg r) rfl rfl rfl rfl hc fun _ _ _ _ => rfl
  | reg es vl p z k dst src =>
    simp only [maskOf, hi] at h
    rw [exec_reg hi, exec_reg hi]
    refine regForm_map (withKreg r) rfl rfl ?_
    rw [writemask_congr es vl h]; rfl

/-- Settles O9: the write changes the writemask register at and above KL alone, which `exec_withKreg` says is not read. -/
theorem maskBitsAboveKlIgnored : Obligations.MaskBitsAboveKlIgnored := by
  intro i s v h
  refine exec_withKreg i s _ fun _ j hj => ?_
  rw [readK_withKreg_set, h j hj]

/-! ## RFLAGS and MXCSR -/

/-- `s` with RFLAGS `f` and MXCSR `x`. -/
def withFlags (f : BitVec 64) (x : BitVec 32) (s : State) : State := { s with rflags := f, mxcsr := x }

/-- R28 for the meanings: both templates pass the flags through untouched. -/
theorem exec_withFlags (i : Instr) (s : State) (f : BitVec 64) (x : BitVec 32) :
    exec i (withFlags f x s) = mapOut (withFlags f x) (exec i s) := by
  cases hi : i.shape with
  | store es vl p k src m =>
    rw [exec_store hi, exec_store hi]
    exact storeForm_map (withFlags f x) rfl rfl rfl rfl rfl fun _ _ _ _ => rfl
  | reg es vl p z k dst src =>
    rw [exec_reg hi, exec_reg hi]
    exact regForm_map (withFlags f x) rfl rfl rfl

/-- The fetch reads no flag: it reads `pc` and the environment. -/
theorem fetchInstr_withFlags (s : State) (f : BitVec 64) (x : BitVec 32) :
    fetchInstr (withFlags f x s) = fetchInstr s := rfl

/-- R28 for fetch and meaning together, stops included. -/
theorem step_withFlags (s : State) (f : BitVec 64) (x : BitVec 32) :
    step (withFlags f x s) = mapOut (withFlags f x) (step s) := by
  rw [step, step, fetchInstr_withFlags]
  cases fetchInstr s with
  | run i => exact exec_withFlags i s f x
  | stop y => exact (mapOut_stop _ y).symm

/-- Settles O11: a completing step keeps both by its instruction's frame, and other flags run to the same outcome. -/
theorem flagsNeitherReadNorWritten : Obligations.FlagsNeitherReadNorWritten := by
  refine ⟨fun s t h => ?_, step_withFlags⟩
  obtain ⟨i, _, _, _, _, _, hexec⟩ := step_next h
  obtain ⟨_, _, _, _, hflags, hmxcsr, _⟩ := exec_sameOtherState hexec
  exact ⟨hflags, hmxcsr⟩

end Sys2Proof.Machine
end

section
/-! SUPPORT. What a completing store leaves unchanged (R45), and that the program text is never written (R57). -/

namespace Sys2Proof.Machine

open Sys2Proof.Claims Sys2Proof.Safety

/-! ## The frame of a store -/

/-- The count of bytes the model computes is the statements' n (R44). -/
theorem storeCount_eq_storeBytes (s : State) (es : ElemSize) (vl : VecLen) (k : KReg) (src : VReg) :
    storeCount s es vl k src = storeBytes s es vl k := storeCount_eq s es vl k src

/-- A store instruction that completes has n writable bytes at LA and commits exactly those (R44, R107). -/
theorem exec_store_next {i : Instr} {es : ElemSize} {vl : VecLen} {p : Prefixes} {k : KReg} {src : VReg} {m : MemOperand}
    {s t : State} (hi : i.shape = .store es vl p k src m) (h : exec i s = .next t) :
    Storable s (storeAddr s es p m) (storeBytes s es vl k) ∧
      t = complete (storeCommit s es (storeAddr s es p m) (storeBytes s es vl k) (compressSource s es vl k src).2)
        (storeLen p m) := by
  rw [exec_store hi] at h
  obtain ⟨_, hstop, ht⟩ := storeForm_next h
  rw [storeCount_eq_storeBytes] at hstop ht
  obtain ⟨hstorable, _⟩ := storeStop_none_iff.1 hstop
  exact ⟨hstorable, ht⟩

/-- Settles O6: the commit changes the n bytes at LA alone, which are data, and the registers are those of the frame. -/
theorem storeFormsFrame : Obligations.StoreFormsFrame := by
  intro i es vl p k src m hi s t h
  obtain ⟨⟨_, hbytes⟩, rfl⟩ := exec_store_next hi h
  refine ⟨by simp, exec_sameOtherState h, fun a ha => ?_⟩
  rw [byteAt_storeCommit (fun j hj => (hbytes j hj).1), if_neg (by omega)]

/-! ## The program text -/

/-- A range with a byte of the text in it overlaps the text. -/
theorem overlapsText_of_inText {e : Env} {la n j : Nat} (hj : j < n) (h : inText e (la + j) = true) :
    overlapsText e la n = true := by
  rw [← Bool.not_eq_false, overlapsText_eq_false]
  intro hnone
  rw [hnone j hj] at h
  cases h

/-- R107 step 3: the overlap with the text stands before every check but that of the wrap. -/
theorem storeStop_of_overlapsText {s : State} {la : Addr} {n : Nat} (es : ElemSize) (seg : Segment)
    (hw : la.toNat + n ≤ 2 ^ 64) (ho : overlapsText s.env la.toNat n = true) :
    storeStop s es seg la n = some (.refuse .storeOverlapsText) := by
  rw [storeStop, if_neg (by omega), if_pos ho]

/-- A byte of the text is read from the environment alone, whatever memory lists. -/
theorem byteAt_text_congr {s t : State} {a : Nat} (henv : t.env = s.env) (h : inText s.env a = true) :
    byteAt t a = byteAt s a := by
  rw [byteAt_text h, byteAt_text (henv ▸ h), henv]

/-- Settles O25: the overlap check refuses the store, and a completing instruction keeps the environment that holds the
text. -/
theorem textIsImmutable : Obligations.TextIsImmutable := by
  refine ⟨fun i es vl p k src m hi s hen hw ⟨j, hj, htext⟩ => ?_, fun i s t a h htext => ?_⟩
  · have hstop := storeStop_of_overlapsText es (segmentOf p m) hw (overlapsText_of_inText hj htext)
    rw [← storeCount_eq_storeBytes s es vl k src] at hstop
    rw [exec_store hi, storeForm_of_stop ((enabledStop_none_iff vl s).2 hen) hstop, Stop.out_refuse]
  · obtain ⟨_, _, _, _, _, _, henv⟩ := exec_sameOtherState h
    exact byteAt_text_congr henv htext

end Sys2Proof.Machine
end

section
/-! SUPPORT. What the decoder answers for the register and the store form of the pattern (30_encoding.md R81 to R87): #UD when
a field is reserved, and otherwise the instruction that W, L'L and `mod` select. -/

namespace Sys2Proof

/-! ## The reserved fields (R82 to R87) -/

/-- R84: L'L = 11 is no vector length. -/
theorem ll_ne_of_vecLenOf {l : BitVec 2} {vl : VecLen} (h : vecLenOf l = some vl) : l ≠ 0b11#2 := by
  rintro rfl
  cases h

/-- Of the two values of a one-bit field, not the one is the other. -/
theorem bit_ne_iff (b : BitVec 1) : (b ≠ 0#1 ↔ b = 1#1) ∧ (b ≠ 1#1 ↔ b = 0#1) := by revert b; decide

/-- The decoder's check is the disjunction of R82, R85, R86 and R87. -/
theorem reservedBroken_iff (f : EvexFields) :
    reservedBroken f = true ↔ f.vvvv ≠ 0b1111#4 ∨ f.bc = 1#1 ∨ f.v' = 0#1 ∨ f.p0bit3 = 1#1 ∨ f.p1bit2 = 0#1 ∨
      (f.z = 1#1 ∧ f.aaa = 0#3) := by
  simp only [reservedBroken, Bool.or_eq_true, Bool.and_eq_true, bne_iff_ne, beq_iff_eq, bit_ne_iff, or_assoc]

/-- The fields that raise #UD: L'L = 11 (R84) and those of `reservedBroken` in either form, and z = 1 in a store form (R83). -/
def UdFields (f : EvexFields) (modrm : Byte) : Prop :=
  f.ll = 0b11#2 ∨ reservedBroken f = true ∨ (modrm.extractLsb' 6 2 ≠ 0b11#2 ∧ f.z = 1#1)

/-! ## The register form -/

/-- R82, R84 to R87 in the register form, whatever the prefixes. -/
theorem decodeReg_ud {f : EvexFields} (k : Nat) (o : Option Prefixes) (modrm : Byte)
    (h : f.ll = 0b11#2 ∨ reservedBroken f = true) : decodeReg k o f modrm = .ud (k + 6) := by
  unfold decodeReg
  split
  case h_1 p vl hvl =>
    have hll := ll_ne_of_vecLenOf hvl
    exact if_pos (h.resolve_left hll)
  case h_2 => rfl

/-- The instruction of a register form: W and L'L select it, and no field is reserved. -/
theorem decodeReg_instr {k n : Nat} {o : Option Prefixes} {f : EvexFields} {modrm : Byte} {i : Instr}
    (h : decodeReg k o f modrm = .instr i n) :
    ∃ p vl, o = some p ∧ f.ll = vl.ll ∧ reservedBroken f = false ∧ n = k + 6 ∧
      i = (Shape.reg (elemSizeOf f.w) vl p (f.z == 1#1) f.aaa (~~~f.x ++ ~~~f.b ++ modrm.extractLsb' 0 3)
        (~~~f.r' ++ ~~~f.r ++ modrm.extractLsb' 3 3)).instr := by
  unfold decodeReg at h
  dsimp only at h
  split at h
  case h_1 p vl hvl =>
    split at h
    · cases h
    · rename_i hfields
      cases h
      exact ⟨p, vl, rfl, vecLenOf_some hvl, Bool.eq_false_of_not_eq_true hfields, rfl, rfl⟩
  case h_2 => cases h

/-! ## The store form -/

section store
variable {k n : Nat} {o : Option Prefixes} {f : EvexFields} {modrm : Byte} {bs : List Byte} {m : MemOperand} {i : Instr}

/-- R82 to R87 in a complete store form, whatever the prefixes. -/
theorem decodeStore_ud
    (hm : takeMem (modrm.extractLsb' 6 2) (modrm.extractLsb' 0 3) (~~~f.x) (~~~f.b) bs = some m)
    (hlen : k + 6 + m.len ≤ Config.maxInstrBytes) (h : f.ll = 0b11#2 ∨ reservedBroken f = true ∨ f.z = 1#1) :
    decodeStore k o f modrm bs = .ud (k + 6 + m.len) := by
  simp only [decodeStore, hm, if_neg (Nat.not_lt.2 hlen)]
  split
  case h_1 p vl hvl =>
    have hll := ll_ne_of_vecLenOf hvl
    exact if_pos (by simpa using h.resolve_left hll)
  case h_2 => rfl

/-- The instruction of a store form: W and L'L select it, and no field is reserved. -/
theorem decodeStore_instr (h : decodeStore k o f modrm bs = .instr i n) :
    ∃ p vl m, o = some p ∧ f.ll = vl.ll ∧ reservedBroken f = false ∧ f.z ≠ 1#1 ∧
      takeMem (modrm.extractLsb' 6 2) (modrm.extractLsb' 0 3) (~~~f.x) (~~~f.b) bs = some m ∧ n = k + 6 + m.len ∧
      i = (Shape.store (elemSizeOf f.w) vl p f.aaa (~~~f.r' ++ ~~~f.r ++ modrm.extractLsb' 3 3) m).instr := by
  unfold decodeStore at h
  split at h
  case h_1 => cases h
  case h_2 m hm =>
    dsimp only at h
    split at h
    · cases h
    · split at h
      case h_1 p vl hvl =>
        split at h
        · cases h
        · rename_i hfields
          cases h
          simp only [Bool.or_eq_true, beq_iff_eq, not_or, Bool.not_eq_true] at hfields
          obtain ⟨hres, hz⟩ := hfields
          exact ⟨p, vl, m, rfl, vecLenOf_some hvl, hres, hz, hm, rfl, rfl⟩
      case h_2 => cases h

end store

/-! ## Either form -/

open Machine Safety Claims

/-- R82 to R87: a complete byte string of the pattern with reserved fields decodes to #UD of its length. -/
theorem decode_pattern_ud {p : Prefixes} {p0 p1 p2 modrm : Byte} {rest : List Byte} {n : Nat}
    (hpat : inPattern (evexFields p0 p1 p2) 0x63#8 = true) (hn : patternLen p (evexFields p0 p1 p2) modrm rest = some n)
    (h : UdFields (evexFields p0 p1 p2) modrm) :
    decode (p.bytes ++ 0x62#8 :: p0 :: p1 :: p2 :: 0x63#8 :: modrm :: rest) = .ud n := by
  rw [decode_evex p p0 p1 p2 modrm rest hpat]
  rw [patternLen] at hn
  split
  case isTrue hmod =>
    rw [if_pos hmod] at hn
    cases hn
    exact decodeReg_ud p.len (some p) modrm (h.imp_right fun h => h.resolve_right fun ⟨hstore, _⟩ => hstore hmod)
  case isFalse hmod =>
    rw [if_neg hmod, Option.map_eq_some_iff] at hn
    obtain ⟨m, hm, rfl⟩ := hn
    have hlen : p.len + 6 + m.len ≤ 15 := by have := p.len_le; have := m.len_le; omega
    exact decodeStore_ud hm hlen (h.imp_right (Or.imp_right And.right))

/-- R131, R132: such a byte string at `pc` raises #UD. -/
theorem step_of_udFields {s : State} {p : Prefixes} {p0 p1 p2 modrm : Byte} {rest : List Byte}
    (hs : FetchesPattern s p p0 p1 p2 modrm rest) (h : UdFields (evexFields p0 p1 p2) modrm) :
    step s = .fault (.invalidOpcode s.pc) := by
  obtain ⟨hmode, htext, hbytes, hpat, n, hn, hfetch⟩ := hs
  exact step_of_ud hmode htext (hbytes ▸ decode_pattern_ud hpat hn h) hfetch

/-- Settles O13: vvvv is among the fields both forms check. -/
theorem reservedVvvvRaisesUd : Obligations.ReservedVvvvRaisesUd := by
  intro s p p0 p1 p2 modrm rest hs hv
  have hres := (reservedBroken_iff _).2 (.inl hv)
  exact step_of_udFields hs (.inr (.inl hres))

/-- Settles O14: z = 1 is among the fields the store form checks. -/
theorem zeroingStoreRaisesUd : Obligations.ZeroingStoreRaisesUd := by
  intro s p p0 p1 p2 modrm rest hs hmod hz
  exact step_of_udFields hs (.inr (.inr ⟨hmod, hz⟩))

/-- Settles O15: L'L = 11 has no vector length, and the other fields are those both forms check. -/
theorem reservedFieldsRaiseUd : Obligations.ReservedFieldsRaiseUd := by
  intro s p p0 p1 p2 modrm rest hs h
  obtain hll | hfield := h
  · exact step_of_udFields hs (.inl hll)
  · have hres := (reservedBroken_iff _).2 (.inr hfield)
    exact step_of_udFields hs (.inr (.inl hres))

/-- Settles O37: `mod` selects the form's decoder, whose instruction has the element size of W and the length of L'L. -/
theorem formSelection : Obligations.FormSelection := by
  intro p p0 p1 p2 modrm rest i n hpat h
  rw [decode_evex p p0 p1 p2 modrm rest hpat] at h
  refine ⟨fun hmod => ?_, fun hmod => ?_⟩
  · rw [if_pos hmod] at h
    obtain ⟨_, vl, ho, hll, _, _, rfl⟩ := decodeReg_instr h
    cases ho
    exact ⟨vl, _, _, _, _, hll.symm, rfl⟩
  · rw [if_neg hmod] at h
    obtain ⟨_, vl, m, ho, hll, _, _, _, _, rfl⟩ := decodeStore_instr h
    cases ho
    exact ⟨vl, _, _, m, hll.symm, rfl⟩

end Sys2Proof
end

section
/-! SUPPORT. The active positions as a list (40_vpcompressb.md R100): ascending, all below KL or none, and what `compress`
gives in those two extreme cases. -/

namespace Sys2Proof.Machine

/-! ## The positions of the 1 bits -/

theorem mem_positions {m : Mask} {n j : Nat} : j ∈ positions m n ↔ j < n ∧ m.getLsbD j = true := by
  rw [positions, List.mem_filter, List.mem_range]

theorem positions_ascending (m : Mask) (n : Nat) : (positions m n).Pairwise (· < ·) :=
  List.pairwise_lt_range.filter _

/-- In an ascending list no entry is below its index. -/
theorem le_getElem_of_ascending {js : List Nat} (h : js.Pairwise (· < ·)) (i : Nat) (hi : i < js.length) : i ≤ js[i] := by
  induction i with
  | zero => exact Nat.zero_le _
  | succ i ih =>
    have hprev := ih (by omega)
    have hlt := List.pairwise_iff_getElem.1 h i (i + 1) (by omega) hi (Nat.lt_succ_self i)
    omega

theorem positions_eq_range {m : Mask} {n : Nat} (h : ∀ j < n, m.getLsbD j = true) : positions m n = List.range n :=
  List.filter_eq_self.2 fun j hj => h j (List.mem_range.1 hj)

theorem positions_eq_nil {m : Mask} {n : Nat} (h : ∀ j < n, m.getLsbD j = false) : positions m n = [] :=
  List.filter_eq_nil_iff.2 fun j hj => by simp [h j (List.mem_range.1 hj)]

/-! ## All elements active, and none -/

/-- With all ones every element keeps its place, so the packed value has the source's low VL bits. -/
theorem getLsbD_compress_of_all {es : ElemSize} {vl : VecLen} {src : Vec} {m : Mask}
    (h : ∀ j < klOf es vl, m.getLsbD j = true) {b : Nat} (hb : b < vlBits vl) :
    (compress es (klOf es vl) src m).2.getLsbD b = src.getLsbD b := by
  have hi : b / ebits es < klOf es vl := by rwa [Nat.div_lt_iff_lt_mul (ebits_pos es), klOf_mul_ebits]
  have helem : elem es (compress es (klOf es vl) src m).2 (b / ebits es) = elem es src (b / ebits es) := by
    rw [compress_elem es vl src m (by simpa [positions_eq_range h] using hi)]
    simp [positions_eq_range h]
  have hbit := getLsbD_of_elem_eq helem (Nat.mod_lt b (ebits_pos es))
  rwa [Nat.div_add_mod] at hbit

/-- With no ones nothing is counted and everything lies above the packed elements. -/
theorem compress_of_none {es : ElemSize} {vl : VecLen} (src : Vec) {m : Mask}
    (h : ∀ j < klOf es vl, m.getLsbD j = false) : compress es (klOf es vl) src m = (0, 0) := by
  have hnil := positions_eq_nil h
  have hcount : (compress es (klOf es vl) src m).1 = 0 := by rw [compress_count, hnil, List.length_nil]
  have hpacked : (compress es (klOf es vl) src m).2 = 0 := BitVec.eq_of_getLsbD_eq fun b _ => by
    rw [compress_above es vl src m (by simp [hnil])]; simp
  exact Prod.ext hcount hpacked

/-- Settles O44: the list is `positions`, whose order gives j_0 < j_1 < … and with it i ≤ j_i. -/
theorem compressPacksInOrder : Obligations.CompressPacksInOrder := by
  intro es vl src m
  have hasc := positions_ascending m (klOf es vl)
  refine ⟨⟨positions m (klOf es vl), hasc, fun j => mem_positions, compress_count es vl src m, positions_length_le _ _,
    fun i h => ⟨compress_elem es vl src m h, le_getElem_of_ascending hasc i h⟩, fun b => compress_above es vl src m⟩,
    fun h => ⟨?_, fun b => getLsbD_compress_of_all h⟩, compress_of_none src⟩
  rw [compress_count, positions_eq_range h, List.length_range]

end Sys2Proof.Machine
end

section
/-! SUPPORT. The vector-returning intrinsics (42_intrinsics.md R122, R123): what a register form leaves in the low VL bits of
its destination is the intrinsic's value of the low VL bits of its operands and the low KL bits of its writemask. -/

namespace Sys2Proof.Machine

section masked
variable {i : Instr} {es : ElemSize} {vl : VecLen} {p : Prefixes} {z : Bool} {k : KReg} {dst src : VReg} {s t : State}

/-- R24, R69: with aaa not 000 the mask of R100 is the low KL bits of the named register. -/
theorem writemask_of_ne (hk : k ≠ 0#3) (kl : Nat) : writemask s k kl = ((readK s k).setWidth kl).setWidth 64 := by
  rw [writemask, if_neg hk]

/-- The low VL bits of a vector, kept in 512 bits, are bit by bit its own. -/
theorem getLsbD_setWidth_vlBits (v : Vec) {b : Nat} (hb : b < vlBits vl) :
    ((v.setWidth (vlBits vl)).setWidth 512).getLsbD b = v.getLsbD b := by
  have hv := vlBits_le vl
  simp [hb, show b < 512 by omega]

/-- R108: what a completed masked register form leaves in its destination. -/
theorem readZmm_dst_of_masked (hi : i.shape = .reg es vl p z k dst src) (hk : k ≠ 0#3) (h : exec i s = .next t) :
    readZmm t dst = regResult es vl z (((readK s k).setWidth (klOf es vl)).setWidth 64) (readZmm s dst)
      (sourceValue s src vl) := by
  rw [exec_reg hi] at h
  obtain ⟨_, rfl⟩ := regForm_next h
  rw [readZmm_complete, readZmm_writeZmm_same, writemask_of_ne hk]

/-- R122 at every element size and length: merging keeps no bit of the old destination at or above VL, so its low VL bits
serve as `src`. -/
theorem readZmm_dst_eq_maskCompress (hi : i.shape = .reg es vl p false k dst src) (hk : k ≠ 0#3)
    (h : exec i s = .next t) :
    (readZmm t dst).setWidth (vlBits vl) = maskCompress es vl ((readZmm s dst).setWidth (vlBits vl))
      ((readK s k).setWidth (klOf es vl)) ((readZmm s src).setWidth (vlBits vl)) := by
  rw [readZmm_dst_of_masked hi hk h, maskCompress, sourceValue]
  exact congrArg _ (regResult_congr (fun _ _ => rfl) (fun _ _ => rfl) fun _ _ hb => (getLsbD_setWidth_vlBits _ hb).symm)

/-- R123 at every element size and length: zeroing reads no bit of the old destination, so it may as well be 0. -/
theorem readZmm_dst_eq_maskzCompress (hi : i.shape = .reg es vl p true k dst src) (hk : k ≠ 0#3)
    (h : exec i s = .next t) :
    (readZmm t dst).setWidth (vlBits vl) =
      maskzCompress es vl ((readK s k).setWidth (klOf es vl)) ((readZmm s src).setWidth (vlBits vl)) := by
  rw [readZmm_dst_of_masked hi hk h, maskzCompress, sourceValue]
  exact congrArg _ (regResult_congr (fun _ _ => rfl) (fun _ _ => rfl) nofun)

end masked

/-- Settles O50: each intrinsic is `maskCompress` at its element size and length. -/
theorem maskCompressIsMergingForm : Obligations.MaskCompressIsMergingForm := by
  intro s p k dst src hk
  exact ⟨fun _ => readZmm_dst_eq_maskCompress (es := .byte) (vl := .v128) rfl hk,
    fun _ => readZmm_dst_eq_maskCompress (es := .byte) (vl := .v256) rfl hk,
    fun _ => readZmm_dst_eq_maskCompress (es := .byte) (vl := .v512) rfl hk,
    fun _ => readZmm_dst_eq_maskCompress (es := .word) (vl := .v128) rfl hk,
    fun _ => readZmm_dst_eq_maskCompress (es := .word) (vl := .v256) rfl hk,
    fun _ => readZmm_dst_eq_maskCompress (es := .word) (vl := .v512) rfl hk⟩

/-- Settles O51: each intrinsic is `maskzCompress` at its element size and length. -/
theorem maskzCompressIsZeroingForm : Obligations.MaskzCompressIsZeroingForm := by
  intro s p k dst src hk
  exact ⟨fun _ => readZmm_dst_eq_maskzCompress (es := .byte) (vl := .v128) rfl hk,
    fun _ => readZmm_dst_eq_maskzCompress (es := .byte) (vl := .v256) rfl hk,
    fun _ => readZmm_dst_eq_maskzCompress (es := .byte) (vl := .v512) rfl hk,
    fun _ => readZmm_dst_eq_maskzCompress (es := .word) (vl := .v128) rfl hk,
    fun _ => readZmm_dst_eq_maskzCompress (es := .word) (vl := .v256) rfl hk,
    fun _ => readZmm_dst_eq_maskzCompress (es := .word) (vl := .v512) rfl hk⟩

end Sys2Proof.Machine
end

section
/-! SUPPORT. Which exceptions an instruction raises (60_exceptions.md): #UD and #NM come from the enabling checks alone (R133 to
R135), and every other fault from the checks of a store on its n bytes (R136 to R140). -/

namespace Sys2Proof.Machine

open Sys2Proof.Claims Sys2Proof.Safety

/-! ## The enabling checks -/

/-- R133, R134: in `Long64` the enabling checks stop with #UD exactly when the OS support or a feature flag is missing. -/
theorem enabledStop_ud_iff {vl : VecLen} {s : State} (hm : s.env.mode = .long64) :
    enabledStop vl s = some (.fault (.invalidOpcode s.pc)) ↔
      s.env.osAvx512Enabled = false ∨ featuresPresent s.env vl = false := by
  cases hos : s.env.osAvx512Enabled
  · simp [enabledStop, hm, hos]
  · cases hf : featuresPresent s.env vl <;> cases hts : s.env.cr0Ts <;>
      simp [enabledStop, hm, hos, hf, hts]

/-- R135: past R133 and R134, the enabling checks stop with #NM exactly when cr0_ts is set. -/
theorem enabledStop_nm_iff {vl : VecLen} {s : State} (hm : s.env.mode = .long64) (hos : s.env.osAvx512Enabled = true)
    (hf : FeaturesPresent s.env vl) :
    enabledStop vl s = some (.fault (.deviceNotAvailable s.pc)) ↔ s.env.cr0Ts = true := by
  cases hts : s.env.cr0Ts <;>
    simp [enabledStop, hm, hos, (featuresPresent_iff _ _).2 hf, hts]

/-- R133, R134: the enabling checks raise #UD and #NM only. -/
theorem enabledStop_fault {vl : VecLen} {s : State} {f : Fault} (h : enabledStop vl s = some (.fault f)) :
    f = .invalidOpcode s.pc ∨ f = .deviceNotAvailable s.pc := by
  rcases enabledStop_some h with ⟨_, e⟩ | ⟨_, _, e⟩ | ⟨_, _, _, _, e⟩ <;> cases e <;> simp

/-- Both forms begin with the enabling checks (R107 step 1, R108). -/
theorem exec_of_enabledStop {i : Instr} {s : State} {x : Stop} (h : enabledStop (vecLen i) s = some x) :
    exec i s = x.out := by
  cases hi : i.shape with
  | store es vl p k src m =>
    simp only [vecLen, hi] at h
    rw [exec_store hi, storeForm_of_disabled h]
  | reg es vl p z k dst src =>
    simp only [vecLen, hi] at h
    rw [exec_reg hi]
    simp only [regForm, h]

/-! ## The store checks -/

section store
variable {i : Instr} {es : ElemSize} {vl : VecLen} {p : Prefixes} {k : KReg} {src : VReg} {m : MemOperand} {s : State}
  {seg : Segment} {la : Addr} {n j : Nat} {c : BitVec 32} {f : Fault}

/-- R136, R137: the fault of a non-canonical address, by segment. -/
theorem addressStop_eq (seg : Segment) (s : State) :
    addressStop seg s = .fault (if seg = .ss then .stackSegment s.pc else .generalProtection s.pc) := by
  by_cases h : seg = .ss <;> simp [addressStop, h]

/-- R136 to R140: the faults the store checks raise, each with its cause. -/
theorem storeStop_fault (h : storeStop s es seg la n = some (.fault f)) :
    (((∃ j < n, canonical s.env (la + BitVec.ofNat 64 j) = false) ∨ (n = 0 ∧ canonical s.env la = false)) ∧
        f = if seg = .ss then .stackSegment s.pc else .generalProtection s.pc) ∨
      f = .alignmentCheck s.pc ∨
      ∃ c, ∃ j < n, translate s.env (la + BitVec.ofNat 64 j) .write = .pageFault c ∧
        (∀ l < j, translate s.env (la + BitVec.ofNat 64 l) .write = .ok) ∧
        f = .pageFault c (la + BitVec.ofNat 64 j) s.pc := by
  rcases storeStop_some h with e | e | ⟨hcause, e⟩ | ⟨_, ⟨_, e⟩ | ⟨c, j, hj, hpf, hok, e⟩ | e⟩
  · cases e
  · cases e
  · rw [addressStop_eq, Stop.fault.injEq] at e
    exact .inl ⟨hcause.imp_right fun ⟨hn, hc, _⟩ => ⟨hn, hc⟩, e⟩
  · cases e; exact .inr (.inl rfl)
  · cases e; exact .inr (.inr ⟨c, j, hj, hpf, hok, rfl⟩)
  · cases e

/-- R107 step 3: past the wrap and the overlap with the text, a non-canonical byte of the range decides. -/
theorem storeStop_of_nonCanonical (hw : la.toNat + n ≤ 2 ^ 64) (ht : ∀ l < n, inText s.env (la.toNat + l) = false)
    (hj : j < n) (hc : canonical s.env (la + BitVec.ofNat 64 j) = false) :
    storeStop s es seg la n = some (addressStop seg s) := by
  have ho := (overlapsText_eq_false s.env la.toNat n).2 ht
  have hnc : anyByte la n (fun a => !canonical s.env a) = true := (anyByte_eq_true _ _ _).2 ⟨j, hj, by simp [hc]⟩
  rw [storeStop, if_neg (by omega), if_neg (by simp [ho]), if_pos hnc]

/-- R107 step 3, R142: past the refusals and the canonical check, a byte `Translate` denies is reported if it is the lowest,
unless #AC comes first. -/
theorem storeStop_of_pageFault (hw : la.toNat + n ≤ 2 ^ 64) (ht : ∀ l < n, inText s.env (la.toNat + l) = false)
    (hc : ∀ l < n, canonical s.env (la + BitVec.ofNat 64 l) = true) (hj : j < n)
    (hpf : translate s.env (la + BitVec.ofNat 64 j) .write = .pageFault c)
    (hok : ∀ l < j, translate s.env (la + BitVec.ofNat 64 l) .write = .ok) :
    (acOpen s es la n = true ∧ storeStop s es seg la n = some (.fault (.alignmentCheck s.pc))) ∨
      storeStop s es seg la n = some (.fault (.pageFault c (la + BitVec.ofNat 64 j) s.pc)) := by
  have ho := (overlapsText_eq_false s.env la.toNat n).2 ht
  have hnc : anyByte la n (fun a => !canonical s.env a) = false :=
    (anyByte_eq_false _ _ _).2 fun l hl => by simp [hc l hl]
  have hn : ¬(n = 0 ∧ canonical s.env la = false ∧ zeroLenRaises s = true) := by omega
  rw [storeStop, if_neg (by omega), if_neg (by simp [ho]), if_neg (by simp [hnc]), if_neg hn]
  by_cases hac : (acOpen s es la n && Config.acDraw s.draws) = true
  · rw [if_pos hac]
    exact .inl ⟨(Bool.and_eq_true_iff.1 hac).1, rfl⟩
  · rw [if_neg hac, pageFaultIn_eq_some hj hpf hok]
    exact .inr rfl

/-- An enabled store instruction raises exactly the faults of its store checks on the n bytes at LA. -/
theorem exec_store_fault_iff (hi : i.shape = .store es vl p k src m) (hen : Enabled s vl) :
    exec i s = .fault f ↔
      storeStop s es (segmentOf p m) (storeAddr s es p m) (storeBytes s es vl k) = some (.fault f) := by
  have hnone := (enabledStop_none_iff vl s).2 hen
  rw [exec_store hi, ← storeCount_eq_storeBytes s es vl k src]
  constructor
  · intro h
    rcases storeForm_fault h with hsome | ⟨_, hstop⟩
    · rw [hnone] at hsome; cases hsome
    · exact hstop
  · exact storeForm_of_stop hnone

/-- R43: #AC is open only with alignment checking in force, at a word form and an odd LA. -/
theorem of_acOpen (h : acOpen s es la n = true) : s.env.acEnabled = true ∧ es = .word ∧ la.getLsbD 0 = true := by
  simp only [acOpen, Bool.and_eq_true, beq_iff_eq] at h
  obtain ⟨⟨⟨hen, hes⟩, _⟩, hodd⟩ := h
  exact ⟨hen, hes, hodd⟩

end store

/-! ## #UD and #NM -/

/-- R142: #UD and #NM are raised by the enabling checks or not at all. -/
theorem exec_enabling_fault_iff {i : Instr} {s : State} {f : Fault}
    (hf : f = .invalidOpcode s.pc ∨ f = .deviceNotAvailable s.pc) :
    exec i s = .fault f ↔ enabledStop (vecLen i) s = some (.fault f) := by
  refine ⟨fun h => ?_, exec_of_enabledStop⟩
  cases hi : i.shape with
  | store es vl p k src m =>
    rw [exec_store hi] at h
    simp only [vecLen, hi]
    rcases storeForm_fault h with hsome | ⟨_, hstop⟩
    · exact hsome
    · rcases storeStop_fault hstop with ⟨_, e⟩ | e | ⟨_, _, _, _, _, e⟩
      · split at e <;> simp [e] at hf
      · simp [e] at hf
      · simp [e] at hf
  | reg es vl p z k dst src =>
    rw [exec_reg hi] at h
    simp only [vecLen, hi]
    exact regForm_fault h

/-- Settles O18: #UD is the enabling checks', which ask for AVX512VL at 128 and 256 bits only. -/
theorem missingFeatureRaisesUd : Obligations.MissingFeatureRaisesUd := by
  intro i s hm
  rw [exec_enabling_fault_iff (.inl rfl), enabledStop_ud_iff hm]
  simp [featuresPresent, imp_iff_not_or]

/-- Settles O19: #NM is the enabling checks', and past #UD it asks for cr0_ts alone. -/
theorem taskSwitchedRaisesNm : Obligations.TaskSwitchedRaisesNm := by
  intro i s hm hos hf
  rw [exec_enabling_fault_iff (.inr rfl), enabledStop_nm_iff hm hos hf]

/-! ## The register forms -/

/-- `s` with the data memory `m`. -/
def withMem (m : Memory) (s : State) : State := { s with mem := m }

/-- Settles O20: a register form runs the enabling checks and one vector write, and neither reads nor changes memory. -/
theorem registerFormsTouchNoMemory : Obligations.RegisterFormsTouchNoMemory := by
  intro i es vl p z k dst src hi s
  rw [exec_reg hi]
  refine ⟨fun f h => enabledStop_fault (regForm_fault h), fun m => ⟨?_, fun t h => ?_⟩⟩
  · rw [exec_reg hi]
    exact regForm_map (withMem m) rfl rfl rfl
  · obtain ⟨_, rfl⟩ := regForm_next h
    simp

/-! ## Non-canonical addresses -/

theorem baseIsStack_iff (b : GReg) : baseIsStack b = true ↔ b = 4#4 ∨ b = 5#4 := by
  simp [baseIsStack]

/-- R74: SS is the segment exactly of a base RSP or RBP without an override. -/
theorem segmentOf_eq_ss_iff (p : Prefixes) (m : MemOperand) :
    segmentOf p m = .ss ↔ segOverride p = none ∧
      ((∃ b d x, m = .base b d x ∧ (b = 4#4 ∨ b = 5#4)) ∨ ∃ b x sc d, m = .sib b x sc d ∧ (b = 4#4 ∨ b = 5#4)) := by
  cases ho : segOverride p with
  | some o => cases o <;> simp [segmentOf, ho]
  | none => cases m <;> simp [segmentOf, ho, ← baseIsStack_iff]

/-- Settles O21: the canonical check decides past the two refusals, and it and R52's are the only sources of #GP and #SS. -/
theorem nonCanonicalStoreFaults : Obligations.NonCanonicalStoreFaults := by
  intro i es vl p k src m hi s hen
  refine ⟨fun j hj hw ht hc => ?_, segmentOf_eq_ss_iff p m, fun f hf h => ?_⟩
  · rw [exec_store_fault_iff hi hen, storeStop_of_nonCanonical hw ht hj hc, addressStop_eq]
  · rcases storeStop_fault ((exec_store_fault_iff hi hen).1 h) with ⟨hcause, _⟩ | e | ⟨_, _, _, _, _, e⟩
    · exact hcause
    · simp [e] at hf
    · simp [e] at hf

/-! ## Page faults -/

/-- Settles O22: the store checks report the lowest denied byte once #AC is out of the way, and raise no other #PF. -/
theorem pageFaultAtLowestByte : Obligations.PageFaultAtLowestByte := by
  intro i es vl p k src m hi s hen
  refine ⟨fun j c hj hw hrange hac hpf hok => ?_, fun c a q h => ?_⟩
  · rcases storeStop_of_pageFault (es := es) (seg := segmentOf p m) hw (fun l hl => (hrange l hl).1)
      (fun l hl => (hrange l hl).2) hj hpf hok with ⟨hopen, hstop⟩ | hstop
    · obtain ⟨hacEnabled, hword, hodd⟩ := of_acOpen hopen
      rcases hac with e | e | e | hne
      · cases e.symm.trans hacEnabled
      · cases e.symm.trans hword
      · cases e.symm.trans hodd
      · exact absurd ((exec_store_fault_iff hi hen).2 hstop) hne
    · exact (exec_store_fault_iff hi hen).2 hstop
  · rcases storeStop_fault ((exec_store_fault_iff hi hen).1 h) with ⟨_, e⟩ | e | ⟨_, j, hj, hpf, hok, e⟩
    · split at e <;> cases e
    · cases e
    · cases e
      exact ⟨rfl, j, hj, rfl, hpf, hok⟩

end Sys2Proof.Machine
end

section
/-! SUPPORT. The round trip of decoder and encoder (30_encoding.md R61 to R76, R90, R95): the EVEX bytes and their fields
determine each other once the reserved fields hold what R82 to R87 ask. -/

namespace Sys2Proof

open Machine

/-! ## From an instruction to its bytes and back -/

theorem Shape.wf_shape_instr (x : Shape) : x.instr.wf = x.wf := by rw [Instr.wf, Shape.shape_instr]

theorem Shape.encode_instr (x : Shape) : encode x.instr = x.bytes := by rw [encode, Shape.shape_instr]

/-- The encoder's EVEX bytes are of the pattern. -/
theorem inPattern_encode (nR' nR nX nB : BitVec 1) (es : ElemSize) (z : Bool) (vl : VecLen) (k : KReg) :
    inPattern (evexFields (encodeP0 nR' nR nX nB) (encodeP1 es) (encodeP2 z vl k)) 0x63#8 = true := by
  rw [evexFields_encode]; rfl

/-- The encoder breaks a reserved field only by zeroing-masking without a writemask (R87). -/
theorem reservedBroken_encode (nR' nR nX nB : BitVec 1) (es : ElemSize) {z : Bool} (vl : VecLen) {k : KReg}
    (h : zeroingWf z k = true) :
    reservedBroken (evexFields (encodeP0 nR' nR nX nB) (encodeP1 es) (encodeP2 z vl k)) = false := by
  have hz : (BitVec.ofBool z == 1#1 && k == 0#3) = false := by
    cases z
    · rfl
    · simpa [zeroingWf] using h
  rw [evexFields_encode]
  simpa [reservedBroken] using hz

/-- W of the encoder's EVEX bytes is the element size. -/
theorem elemSizeOf_encode (nR' nR nX nB : BitVec 1) (es : ElemSize) (z : Bool) (vl : VecLen) (k : KReg) :
    elemSizeOf (evexFields (encodeP0 nR' nR nX nB) (encodeP1 es) (encodeP2 z vl k)).w = es := by
  rw [evexFields_encode]; cases es <;> rfl

/-- R61 for the register form. -/
theorem decodeReg_encode (n : Nat) (es : ElemSize) (vl : VecLen) (p : Prefixes) {z : Bool} {k : KReg} (d s : VReg)
    (h : zeroingWf z k = true) :
    decodeReg n (some p)
        (evexFields (encodeP0 (s.extractLsb' 4 1) (s.extractLsb' 3 1) (d.extractLsb' 4 1) (d.extractLsb' 3 1)) (encodeP1 es)
          (encodeP2 z vl k)) (encodeModrm 0b11#2 (s.extractLsb' 0 3) (d.extractLsb' 0 3)) =
      .instr (Shape.reg es vl p z k d s).instr (n + 6) := by
  obtain ⟨_, hreg, hrm⟩ := encodeModrm_fields 0b11#2 (s.extractLsb' 0 3) (d.extractLsb' 0 3)
  have hres := reservedBroken_encode (s.extractLsb' 4 1) (s.extractLsb' 3 1) (d.extractLsb' 4 1) (d.extractLsb' 3 1) es vl h
  have hz : (BitVec.ofBool z == 1#1) = z := by cases z <;> rfl
  simp only [decodeReg, hreg, hrm, hres, elemSizeOf_encode]
  simp only [evexFields_encode, vecLenOf_ll, hz, BitVec.not_not, vreg_split, Bool.false_eq_true, if_false]

/-- R90: with at most two bytes before 62H a store form has at most 13 bytes. -/
theorem not_tooLong {n : Nat} (hn : n ≤ 2) (m : MemOperand) : ¬ n + 6 + m.len > Config.maxInstrBytes := by
  have := m.len_le
  simp only [Config.maxInstrBytes]
  omega

/-- R61 for the store form. -/
theorem decodeStore_encode {n : Nat} (hn : n ≤ 2) (es : ElemSize) (vl : VecLen) (p : Prefixes) (k : KReg) (s : VReg)
    {m : MemOperand} (h : m.wf = true) (rest : List Byte) :
    decodeStore n (some p)
        (evexFields (encodeP0 (s.extractLsb' 4 1) (s.extractLsb' 3 1) m.nX m.nB) (encodeP1 es) (encodeP2 false vl k))
        (encodeModrm m.mod (s.extractLsb' 0 3) m.rm) (m.bytes ++ rest) =
      .instr (Shape.store es vl p k s m).instr (n + 6 + m.len) := by
  obtain ⟨hmod, hreg, hrm⟩ := encodeModrm_fields m.mod (s.extractLsb' 0 3) m.rm
  have hres := reservedBroken_encode (s.extractLsb' 4 1) (s.extractLsb' 3 1) m.nX m.nB es (z := false) (k := k) vl rfl
  simp only [decodeStore, hmod, hreg, hrm, hres, elemSizeOf_encode]
  simp only [evexFields_encode, vecLenOf_ll, BitVec.not_not, vreg_split, takeMem_bytes h, not_tooLong hn, if_false]
  rfl

/-- R95 over R61, at the level of shapes. -/
theorem decode_bytes {x : Shape} (h : x.wf = true) (rest : List Byte) :
    decode (x.bytes ++ rest) = .instr x.instr x.len := by
  cases x with
  | store es vl p k s m =>
    obtain ⟨hmod, _, _⟩ := encodeModrm_fields m.mod (s.extractLsb' 0 3) m.rm
    have hpat := inPattern_encode (s.extractLsb' 4 1) (s.extractLsb' 3 1) m.nX m.nB es false vl k
    simp only [Shape.bytes, List.append_assoc, List.cons_append, List.nil_append]
    rw [decode_evex p _ _ _ _ _ hpat, hmod, if_neg m.mod_ne_reg, decodeStore_encode p.len_le es vl p k s h rest]
    rfl
  | reg es vl p z k d s =>
    obtain ⟨hmod, _, _⟩ := encodeModrm_fields 0b11#2 (s.extractLsb' 0 3) (d.extractLsb' 0 3)
    have hpat := inPattern_encode (s.extractLsb' 4 1) (s.extractLsb' 3 1) (d.extractLsb' 4 1) (d.extractLsb' 3 1) es z vl k
    simp only [Shape.bytes, List.append_assoc, List.cons_append, List.nil_append]
    rw [decode_evex p _ _ _ _ _ hpat, hmod, if_pos rfl, decodeReg_encode p.len es vl p d s h]
    rfl

/-- Settles O35: the decoder reads back each part of the encoding. -/
theorem decodeOfEncode : Obligations.DecodeOfEncode := by
  intro i rest h
  rw [encode_length]
  simpa [encode, Instr.len] using decode_bytes (x := i.shape) h rest

/-! ## From bytes to an instruction and back -/

/-- P0, P1 and P2 of the pattern are the encoding of their fields where none is reserved (R82 to R87). -/
theorem evexBytes_of_fields {p0 p1 p2 : Byte} {vl : VecLen} (hpat : inPattern (evexFields p0 p1 p2) 0x63#8 = true)
    (hll : (evexFields p0 p1 p2).ll = vl.ll) (hres : reservedBroken (evexFields p0 p1 p2) = false) :
    p0 = encodeP0 (~~~(evexFields p0 p1 p2).r') (~~~(evexFields p0 p1 p2).r) (~~~(evexFields p0 p1 p2).x)
        (~~~(evexFields p0 p1 p2).b) ∧
      p1 = encodeP1 (elemSizeOf (evexFields p0 p1 p2).w) ∧
      p2 = encodeP2 ((evexFields p0 p1 p2).z == 1#1) vl (evexFields p0 p1 p2).aaa := by
  simp only [inPattern, Bool.and_eq_true, beq_iff_eq] at hpat
  obtain ⟨⟨hmmm, hpp⟩, _⟩ := hpat
  simp only [reservedBroken, Bool.or_eq_false_iff, bne_eq_false_iff_eq] at hres
  obtain ⟨⟨⟨⟨⟨hvvvv, hbc⟩, hv'⟩, h3⟩, h2⟩, _⟩ := hres
  refine ⟨p0_of_fields p0 h3 hmmm, p1_of_fields p1 hvvvv h2 hpp, ?_⟩
  rw [encodeP2, ← hll]
  exact p2_of_fields p2 hbc hv'

/-- R87: where no field is reserved, zeroing-masking has a writemask. -/
theorem zeroingWf_of_not_reserved {f : EvexFields} (h : reservedBroken f = false) :
    zeroingWf (f.z == 1#1) f.aaa = true := by
  rw [← Bool.not_eq_true, reservedBroken_iff] at h
  simp only [not_or, not_and] at h
  obtain ⟨_, _, _, _, _, hz⟩ := h
  by_cases hz1 : f.z = 1#1
  · simp [zeroingWf, hz hz1]
  · simp [zeroingWf, hz1]

/-- A register form that was decoded is well formed, and its encoding is what was read. -/
theorem encode_of_decodeReg {p : Prefixes} {p0 p1 p2 modrm : Byte} {i : Instr} {n : Nat}
    (hpat : inPattern (evexFields p0 p1 p2) 0x63#8 = true) (hmod : modrm.extractLsb' 6 2 = 0b11#2)
    (h : decodeReg p.len (some p) (evexFields p0 p1 p2) modrm = .instr i n) :
    i.wf = true ∧ n = i.len ∧ encode i = p.bytes ++ [0x62#8, p0, p1, p2, 0x63#8, modrm] := by
  obtain ⟨_, vl, ho, hll, hres, rfl, rfl⟩ := decodeReg_instr h
  cases ho
  obtain ⟨hp0, hp1, hp2⟩ := evexBytes_of_fields hpat hll hres
  have hmodrm := modrm_of_fields modrm
  rw [hmod] at hmodrm
  rw [Shape.wf_shape_instr, Shape.encode_instr, Instr.len, Shape.shape_instr]
  refine ⟨zeroingWf_of_not_reserved hres, rfl, ?_⟩
  simp only [Shape.bytes, vreg_join, ← hp0, ← hp1, ← hp2, ← hmodrm]

/-- A store form that was decoded is well formed, and its encoding is what was read. -/
theorem encode_of_decodeStore {p : Prefixes} {p0 p1 p2 modrm : Byte} {bs : List Byte} {i : Instr} {n : Nat}
    (hpat : inPattern (evexFields p0 p1 p2) 0x63#8 = true) (hmod : modrm.extractLsb' 6 2 ≠ 0b11#2)
    (h : decodeStore p.len (some p) (evexFields p0 p1 p2) modrm bs = .instr i n) :
    i.wf = true ∧ n = i.len ∧ ∃ rest, p.bytes ++ 0x62#8 :: p0 :: p1 :: p2 :: 0x63#8 :: modrm :: bs = encode i ++ rest := by
  obtain ⟨_, vl, m, ho, hll, hres, hz, hm, rfl, rfl⟩ := decodeStore_instr h
  cases ho
  obtain ⟨hwf, hmod', hrm, hX, hB, rest, rfl⟩ := takeMem_some hmod hm
  obtain ⟨hp0, hp1, hp2⟩ := evexBytes_of_fields hpat hll hres
  rw [show ((evexFields p0 p1 p2).z == 1#1) = false by simpa using hz] at hp2
  have hmodrm := modrm_of_fields modrm
  rw [Shape.wf_shape_instr, Shape.encode_instr, Instr.len, Shape.shape_instr]
  refine ⟨hwf, by simp only [Shape.len, storeLen], rest, ?_⟩
  simp only [Shape.bytes, vreg_join, hX, hB, hmod', hrm, ← hp0, ← hp1, ← hp2, ← hmodrm, List.append_assoc,
    List.cons_append, List.nil_append]

/-- Settles O36: an instruction comes from an admitted run and the pattern, where the fields give the bytes back. -/
theorem encodeOfDecode : Obligations.EncodeOfDecode := by
  intro bs i n h
  rw [encode_length]
  obtain ⟨p, p0, p1, p2, modrm, rest, rfl, hpat, hform⟩ := decode_instr h
  split at hform
  case isTrue hmod =>
    obtain ⟨hwf, hn, henc⟩ := encode_of_decodeReg hpat hmod hform
    exact ⟨hwf, hn, rest, by simp [henc]⟩
  case isFalse hmod => exact encode_of_decodeStore hpat hmod hform

end Sys2Proof
end

section
/-! SUPPORT. What the decoder answers for byte strings of the pattern that break no reserved field (R131), for forbidden and
refused runs of prefixes (R88, R89), and for byte strings outside the pattern or cut short (R95, R169). -/

namespace Sys2Proof

open Machine Safety Claims

/-! ## Steps from the decoder's answer (R169) -/

/-- Settles O32: the fetch checks pass, so the fetched instruction is run. -/
theorem stepRunsDecodedInstruction : Obligations.StepRunsDecodedInstruction := by
  intro s i n ⟨hmode, htext, hdec, hfetch⟩
  exact step_of_run (fetchInstr_run_iff.2 ⟨hmode, htext, n, hdec, fetchStop_none_iff.2 hfetch⟩)

/-- Settles O33: the three checks before the decoder, in their order. -/
theorem stepOutsideProgramRefused : Obligations.StepOutsideProgramRefused := by
  intro s
  refine ⟨fun hm => ?_, fun hm hover => ?_, fun hm hover htext => ?_⟩
  · have hf : fetchInstr s = .stop (.refuse .modeNotAdmitted) := if_pos hm
    simp [step, hf]
  · have hf : fetchInstr s = .stop (.refuse .runOver) := by rw [fetchInstr, if_neg (not_not.2 hm), if_pos hover]
    simp [step, hf]
  · have hf : fetchInstr s = .stop (.refuse .pcOutsideProgram) := by
      rw [fetchInstr, if_neg (not_not.2 hm), if_neg hover]
      simp [textAtPc, htext]
    simp [step, hf]

/-- Settles O34: each word is read by the decoder. -/
theorem sampleWordsDecode : Obligations.SampleWordsDecode :=
  ⟨by decide, by decide, by decide, by decide, by decide⟩

/-- R27: an instruction that ends past 2^64 - 1 or has a byte at a non-canonical address stops in the fetch checks. -/
theorem fetchStop_of_address {s : State} {n : Nat}
    (h : 2 ^ 64 ≤ s.pc.toNat + n ∨ ∃ j < n, canonical s.env (s.pc + BitVec.ofNat 64 j) = false) :
    fetchStop s n = some (.refuse .instructionAddress) := by
  rw [fetchStop]
  by_cases hend : 2 ^ 64 ≤ s.pc.toNat + n
  · rw [if_pos hend]
  · obtain ⟨j, hj, hc⟩ := h.resolve_left hend
    have hany : anyByte s.pc n (fun a => !canonical s.env a) = true := (anyByte_eq_true _ _ _).2 ⟨j, hj, by simp [hc]⟩
    rw [if_neg hend, if_pos hany]

/-- R49: past R27's checks, the lowest byte whose fetch is denied stops with #PF. -/
theorem fetchStop_of_pageFault {s : State} {n j : Nat} {c : BitVec 32} (hend : s.pc.toNat + n < 2 ^ 64)
    (hc : ∀ j < n, canonical s.env (s.pc + BitVec.ofNat 64 j) = true) (hj : j < n)
    (hpf : translate s.env (s.pc + BitVec.ofNat 64 j) .fetch = .pageFault c)
    (hok : ∀ l < j, translate s.env (s.pc + BitVec.ofNat 64 l) .fetch = .ok) :
    fetchStop s n = some (.fault (.pageFault c (s.pc + BitVec.ofNat 64 j) s.pc)) := by
  have hany : anyByte s.pc n (fun a => !canonical s.env a) = false :=
    (anyByte_eq_false _ _ _).2 fun l hl => by simp [hc l hl]
  rw [fetchStop, if_neg (by omega), if_neg (by simp [hany]), pageFaultIn_eq_some hj hpf hok]
  rfl

/-- Settles O59: the fetch checks stop any decoded byte string, R27's before `Translate`'s. -/
theorem instructionAddressRefused : Obligations.InstructionAddressRefused := by
  intro s n hm ht hd
  refine ⟨fun h => ?_, fun hend hc j c hj hpf hok => ?_⟩
  · exact step_of_fetchStop hm ht hd (fetchStop_of_address (h.imp_left (by omega)))
  · exact step_of_fetchStop hm ht hd (fetchStop_of_pageFault hend hc hj hpf hok)

/-! ## The pattern without a reserved field (R131) -/

/-- R65: every L'L but 11 is a vector length. -/
theorem vecLenOf_of_ne {l : BitVec 2} (h : l ≠ 0b11#2) : ∃ vl, vecLenOf l = some vl := by
  rw [← Option.isSome_iff_exists]; revert l; decide

/-- R131 read the other way, for the decoder. -/
theorem decode_pattern_instr {p : Prefixes} {p0 p1 p2 modrm : Byte} {rest : List Byte} {n : Nat}
    (hpat : inPattern (evexFields p0 p1 p2) 0x63#8 = true) (hn : patternLen p (evexFields p0 p1 p2) modrm rest = some n)
    (hres : reservedBroken (evexFields p0 p1 p2) = false) (hll : (evexFields p0 p1 p2).ll ≠ 0b11#2)
    (hz : modrm.extractLsb' 6 2 = 0b11#2 ∨ (evexFields p0 p1 p2).z = 0#1) :
    ∃ i, decode (p.bytes ++ 0x62#8 :: p0 :: p1 :: p2 :: 0x63#8 :: modrm :: rest) = .instr i n := by
  obtain ⟨vl, hvl⟩ := vecLenOf_of_ne hll
  rw [decode_evex p p0 p1 p2 modrm rest hpat]
  rw [patternLen] at hn
  split
  case isTrue hmod =>
    rw [if_pos hmod] at hn
    cases hn
    simp [decodeReg, hvl, hres]
  case isFalse hmod =>
    rw [if_neg hmod, Option.map_eq_some_iff] at hn
    obtain ⟨m, hm, rfl⟩ := hn
    simp [decodeStore, hm, not_tooLong p.len_le m, hvl, hres, hz.resolve_left hmod]

/-- Settles O16: the pattern decodes with its own length, and the step runs what was decoded. -/
theorem wellEncodedPatternRuns : Obligations.WellEncodedPatternRuns := by
  intro s p p0 p1 p2 modrm rest ⟨hmode, htext, hbytes, hpat, n, hn, hfetch⟩ hres hll hz
  obtain ⟨i, hi⟩ := decode_pattern_instr hpat hn hres hll hz
  rw [← hbytes] at hi
  exact ⟨i, n, hi, stepRunsDecodedInstruction s i n ⟨hmode, htext, hi, hfetch⟩⟩

/-! ## Runs of prefixes (R88, R89) -/

/-- The legacy and REX bytes of R88 and R89 are those the decoder reads as prefixes. -/
theorem prefixKind_isSome (b : Byte) : (prefixKind b).isSome = isPrefixByte b := by revert b; decide

theorem prefixKind_eq_none {b : Byte} (h : isPrefixByte b = false) : prefixKind b = none := by
  rwa [← prefixKind_isSome, Option.isSome_eq_false_iff, Option.isNone_iff_eq_none] at h

/-- A run of prefixes, before bytes that begin with none, is read as the run. -/
theorem readPrefixes_prefixBytes {run rest : List Byte} (h : ∀ b ∈ run, isPrefixByte b = true)
    (hr : ∀ b, rest.head? = some b → isPrefixByte b = false) :
    readPrefixes (run ++ rest) = (run.filterMap prefixKind, rest) :=
  readPrefixes_run (fun b hb => by rw [prefixKind_isSome, h b hb]) fun b hb => prefixKind_eq_none (hr b hb)

/-- A run of one byte of R88 comes to #UD (R88). -/
theorem classifyPrefixes_forbidden {b : Byte}
    (h : b = 0xF0#8 ∨ b = 0x66#8 ∨ b = 0xF2#8 ∨ b = 0xF3#8 ∨ b.extractLsb' 4 4 = 4#4) :
    ∃ k, prefixKind b = some k ∧ classifyPrefixes [k] = .ud := by
  have hk : (prefixKind b).map (fun k => classifyPrefixes [k]) = some .ud := by revert b; decide
  exact Option.map_eq_some_iff.1 hk

/-- R88, R95: behind one byte of R88 the pattern is #UD, one byte longer. -/
theorem decode_forbidden {b p0 p1 p2 modrm : Byte} {rest : List Byte} {n : Nat}
    (h : b = 0xF0#8 ∨ b = 0x66#8 ∨ b = 0xF2#8 ∨ b = 0xF3#8 ∨ b.extractLsb' 4 4 = 4#4)
    (hpat : inPattern (evexFields p0 p1 p2) 0x63#8 = true)
    (hn : patternLen .none (evexFields p0 p1 p2) modrm rest = some n) :
    decode (b :: 0x62#8 :: p0 :: p1 :: p2 :: 0x63#8 :: modrm :: rest) = .ud (n + 1) := by
  obtain ⟨k, hk, hud⟩ := classifyPrefixes_forbidden h
  have hdec : decode (b :: 0x62#8 :: p0 :: p1 :: p2 :: 0x63#8 :: modrm :: rest) =
      if modrm.extractLsb' 6 2 = 0b11#2 then decodeReg 1 none (evexFields p0 p1 p2) modrm
      else decodeStore 1 none (evexFields p0 p1 p2) modrm rest := by
    simp [decode, readPrefixes, hk, hud, decodeEvex, hpat]
  rw [hdec]
  rw [patternLen] at hn
  split
  case isTrue hmod =>
    rw [if_pos hmod] at hn
    cases hn
    rfl
  case isFalse hmod =>
    rw [if_neg hmod, Option.map_eq_some_iff] at hn
    obtain ⟨m, hm, rfl⟩ := hn
    simp only [decodeStore, hm, not_tooLong (n := 1) (by decide) m, if_false, Prefixes.len]
    congr 1
    omega

/-- Settles O17: the byte of R88 makes the pattern #UD whatever its fields. -/
theorem forbiddenPrefixRaisesUd : Obligations.ForbiddenPrefixRaisesUd := by
  intro s b p0 p1 p2 modrm rest n h hm ht hbytes hpat hn hfetch
  exact step_of_ud hm ht (hbytes ▸ decode_forbidden h hpat hn) hfetch

/-- The byte that stands for a kind, as `prefixKindByte` gives it; for the overrides R89 refuses, 26H. -/
def PrefixKind.kindByte : PrefixKind → Byte
  | .segment _ => 0x64#8
  | .addressSize => 0x67#8
  | .ignoredSegment => 0x26#8
  | .lock => 0xF0#8
  | .operandSize => 0x66#8
  | .repne => 0xF2#8
  | .rep => 0xF3#8
  | .rex => 0x40#8

theorem PrefixKind.kindByte_inj (k k' : PrefixKind) : k.kindByte = k'.kindByte ↔ k.group = k'.group := by
  cases k <;> cases k' <;> simp [kindByte, group]

theorem prefixKindByte_eq {b : Byte} (hu : unlistedOverride b = false) {k : PrefixKind} (h : prefixKind b = some k) :
    prefixKindByte b = k.kindByte := by
  have hb : ∀ b, unlistedOverride b = false → ∀ k ∈ prefixKind b, prefixKindByte b = k.kindByte := by decide
  exact hb b hu k h

theorem prefixKind_ignored_iff (b : Byte) : prefixKind b = some .ignoredSegment ↔ unlistedOverride b = true := by
  revert b; decide

theorem prefixKind_rex_iff (b : Byte) : prefixKind b = some .rex ↔ b.extractLsb' 4 4 = 4#4 := by
  revert b; decide

/-- Two bytes of one kind stand in a run exactly where two of its kinds are of one group (R89). -/
theorem nodup_group_iff {run : List Byte} (h : ∀ b ∈ run, isPrefixByte b = true)
    (hu : ∀ b ∈ run, unlistedOverride b = false) :
    ((run.filterMap prefixKind).map PrefixKind.group).Nodup ↔ (run.map prefixKindByte).Nodup := by
  rw [List.Nodup, List.Nodup, List.pairwise_map, List.pairwise_map, List.pairwise_filterMap]
  refine List.Pairwise.iff_of_mem fun {a b} ha hb => ?_
  obtain ⟨k, hk⟩ := Option.isSome_iff_exists.1 ((prefixKind_isSome a).trans (h a ha))
  obtain ⟨k', hk'⟩ := Option.isSome_iff_exists.1 ((prefixKind_isSome b).trans (h b hb))
  simp [hk, hk', prefixKindByte_eq (hu a ha) hk, prefixKindByte_eq (hu b hb) hk', PrefixKind.kindByte_inj]

/-- A run's last kind is its last byte's. -/
theorem dropLast_filterMap_prefixKind {run : List Byte} (h : ∀ b ∈ run, isPrefixByte b = true) :
    (run.filterMap prefixKind).dropLast = run.dropLast.filterMap prefixKind := by
  cases run using List.reverseRecOn with
  | nil => rfl
  | append_singleton run b =>
    obtain ⟨k, hk⟩ := Option.isSome_iff_exists.1 ((prefixKind_isSome b).trans (h b (by simp)))
    simp [List.filterMap_append, hk]

/-- The refusal of a run that is not admitted or #UD, in the order of log 13. -/
theorem classifyPrefixes_refused {ks : List PrefixKind}
    (h : .ignoredSegment ∈ ks ∨ ¬ (ks.map PrefixKind.group).Nodup ∨ .rex ∈ ks.dropLast) :
    classifyPrefixes ks = .refused (if .ignoredSegment ∈ ks then .unlistedPrefix
      else if ¬ (ks.map PrefixKind.group).Nodup then .repeatedPrefix else .forbiddenPrefix) := by
  have hnot : admittedPrefixes ks = none := by
    by_contra ha
    obtain ⟨p, hp⟩ := Option.ne_none_iff_exists'.1 ha
    have hgo : ∀ r, classifyPrefixes ks ≠ .refused r := by simp [classifyPrefixes, hp]
    obtain ⟨h1, h2, h3⟩ := (classifyPrefixes_goes_on_iff ks).1 hgo
    tauto
  rw [classifyPrefixes, hnot]
  by_cases h1 : .ignoredSegment ∈ ks
  · simp [h1]
  by_cases h2 : (ks.map PrefixKind.group).Nodup
  · simp [h1, h2, (h.resolve_left h1).resolve_left (not_not.2 h2)]
  · simp [h1, h2]

/-- Settles O58: the run is read byte by byte, and its kinds are refused in that order. -/
theorem prefixRunsRefused : Obligations.PrefixRunsRefused := by
  intro s run rest hm ht hbytes hrun hrest
  have hread := readPrefixes_prefixBytes hrun hrest
  have hstep : ∀ r, classifyPrefixes (run.filterMap prefixKind) = .refused r → step s = .refused (.undecoded r) := by
    intro r hr
    refine step_of_undecoded hm ht ?_
    rw [hbytes, decode, hread]
    simp [hr]
  have hign : .ignoredSegment ∈ run.filterMap prefixKind ↔ run.any unlistedOverride = true := by
    simp [List.mem_filterMap, prefixKind_ignored_iff]
  have hrex : .rex ∈ (run.filterMap prefixKind).dropLast ↔ ∃ b ∈ run.dropLast, b.extractLsb' 4 4 = 4#4 := by
    simp [dropLast_filterMap_prefixKind hrun, List.mem_filterMap, prefixKind_rex_iff]
  split
  case isTrue hany =>
    rw [← hign] at hany
    exact hstep _ (by rw [classifyPrefixes_refused (.inl hany), if_pos hany])
  case isFalse hany =>
    have hgroup := nodup_group_iff hrun (by simpa using hany)
    rw [← hign] at hany
    split
    case isTrue hdup =>
      rw [← hgroup] at hdup
      exact hstep _ (by rw [classifyPrefixes_refused (.inr (.inl hdup)), if_neg hany, if_pos hdup])
    case isFalse hdup =>
      rw [← hgroup] at hdup
      intro hr
      exact hstep _ (by rw [classifyPrefixes_refused (.inr (.inr (hrex.2 hr))), if_neg hany, if_neg hdup])

end Sys2Proof
end

section
/-! SUPPORT. Byte strings outside the pattern, and byte strings cut short (R95, R169): a text that ends inside what the
decoder would read from it and more bytes is refused as truncated. -/

namespace Sys2Proof

open Machine Safety Claims

/-! ## Outside the pattern -/

theorem filterMap_prefixKind_bytes (p : Prefixes) : p.bytes.filterMap prefixKind = p.kinds := by
  have h : ∀ o, p = .none ∨ p = .addr32 ∨ p = .seg o ∨ p = .segAddr32 o ∨ p = .addr32Seg o →
      p.bytes.filterMap prefixKind = p.kinds := by
    rintro o (rfl | rfl | rfl | rfl | rfl) <;> cases o <;> decide
  cases p with
  | none | addr32 => exact h .fs (by simp)
  | seg o | segAddr32 o | addr32Seg o => exact h o (by simp)

theorem isPrefixByte_of_mem_bytes {p : Prefixes} {b : Byte} (h : b ∈ p.bytes) : isPrefixByte b = true := by
  have ho : ∀ o : SegOverride, isPrefixByte o.byte = true := by intro o; cases o <;> decide
  have h67 : isPrefixByte 0x67#8 = true := by decide
  cases p <;> simp only [Prefixes.bytes, List.mem_cons, List.not_mem_nil, or_false] at h
  case seg o => rw [h, ho]
  case addr32 => rw [h, h67]
  case segAddr32 o => rcases h with rfl | rfl <;> simp only [ho, h67]
  case addr32Seg o => rcases h with rfl | rfl <;> simp only [ho, h67]

/-- R95 step 1: admitted prefixes before a byte that is none are read, and the decoder goes on with that byte. -/
theorem decode_admitted (p : Prefixes) {b : Byte} (hb : isPrefixByte b = false) (rest : List Byte) :
    decode (p.bytes ++ b :: rest) = decodeEvex p.len (some p) (b :: rest) := by
  have hread := readPrefixes_prefixBytes (run := p.bytes) (rest := b :: rest) (fun _ => isPrefixByte_of_mem_bytes)
    (by simpa using hb)
  simp [decode, hread, filterMap_prefixKind_bytes]

/-! ## Byte strings cut short -/

/-- The length of what was decoded, instruction or #UD. -/
def Decoded.ilen? : Decoded → Option Nat
  | .instr _ n => some n
  | .ud n => some n
  | .refused _ => none

theorem Decoded.ilen?_eq_some {d : Decoded} {n : Nat} : d.ilen? = some n ↔ d = .ud n ∨ ∃ i, d = .instr i n := by
  cases d <;> simp [ilen?, eq_comm]

theorem decodeReg_ilen (k : Nat) (o : Option Prefixes) (f : EvexFields) (modrm : Byte) :
    (decodeReg k o f modrm).ilen? = some (k + 6) := by
  unfold decodeReg
  split
  · split <;> rfl
  · rfl

theorem decodeStore_ilen {k n : Nat} {o : Option Prefixes} {f : EvexFields} {modrm : Byte} {bs : List Byte}
    (h : (decodeStore k o f modrm bs).ilen? = some n) :
    ∃ m, takeMem (modrm.extractLsb' 6 2) (modrm.extractLsb' 0 3) (~~~f.x) (~~~f.b) bs = some m ∧ n = k + 6 + m.len := by
  unfold decodeStore at h
  split at h
  case h_1 => cases h
  case h_2 m hm =>
    refine ⟨m, hm, ?_⟩
    dsimp only at h
    split at h
    · cases h
    · split at h
      · split at h <;> cases h <;> rfl
      · cases h; rfl

/-- A memory operand that was read is read too when more bytes follow, and lies inside the bytes it was read from. -/
theorem takeMem_append {mod : BitVec 2} {rm : BitVec 3} {nX nB : BitVec 1} {bs : List Byte} {m : MemOperand}
    (hmod : mod ≠ 0b11#2) (h : takeMem mod rm nX nB bs = some m) (more : List Byte) :
    takeMem mod rm nX nB (bs ++ more) = some m ∧ m.len ≤ bs.length := by
  obtain ⟨hwf, rfl, rfl, rfl, rfl, rest, rfl⟩ := takeMem_some hmod h
  exact ⟨by rw [List.append_assoc, takeMem_bytes hwf], by simp⟩

/-- A store form cut inside its memory operand. -/
theorem decodeStore_truncated {k n : Nat} {o : Option Prefixes} {f : EvexFields} {modrm : Byte} {bs more : List Byte}
    (hmod : modrm.extractLsb' 6 2 ≠ 0b11#2) (h : (decodeStore k o f modrm (bs ++ more)).ilen? = some n)
    (hlen : k + 6 + bs.length < n) : decodeStore k o f modrm bs = .refused .truncated := by
  obtain ⟨m, hm, rfl⟩ := decodeStore_ilen h
  have hcut : takeMem (modrm.extractLsb' 6 2) (modrm.extractLsb' 0 3) (~~~f.x) (~~~f.b) bs = none := by
    by_contra hsome
    obtain ⟨m', hm'⟩ := Option.ne_none_iff_exists'.1 hsome
    obtain ⟨hm'', hle⟩ := takeMem_append hmod hm' more
    rw [hm] at hm''
    cases hm''
    omega
  simp [decodeStore, hcut]

/-- The EVEX bytes, the opcode byte and the ModRM byte of what was decoded. -/
theorem decodeEvex_ilen {k n : Nat} {o : Option Prefixes} {bs : List Byte} (h : (decodeEvex k o bs).ilen? = some n) :
    ∃ (p0 p1 p2 modrm : Byte) (rest : List Byte), bs = 0x62#8 :: p0 :: p1 :: p2 :: 0x63#8 :: modrm :: rest ∧
      inPattern (evexFields p0 p1 p2) 0x63#8 = true := by
  unfold decodeEvex at h
  split at h
  · cases h
  rename_i b0 bs
  split at h
  · cases h
  rename_i hb
  rw [ne_eq, not_not] at hb
  subst hb
  split at h
  case h_2 => cases h
  case h_1 p0 p1 p2 op rest =>
    dsimp only at h
    split at h
    · cases h
    rename_i hp
    rw [Bool.not_eq_true', Bool.not_eq_false] at hp
    have hop : op = 0x63#8 := by
      simp only [inPattern, Bool.and_eq_true, beq_iff_eq] at hp
      exact hp.2
    subst hop
    split at h
    · cases h
    · exact ⟨p0, p1, p2, _, _, rfl, hp⟩

/-- A cut of an EVEX byte string of the pattern leaves the six bytes from 62H to ModRM, or is refused as truncated. -/
theorem decodeEvex_cut {k : Nat} {o : Option Prefixes} {bs more rest : List Byte} {p0 p1 p2 modrm : Byte}
    (hpat : inPattern (evexFields p0 p1 p2) 0x63#8 = true)
    (h : bs ++ more = 0x62#8 :: p0 :: p1 :: p2 :: 0x63#8 :: modrm :: rest) :
    decodeEvex k o bs = .refused .truncated ∨
      ∃ cut, bs = 0x62#8 :: p0 :: p1 :: p2 :: 0x63#8 :: modrm :: cut ∧ rest = cut ++ more := by
  simp only [List.append_eq_cons_iff, List.cons_eq_append_iff] at h
  rcases h with ⟨rfl, _⟩ | ⟨_, rfl, ⟨rfl, _⟩ | ⟨_, rfl, ⟨rfl, _⟩ | ⟨_, rfl, ⟨rfl, _⟩ | ⟨_, rfl, ⟨rfl, _⟩ | ⟨_, rfl,
    ⟨rfl, _⟩ | ⟨cut, rfl, hrest⟩⟩⟩⟩⟩⟩
  case inr => exact .inr ⟨cut, rfl, hrest⟩
  all_goals exact .inl (by simp [decodeEvex, hpat])

/-- R169 after the prefixes. -/
theorem decodeEvex_truncated {k n : Nat} {o : Option Prefixes} {bs more : List Byte}
    (h : (decodeEvex k o (bs ++ more)).ilen? = some n) (hlen : k + bs.length < n) :
    decodeEvex k o bs = .refused .truncated := by
  obtain ⟨p0, p1, p2, modrm, rest, hbs, hpat⟩ := decodeEvex_ilen h
  obtain hcut | ⟨cut, rfl, rfl⟩ := decodeEvex_cut (k := k) (o := o) hpat hbs
  · exact hcut
  have hdec : ∀ bs, decodeEvex k o (0x62#8 :: p0 :: p1 :: p2 :: 0x63#8 :: modrm :: bs) =
      if modrm.extractLsb' 6 2 = 0b11#2 then decodeReg k o (evexFields p0 p1 p2) modrm
      else decodeStore k o (evexFields p0 p1 p2) modrm bs := by simp [decodeEvex, hpat]
  rw [hbs, hdec] at h
  rw [hdec]
  simp only [List.length_cons] at hlen
  split at h
  case isTrue hmod =>
    rw [decodeReg_ilen] at h
    cases h
    omega
  case isFalse hmod =>
    rw [if_neg hmod]
    exact decodeStore_truncated hmod h (by omega)

/-- Where a run of prefixes goes on to the EVEX bytes, any beginning of it does. -/
theorem classifyPrefixes_goes_on_of_append {ks ks' : List PrefixKind} (h : ∀ r, classifyPrefixes (ks ++ ks') ≠ .refused r) :
    ∀ r, classifyPrefixes ks ≠ .refused r := by
  obtain ⟨hign, hnodup, hrex⟩ := (classifyPrefixes_goes_on_iff _).1 h
  refine (classifyPrefixes_goes_on_iff ks).2 ⟨fun hk => hign (List.mem_append_left _ hk), ?_, fun hk => hrex ?_⟩
  · rw [List.map_append] at hnodup
    exact hnodup.of_append_left
  · cases ks' with
    | nil => rwa [List.append_nil]
    | cons k' ks' => rw [List.dropLast_append_cons]; exact List.mem_append_left _ (List.mem_of_mem_dropLast hk)

/-- A run of prefixes that is not refused decides with what the decoder goes on, whatever follows. -/
theorem decode_of_goes_on {ks : List PrefixKind} (h : ∀ r, classifyPrefixes ks ≠ .refused r) :
    ∃ o, ∀ bs rest, readPrefixes bs = (ks, rest) → decode bs = decodeEvex ks.length o rest := by
  cases hc : classifyPrefixes ks with
  | refused r => exact absurd hc (h r)
  | ud => exact ⟨none, fun bs rest hread => by simp [decode, hread, hc]⟩
  | admitted p => exact ⟨some p, fun bs rest hread => by simp [decode, hread, hc]⟩

/-- The run of prefixes of what was decoded is not refused. -/
theorem goes_on_of_ilen {bs rest : List Byte} {ks : List PrefixKind} {n : Nat} (hread : readPrefixes bs = (ks, rest))
    (h : (decode bs).ilen? = some n) : ∀ r, classifyPrefixes ks ≠ .refused r := by
  intro r hr
  simp [decode, hread, hr, Decoded.ilen?] at h

/-- R169: a byte string that ends inside what the decoder would read from it and more bytes, in its prefixes or after
them. -/
theorem decode_truncated {bs more : List Byte} {n : Nat} (h : (decode (bs ++ more)).ilen? = some n)
    (hlen : bs.length < n) : decode bs = .refused .truncated := by
  obtain ⟨run, rest, rfl, hrun, hrest⟩ := readPrefixes_split bs
  have hread := readPrefixes_run hrun hrest
  cases rest with
  | nil =>
    obtain ⟨run', rest', rfl, hrun', hrest'⟩ := readPrefixes_split more
    have hread' := readPrefixes_run (run := run ++ run') (rest := rest')
      (fun b hb => (List.mem_append.1 hb).elim (hrun b) (hrun' b)) hrest'
    rw [List.append_nil, ← List.append_assoc] at h
    have hgo := goes_on_of_ilen hread' h
    rw [List.filterMap_append] at hgo
    obtain ⟨o, ho⟩ := decode_of_goes_on (classifyPrefixes_goes_on_of_append hgo)
    exact ho _ _ hread
  | cons b t =>
    have hread' := readPrefixes_run (rest := (b :: t) ++ more) hrun hrest
    rw [List.append_assoc] at h
    obtain ⟨o, ho⟩ := decode_of_goes_on (goes_on_of_ilen hread' h)
    rw [ho _ _ hread'] at h
    rw [ho _ _ hread]
    refine decodeEvex_truncated h ?_
    rw [List.filterMap_length_eq_length.2 hrun]
    simpa using hlen

/-- Settles O38: behind admitted prefixes the bytes are read in order, and what ends early is refused as truncated. -/
theorem outsidePatternRefused : Obligations.OutsidePatternRefused := by
  intro s hm ht
  refine ⟨fun p b rest hbytes hb hne => ?_, fun p p0 p1 p2 op rest hbytes hpat => ?_, fun more n h hlen => ?_⟩
  · refine step_of_undecoded hm ht ?_
    rw [hbytes, decode_admitted p hb]
    exact if_pos hne
  · refine step_of_undecoded hm ht ?_
    have hout : inPattern (evexFields p0 p1 p2) op = false := by
      by_contra hin
      simp only [Bool.not_eq_false, inPattern, Bool.and_eq_true, beq_iff_eq] at hin
      obtain ⟨⟨hmmm, hpp⟩, hop⟩ := hin
      rcases hpat with h | h | h
      exacts [h hmmm, h hpp, h hop]
    rw [hbytes, decode_admitted p (by decide)]
    simp [decodeEvex, hout]
  · exact step_of_undecoded hm ht (decode_truncated (Decoded.ilen?_eq_some.2 h) hlen)

end Sys2Proof
end

section
/-! SUPPORT. What an instruction leaves when it completes (R107, R108): the destination register or the stored bytes, the
advance of `pc` (R168), and everything else as it was. -/

namespace Sys2Proof.Machine

open Sys2Proof.Claims Sys2Proof.Safety

section form
variable {i : Instr} {es : ElemSize} {vl : VecLen} {p : Prefixes} {z : Bool} {k : KReg} {dst src : VReg} {m : MemOperand}
  {s t : State}

/-! ## The register forms -/

/-- R108 with the writemask and source of the form: what a completed register form leaves. -/
theorem exec_reg_next (hi : i.shape = .reg es vl p z k dst src) (h : exec i s = .next t) :
    t = complete (writeZmm s dst (regResult es vl z (writemask s k (klOf es vl)) (readZmm s dst) (sourceValue s src vl)))
      (regLen p) := by
  rw [exec_reg hi] at h
  exact (regForm_next h).2

/-- R108: an enabled register form completes with its result. -/
theorem regResult_of_enabled (hi : i.shape = .reg es vl p z k dst src) (hen : Enabled s vl) :
    RegResult es vl p z k dst src s (exec i s) := by
  rw [exec_reg hi]
  refine ⟨_, regForm_of_enabled ((enabledStop_none_iff vl s).2 hen), by simp, fun j hj => ?_, fun j hj hkl => ?_,
    fun b hb => ?_⟩ <;> rw [readZmm_complete, readZmm_writeZmm_same]
  · exact elem_regResult_active hj
  · exact elem_regResult_inactive hj hkl
  · exact getLsbD_regResult_high hb

/-! ## The store forms -/

/-- Byte b of element i lies below n elements. -/
theorem elem_byte_lt {i n b : Nat} (hi : i < n) (hb : b < esize es) : i * esize es + b < n * esize es := by
  have := Nat.mul_le_mul_right (esize es) (Nat.succ_le_of_lt hi)
  rw [Nat.succ_mul] at this
  omega

/-- R107: an enabled store whose checks pass completes with the packed elements at LA. -/
theorem storeResult_of_checks (hi : i.shape = .store es vl p k src m) (hen : Enabled s vl)
    (hstop : storeStop s es (segmentOf p m) (storeAddr s es p m) (storeBytes s es vl k) = none) :
    StoreResult es vl p k src m s (exec i s) := by
  obtain ⟨⟨_, hbytes⟩, _⟩ := storeStop_none_iff.1 hstop
  rw [← storeCount_eq_storeBytes s es vl k src] at hstop hbytes
  rw [exec_store hi]
  refine ⟨_, storeForm_of_checks ((enabledStop_none_iff vl s).2 hen) hstop, by simp, fun j hj b hb => ?_, fun a ha => ?_⟩ <;>
    rw [byteAt_storeCommit fun l hl => (hbytes l hl).1, storeCount_eq_storeBytes]
  · have hlt : j * esize es + b < storeBytes s es vl k := elem_byte_lt hj hb
    rw [if_pos (by omega), Nat.add_assoc, Nat.add_sub_cancel_left, byte_of_elem es _ j b hb, elem_compressSource hj]
  · rw [if_neg (by omega)]

/-- R43: #AC is open exactly at a word store of n > 0 bytes to an odd LA with alignment checking in force. -/
theorem acOpen_iff {la : Addr} {n : Nat} :
    acOpen s es la n = true ↔ s.env.acEnabled = true ∧ es = .word ∧ 0 < n ∧ la.getLsbD 0 = true := by
  simp [acOpen, and_assoc]

/-- R107: a store ready for every open choice completes where #AC is not raised. -/
theorem storeResult_of_ready (hi : i.shape = .store es vl p k src m) (hready : StoreReady es vl p k m s)
    (hac : (acOpen s es (storeAddr s es p m) (storeBytes s es vl k) && Config.acDraw s.draws) = false) :
    StoreResult es vl p k src m s (exec i s) := by
  obtain ⟨hen, hstorable, hzero⟩ := hready
  refine storeResult_of_checks hi hen (storeStop_none_iff.2 ⟨hstorable, fun ⟨hn, hc, _⟩ => ?_, hac⟩)
  rw [hzero hn] at hc
  cases hc

end form

/-- Settles O1: each is the register template at its length. -/
theorem byteRegisterFormsComplete : Obligations.ByteRegisterFormsComplete := fun _ _ _ _ _ _ =>
  ⟨regResult_of_enabled rfl, regResult_of_enabled rfl, regResult_of_enabled rfl⟩

/-- Settles O2: each is the register template at its length. -/
theorem wordRegisterFormsComplete : Obligations.WordRegisterFormsComplete := fun _ _ _ _ _ _ =>
  ⟨regResult_of_enabled rfl, regResult_of_enabled rfl, regResult_of_enabled rfl⟩

/-- Settles O3: a byte store never meets the open choice of R43. -/
theorem byteStoreFormsComplete : Obligations.ByteStoreFormsComplete := by
  intro s p k src m
  have hac : ∀ la n, (acOpen s .byte la n && Config.acDraw s.draws) = false := by simp [acOpen]
  exact ⟨fun h => storeResult_of_ready rfl h (hac _ _), fun h => storeResult_of_ready rfl h (hac _ _),
    fun h => storeResult_of_ready rfl h (hac _ _)⟩

/-- Settles O4: the open choice of R43 is not met where alignment checking is off or LA is even. -/
theorem wordStoreFormsComplete : Obligations.WordStoreFormsComplete := by
  intro s p k src m h
  have hac : ∀ n, (acOpen s .word (storeAddr s .word p m) n && Config.acDraw s.draws) = false := by
    intro n
    rcases h with hoff | heven
    · simp only [acOpen, show s.env.acEnabled = false from hoff, Bool.false_and]
    · simp only [acOpen, heven, Bool.and_false, Bool.false_and]
  exact ⟨fun h => storeResult_of_ready rfl h (hac _), fun h => storeResult_of_ready rfl h (hac _),
    fun h => storeResult_of_ready rfl h (hac _)⟩

/-! ## Frames -/

/-- Settles O5: a register form writes its destination and completes. -/
theorem registerFormsFrame : Obligations.RegisterFormsFrame := by
  intro i es vl p z k dst src hi s t h
  have hother := exec_sameOtherState h
  obtain rfl := exec_reg_next hi h
  exact ⟨fun r hr => by rw [readZmm_complete, readZmm_writeZmm_other _ _ hr], hother, rfl, fun _ => rfl⟩

/-- Settles O7: both templates complete with the length of their shape, which is the encoding's. -/
theorem completionFallsThrough : Obligations.CompletionFallsThrough := by
  intro i s t h
  rw [encode_length, Instr.len]
  cases hi : i.shape with
  | store es vl p k src m =>
    obtain ⟨_, rfl⟩ := exec_store_next hi h
    rfl
  | reg es vl p z k dst src =>
    obtain rfl := exec_reg_next hi h
    rfl

/-- Settles O8: a completed step is a completed instruction. -/
theorem environmentIsConstant : Obligations.EnvironmentIsConstant := by
  intro s t h
  obtain ⟨i, _, _, _, _, _, hexec⟩ := step_next h
  obtain ⟨_, _, _, _, _, _, henv⟩ := exec_sameOtherState hexec
  exact henv

/-! ## What is not read -/

/-- A write to K0 changes no other opmask register. -/
theorem readK_withKreg_set_zero (s : State) (v : Mask) {k : KReg} (hk : k ≠ 0#3) :
    readK (withKreg (s.kreg.set 0 v) s) k = readK s k := by
  have hne : 0 ≠ k.toNat := fun e => hk (BitVec.eq_of_toNat_eq e.symm)
  exact Vector.getElem_set_ne (by decide) k.isLt hne

/-- Settles O10: K0 is no writemask, since aaa = 000 names none. -/
theorem opmasksReadOnlyAndK0Unread : Obligations.OpmasksReadOnlyAndK0Unread := by
  refine ⟨fun i s t h => ?_, fun i s v => exec_withKreg i s _ fun hk j _ => ?_⟩
  · obtain ⟨hkreg, _⟩ := exec_sameOtherState h
    exact hkreg
  · rw [readK_withKreg_set_zero s v hk]

/-- R21: the source value is the register's bits below VL. -/
theorem sourceValue_writeZmm {s : State} {src : VReg} {vl : VecLen} {v : Vec}
    (h : ∀ b < vlBits vl, v.getLsbD b = (readZmm s src).getLsbD b) :
    sourceValue (writeZmm s src v) src vl = sourceValue s src vl := by
  have hlow : v.setWidth (vlBits vl) = (readZmm s src).setWidth (vlBits vl) := BitVec.eq_of_getLsbD_eq fun b hb => by
    simp [hb, h b hb]
  rw [sourceValue, readZmm_writeZmm_same, hlow, sourceValue]

/-- Settles O12: both templates read the source below VL, and merging keeps the destination below VL. -/
theorem sourceBitsAboveVlIgnored : Obligations.SourceBitsAboveVlIgnored := by
  intro es vl k src s v h
  have hsrc := sourceValue_writeZmm h
  refine ⟨fun p z dst t t' ht ht' => ?_, fun p m => ?_⟩
  · obtain rfl := exec_reg_next (Shape.shape_instr _) ht
    obtain rfl := exec_reg_next (Shape.shape_instr _) ht'
    simp only [readZmm_complete, readZmm_writeZmm_same, hsrc]
    refine regResult_congr (fun _ _ => rfl) (fun _ _ => rfl) fun _ b hb => ?_
    by_cases hd : dst = src
    · subst hd
      rw [readZmm_writeZmm_same, h b hb]
    · rw [readZmm_writeZmm_other _ _ hd]
  · have hc : compressSource (writeZmm s src v) es vl k src = compressSource s es vl k src := by
      rw [compressSource, hsrc]; rfl
    rw [exec_store (Shape.shape_instr _), exec_store (Shape.shape_instr _)]
    exact storeForm_map (fun t => writeZmm t src v) rfl rfl rfl rfl hc fun _ _ _ _ => rfl

end Sys2Proof.Machine
end

section
/-! SUPPORT. The checks of a store one by one (R107 step 3): which one decides, in the order of R142, and on what bytes they
depend (R51). -/

namespace Sys2Proof.Machine

open Sys2Proof.Claims Sys2Proof.Safety

section checks
variable {s : State} {es : ElemSize} {seg : Segment} {la : Addr} {n : Nat}

/-! ## The order of the checks -/

/-- R42: the wrap is checked first. -/
theorem storeStop_of_wrap (hn : 0 < n) (hw : 2 ^ 64 < la.toNat + n) :
    storeStop s es seg la n = some (.refuse .storeWraps) := by
  rw [storeStop, if_pos ⟨hn, by omega⟩]

/-- R142: past the refusals and the canonical checks come #AC by the open choice, #PF for the lowest denied byte, and the
device marks. -/
theorem storeStop_of_canonical (hw : la.toNat + n ≤ 2 ^ 64) (ht : ∀ l < n, inText s.env (la.toNat + l) = false)
    (hc : ∀ l < n, canonical s.env (la + BitVec.ofNat 64 l) = true)
    (hz : n = 0 → canonical s.env la = true ∨ zeroLenRaises s = false) :
    storeStop s es seg la n =
      if (acOpen s es la n && Config.acDraw s.draws) = true then some (.fault (.alignmentCheck s.pc))
      else (pageFaultIn s.env la .write n).elim
        (if anyByte la n (isDevice s.env) then some (.refuse .storeToDevice) else none)
        fun ca => some (.fault (.pageFault ca.1 ca.2 s.pc)) := by
  have ho := (overlapsText_eq_false s.env la.toNat n).2 ht
  have hnc : anyByte la n (fun a => !canonical s.env a) = false :=
    (anyByte_eq_false _ _ _).2 fun l hl => by simp [hc l hl]
  have hzero : ¬(n = 0 ∧ canonical s.env la = false ∧ zeroLenRaises s = true) := by
    rintro ⟨hn, hcan, hraises⟩
    rcases hz hn with h | h
    · cases h.symm.trans hcan
    · cases h.symm.trans hraises
  rw [storeStop, if_neg (by omega), if_neg (by simp [ho]), if_neg (by simp [hnc]), if_neg hzero]
  cases pageFaultIn s.env la .write n <;> rfl

/-- R52: a zero-length store raises at a non-canonical LA where `zero_len_check` says so, and completes elsewhere. -/
theorem storeStop_zero :
    storeStop s es seg la 0 =
      if canonical s.env la = false ∧ zeroLenRaises s = true then some (addressStop seg s) else none := by
  split
  case isTrue h => simp [storeStop, overlapsText, anyByte, h]
  case isFalse h =>
    refine storeStop_none_iff.2 ⟨⟨by omega, by simp⟩, fun ⟨_, hzero⟩ => h hzero, by simp [acOpen]⟩

end checks

section exec
variable {i : Instr} {es : ElemSize} {vl : VecLen} {p : Prefixes} {k : KReg} {src : VReg} {m : MemOperand} {s : State}

/-- An enabled store instruction stops as its store checks on the n bytes at LA do. -/
theorem exec_store_of_stop {x : Stop} (hi : i.shape = .store es vl p k src m) (hen : Enabled s vl)
    (h : storeStop s es (segmentOf p m) (storeAddr s es p m) (storeBytes s es vl k) = some x) : exec i s = x.out := by
  rw [← storeCount_eq_storeBytes s es vl k src] at h
  rw [exec_store hi, storeForm_of_stop ((enabledStop_none_iff vl s).2 hen) h]

end exec

/-! ## Alignment checks -/

/-- Settles O23: the open choice decides between #AC and completion, and #AC is raised by it alone. -/
theorem alignmentCheckIsOpen : Obligations.AlignmentCheckIsOpen := by
  refine ⟨fun vl p k src m s hready hac hn hodd => ?_, fun i s q hnever h => ?_⟩
  · have hopen : acOpen s .word (storeAddr s .word p m) (storeBytes s .word vl k) = true :=
      acOpen_iff.2 ⟨hac, rfl, hn, hodd⟩
    split
    case isTrue hdraw =>
      obtain ⟨hen, ⟨hw, hbytes⟩, hzero⟩ := hready
      have hstop := storeStop_of_canonical (es := .word) (seg := segmentOf p m) hw (fun l hl => (hbytes l hl).1)
        (fun l hl => (hbytes l hl).2.1) fun h => .inl (hzero h)
      rw [if_pos (by rw [hopen, hdraw]; rfl)] at hstop
      exact exec_store_of_stop (Shape.shape_instr _) hen hstop
    case isFalse hdraw =>
      exact storeResult_of_ready (Shape.shape_instr _) hready (by rw [hopen]; simpa using hdraw)
  · cases hi : i.shape with
    | store es vl p k src m =>
      rw [exec_store hi] at h
      rcases storeForm_fault h with hsome | ⟨_, hstop⟩
      · rcases enabledStop_fault hsome with e | e <;> cases e
      · rw [storeCount_eq_storeBytes] at hstop
        rcases storeStop_some hstop with e | e | ⟨_, e⟩ | ⟨_, ⟨hopen, _⟩ | ⟨_, _, _, _, _, e⟩ | e⟩
        · cases e
        · cases e
        · rw [addressStop_eq, Stop.fault.injEq] at e
          split at e <;> cases e
        · obtain ⟨hac, rfl, hn, hodd⟩ := acOpen_iff.1 hopen
          rcases hnever with hoff | hnever
          · cases hoff.symm.trans hac
          · rcases hnever vl p k src m hi with hzero | heven
            · omega
            · cases heven.symm.trans hodd
        · cases e
        · cases e
    | reg es vl p z k dst src =>
      rw [exec_reg hi] at h
      rcases enabledStop_fault (regForm_fault h) with e | e <;> cases e

/-- Settles O57: #AC stands before #PF, and past it the lowest denied byte is reported. -/
theorem alignmentCheckPrecedesPageFault : Obligations.AlignmentCheckPrecedesPageFault := by
  intro vl p k src m s hen hac hodd hw hbytes j c hj hpf hok
  have hopen : acOpen s .word (storeAddr s .word p m) (storeBytes s .word vl k) = true :=
    acOpen_iff.2 ⟨hac, rfl, by omega, hodd⟩
  have hstop := storeStop_of_canonical (es := .word) (seg := segmentOf p m) hw (fun l hl => (hbytes l hl).1)
    (fun l hl => (hbytes l hl).2) fun h => by omega
  rw [hopen, pageFaultIn_eq_some hj hpf hok] at hstop
  refine exec_store_of_stop (x := .fault _) (Shape.shape_instr _) hen (hstop.trans ?_)
  cases Config.acDraw s.draws <;> rfl

/-! ## Zero bytes, the wrap and devices -/

/-- Settles O24: with no byte to write only R52's check is left. -/
theorem zeroLengthStore : Obligations.ZeroLengthStore := by
  intro i es vl p k src m hi s hen hn
  have hstop := storeStop_zero (s := s) (es := es) (seg := segmentOf p m) (la := storeAddr s es p m)
  rw [← hn] at hstop
  refine ⟨fun c a q h => ?_, fun hc => ?_, fun hc => ?_⟩
  · rcases storeStop_fault ((exec_store_fault_iff hi hen).1 h) with ⟨_, e⟩ | e | ⟨_, _, hj, _⟩
    · split at e <;> cases e
    · cases e
    · omega
  · rw [if_neg (by simp [hc])] at hstop
    exact storeResult_of_checks hi hen hstop
  · split
    case isTrue hraises =>
      rw [if_pos ⟨hc, (zeroLenRaises_iff s).2 hraises⟩, addressStop_eq] at hstop
      exact exec_store_of_stop hi hen hstop
    case isFalse hraises =>
      rw [if_neg fun h => hraises ((zeroLenRaises_iff s).1 h.2)] at hstop
      exact storeResult_of_checks hi hen hstop

/-- Settles O26: the wrap is the first of the store checks. -/
theorem wrappingStoreIsRefused : Obligations.WrappingStoreIsRefused := by
  intro i es vl p k src m hi s hen hn hw
  exact exec_store_of_stop hi hen (storeStop_of_wrap hn hw)

/-- Settles O28: the device marks are the last of the store checks. -/
theorem deviceStoreIsRefused : Obligations.DeviceStoreIsRefused := by
  intro i es vl p k src m hi s hen hac hw hbytes hdev
  have hclosed : acOpen s es (storeAddr s es p m) (storeBytes s es vl k) = false := by
    rw [← Bool.not_eq_true, acOpen_iff]
    rintro ⟨hon, rfl, _, hodd⟩
    rcases hac with h | h | h
    · cases h.symm.trans hon
    · cases h
    · cases h.symm.trans hodd
  have hpos : storeBytes s es vl k ≠ 0 := by
    obtain ⟨j, hj, _⟩ := hdev
    omega
  have hstop := storeStop_of_canonical (es := es) (seg := segmentOf p m) hw (fun l hl => (hbytes l hl).1)
    (fun l hl => (hbytes l hl).2.1) fun h => absurd h hpos
  rw [hclosed, (pageFaultIn_none _ _ _ _).2 fun l hl => (hbytes l hl).2.2, (anyByte_eq_true _ _ _).2 hdev] at hstop
  exact exec_store_of_stop hi hen hstop

/-! ## A store run again -/

/-- The linear address of a store reads the general registers, `pc` and the segment bases. -/
theorem storeAddr_congr {s s' : State} (hgpr : s'.gpr = s.gpr) (hpc : s'.pc = s.pc) (hfs : s'.fsBase = s.fsBase)
    (hgs : s'.gsBase = s.gsBase) (es : ElemSize) (p : Prefixes) (m : MemOperand) :
    storeAddr s' es p m = storeAddr s es p m := by
  have hseg : segmentBase s' (segmentOf p m) = segmentBase s (segmentOf p m) := by
    cases segmentOf p m <;> simp only [segmentBase, hfs, hgs]
  rw [storeAddr, storeAddr, linearAddress, linearAddress, hseg]
  cases m <;> simp only [effectiveAddress, indexTerm, regTerm, readGpr, hgpr, hpc]

/-- What a store packs reads the vector and opmask registers. -/
theorem compressSource_congr {s s' : State} (hzmm : s'.zmm = s.zmm) (hkreg : s'.kreg = s.kreg) (es : ElemSize)
    (vl : VecLen) (k : KReg) (src : VReg) : compressSource s' es vl k src = compressSource s es vl k src := by
  simp only [compressSource, sourceValue, readZmm, hzmm, writemask, readK, hkreg]

/-- What every byte reads after a completed store: the stored bytes in the range, the old byte outside it (R44, R45). -/
theorem byteAt_exec_store {i : Instr} {es : ElemSize} {vl : VecLen} {p : Prefixes} {k : KReg} {src : VReg} {m : MemOperand}
    {s t : State} (hi : i.shape = .store es vl p k src m) (h : exec i s = .next t) (a : Nat) :
    byteAt t a =
      if (storeAddr s es p m).toNat ≤ a ∧ a < (storeAddr s es p m).toNat + storeBytes s es vl k then
        some ((compressSource s es vl k src).2.extractLsb' (8 * (a - (storeAddr s es p m).toNat)) 8)
      else byteAt s a := by
  obtain ⟨⟨_, hbytes⟩, rfl⟩ := exec_store_next hi h
  exact byteAt_storeCommit (fun j hj => (hbytes j hj).1) a

/-- Settles O27: the second run has the same LA, count and packed value, so it stores what the first stored. -/
theorem storeIsIdempotent : Obligations.StoreIsIdempotent := by
  intro i es vl p k src m hi s t u ht hu a
  obtain ⟨hzmm, ⟨hkreg, hgpr, hfs, hgs, _⟩, _⟩ := storeFormsFrame i es vl p k src m hi s t ht
  have haddr : storeAddr { t with pc := s.pc } es p m = storeAddr s es p m := 
    storeAddr_congr (s' := { t with pc := s.pc }) hgpr rfl hfs hgs es p m
  have hsrc : compressSource { t with pc := s.pc } es vl k src = compressSource s es vl k src :=
    compressSource_congr (s' := { t with pc := s.pc }) hzmm hkreg es vl k src
  have hcount : storeBytes { t with pc := s.pc } es vl k = storeBytes s es vl k := by
    rw [← storeCount_eq_storeBytes _ es vl k src, ← storeCount_eq_storeBytes s es vl k src, storeCount, storeCount, hsrc]
  have hfirst := byteAt_exec_store hi ht a
  rw [byteAt_exec_store hi hu a, haddr, hsrc, hcount]
  split
  case isTrue hin => rw [hfirst, if_pos hin]
  case isFalse => rfl

/-! ## Bytes that are not written (R51) -/

/-- `s` with the environment `e`. -/
def withEnv (e : Env) (s : State) : State := { s with env := e }

@[simp] theorem withEnv_env (e : Env) (s : State) : (withEnv e s).env = e := rfl

/-- The environment with the translation `tr` and the address width `va`. -/
def retranslated (tr : List XlatEntry) (va : VaBits) (e : Env) : Env := { e with translate := tr, vaBits := va }

theorem zeroLenOpen_of_pos {s : State} {la : Addr} {n : Nat} (hn : n ≠ 0) : zeroLenOpen s la n = false := by
  simp [zeroLenOpen, hn]

theorem pageFaultIn_congr {e e' : Env} {a : Addr} {kind : AccessKind} {n : Nat}
    (h : ∀ j < n, translate e' (a + BitVec.ofNat 64 j) kind = translate e (a + BitVec.ofNat 64 j) kind) :
    pageFaultIn e' a kind n = pageFaultIn e a kind n := by
  induction n with
  | zero => rfl
  | succ n ih =>
    rw [pageFaultIn_succ, pageFaultIn_succ, ih fun j hj => h j (by omega), pageFaultAt, pageFaultAt, h n (by omega)]

section xlat
variable {s : State} {e : Env} {tr : List XlatEntry} {va : VaBits} {la : Addr} {n : Nat}

/-- The store checks ask `Translate` and canonicity of the n bytes, and canonicity of LA where n = 0 (R52). -/
theorem storeStop_retranslated (he : e = retranslated tr va s.env) (es : ElemSize) (seg : Segment)
    (h : ∀ j < n, translate e (la + BitVec.ofNat 64 j) .write = translate s.env (la + BitVec.ofNat 64 j) .write ∧
      canonical e (la + BitVec.ofNat 64 j) = canonical s.env (la + BitVec.ofNat 64 j))
    (hz : n = 0 → canonical e la = canonical s.env la) :
    storeStop (withEnv e s) es seg la n = storeStop s es seg la n := by
  have hcan : anyByte la n (fun a => !canonical e a) = anyByte la n (fun a => !canonical s.env a) := by
    rw [Bool.eq_iff_iff, anyByte_eq_true, anyByte_eq_true]
    exact exists_congr fun j => and_congr_right fun hj => by rw [(h j hj).2]
  have hzero : (n = 0 ∧ canonical e la = false ∧ zeroLenRaises (withEnv e s) = true) ↔
      (n = 0 ∧ canonical s.env la = false ∧ zeroLenRaises s = true) :=
    and_congr_right fun hn => by rw [hz hn, he]; rfl
  have hpf := pageFaultIn_congr fun j hj => (h j hj).1
  simp only [storeStop, withEnv_env, hcan, hzero, hpf]
  rw [he]
  rfl

/-- The count of open choices asks canonicity of LA where n = 0 alone. -/
theorem storeDraws_retranslated (he : e = retranslated tr va s.env) (es : ElemSize)
    (hz : n = 0 → canonical e la = canonical s.env la) :
    storeDraws (withEnv e s) es la n = storeDraws s es la n := by
  have hopen : zeroLenOpen (withEnv e s) la n = zeroLenOpen s la n := by
    by_cases hn : n = 0
    · rw [zeroLenOpen, zeroLenOpen, withEnv_env, hz hn, he]; rfl
    · rw [zeroLenOpen_of_pos hn, zeroLenOpen_of_pos hn]
  rw [storeDraws, storeDraws, hopen, acOpen, acOpen, withEnv_env, he]
  rfl

end xlat

/-- A store form run in a state that is enabled, checked and committed as another. -/
theorem storeForm_map_of_eq {es : ElemSize} {vl : VecLen} {p : Prefixes} {k : KReg} {src : VReg} {m : MemOperand}
    {s s' : State} (g : State → State) (hen : enabledStop vl s' = enabledStop vl s)
    (hstop : storeStop s' es (segmentOf p m) (storeAddr s' es p m) (storeCount s' es vl k src) =
      storeStop s es (segmentOf p m) (storeAddr s es p m) (storeCount s es vl k src))
    (hg : complete (storeCommit s' es (storeAddr s' es p m) (storeCount s' es vl k src) (compressSource s' es vl k src).2)
        (storeLen p m) =
      g (complete (storeCommit s es (storeAddr s es p m) (storeCount s es vl k src) (compressSource s es vl k src).2)
        (storeLen p m))) :
    storeForm es vl p k src m s' = mapOut g (storeForm es vl p k src m s) := by
  rcases storeForm_cases es vl p k src m s with ⟨x, h1, e⟩ | ⟨x, h1, h2, e⟩ | ⟨h1, h2, e⟩ <;> rw [e]
  · rw [storeForm_of_disabled (hen.trans h1), mapOut_stop]
  · rw [storeForm_of_stop (hen.trans h1) (hstop.trans h2), mapOut_stop]
  · rw [storeForm_of_checks (hen.trans h1) (hstop.trans h2), hg, mapOut_next]

/-- Settles O29: the store checks ask what is kept, and the rest of a store asks it for the count of open choices alone. -/
theorem unwrittenBytesHaveNoEffect : Obligations.UnwrittenBytesHaveNoEffect := by
  intro i es vl p k src m hi s tr va h hz
  have hstop := storeStop_retranslated (e := retranslated tr va s.env) rfl es (segmentOf p m) h hz
  have hdraws := storeDraws_retranslated (e := retranslated tr va s.env) rfl es hz
  have hen : enabledStop vl (withEnv (retranslated tr va s.env) s) = enabledStop vl s := rfl
  rw [← storeCount_eq_storeBytes s es vl k src] at hstop hdraws
  rw [exec_store hi, exec_store hi]
  refine storeForm_map_of_eq (withEnv (retranslated tr va s.env)) hen hstop ?_
  exact State.ext_fields rfl rfl rfl rfl rfl rfl rfl rfl rfl rfl (congrArg (s.draws + ·) hdraws)

end Sys2Proof.Machine
end

section
/-! SUPPORT. What a fault records and in which order the exceptions stand (60_exceptions.md R130, R142, R143), the invariant of
the machine, and the run of a program (70_reset_and_hazards.md R167, R168, R170). -/

namespace Sys2Proof.Machine

open Sys2Proof.Claims Sys2Proof.Safety

/-! ## Every fault is raised (R143) -/

/-- Whether a fault is one `raise` gives in this state. -/
def Raised (s : State) (f : Fault) : Prop := ∃ e, raise e s = .fault f

theorem raised_of_addressStop {seg : Segment} {s : State} {f : Fault} (h : addressStop seg s = .fault f) : Raised s f := by
  rw [addressStop] at h
  split at h
  exacts [⟨.ss, h⟩, ⟨.gp, h⟩]

/-- Where an instruction's fault comes from (R142): the enabling checks, or past them the checks of a store. -/
theorem exec_fault_cases {i : Instr} {s : State} {f : Fault} (h : exec i s = .fault f) :
    enabledStop (vecLen i) s = some (.fault f) ∨
      (Enabled s (vecLen i) ∧ ∃ es vl p k src m, i.shape = .store es vl p k src m ∧
        storeStop s es (segmentOf p m) (storeAddr s es p m) (storeBytes s es vl k) = some (.fault f)) := by
  cases hi : i.shape with
  | store es vl p k src m =>
    rw [exec_store hi] at h
    simp only [vecLen, hi, ← enabledStop_none_iff]
    refine (storeForm_fault h).imp_right fun ⟨hnone, hstop⟩ => ⟨hnone, es, vl, p, k, src, m, rfl, ?_⟩
    rwa [storeCount_eq_storeBytes] at hstop
  | reg es vl p z k dst src =>
    rw [exec_reg hi] at h
    simp only [vecLen, hi]
    exact .inl (regForm_fault h)

theorem exec_fault_raised {i : Instr} {s : State} {f : Fault} (h : exec i s = .fault f) : Raised s f := by
  rcases exec_fault_cases h with hstop | ⟨_, es, vl, p, k, src, m, _, hstop⟩
  · rcases enabledStop_fault hstop with rfl | rfl
    exacts [⟨.ud, rfl⟩, ⟨.nm, rfl⟩]
  · rcases storeStop_some hstop with e | e | ⟨_, e⟩ | ⟨_, ⟨_, e⟩ | ⟨c, _, _, _, _, e⟩ | e⟩
    · cases e
    · cases e
    · exact raised_of_addressStop e.symm
    · exact ⟨_, e.symm⟩
    · exact ⟨_, e.symm⟩
    · cases e

theorem fetchStop_fault_raised {s : State} {n : Nat} {f : Fault} (h : fetchStop s n = some (.fault f)) : Raised s f := by
  rw [fetchStop] at h
  split at h
  · cases h
  split at h
  · cases h
  split at h
  · rw [Option.some.injEq] at h; exact ⟨_, h⟩
  · cases h

theorem fetchInstr_fault_raised {s : State} {f : Fault} (h : fetchInstr s = .stop (.fault f)) : Raised s f := by
  rw [fetchInstr] at h
  split at h
  · cases h
  split at h
  · cases h
  split at h
  · cases h
  split at h
  · cases h
  case h_2 ilen _ =>
    cases hstop : fetchStop s ilen with
    | none => rw [hstop] at h; cases h; exact ⟨.ud, rfl⟩
    | some x => rw [hstop] at h; cases h; exact fetchStop_fault_raised hstop
  case h_3 i ilen _ =>
    cases hstop : fetchStop s ilen with
    | none => rw [hstop] at h; cases h
    | some x => rw [hstop] at h; cases h; exact fetchStop_fault_raised hstop

theorem step_fault_raised {s : State} {f : Fault} (h : step s = .fault f) : Raised s f := by
  rw [step] at h
  split at h
  case h_1 => exact exec_fault_raised h
  case h_2 x hx =>
    cases x with
    | fault g => cases h; exact fetchInstr_fault_raised hx
    | refuse r => cases h

/-- Settles O30: every fault is raised at `pc`, with the record of one of the six exceptions. -/
theorem faultRecordsPcAndVector : Obligations.FaultRecordsPcAndVector := by
  intro s f h
  obtain ⟨e, he⟩ := step_fault_raised h
  cases e <;> cases he <;> simp [faultRecord]

/-- Settles O31: #NM comes from the enabling checks past those of #UD, and the memory faults from the store checks, whose
canonical check stands before #AC and #PF. -/
theorem exceptionPriority : Obligations.ExceptionPriority := by
  intro i s f h
  rcases exec_fault_cases h with hstop | ⟨hen, es, vl, p, k, src, m, hi, hstop⟩
  · rcases enabledStop_some hstop with ⟨_, e⟩ | ⟨_, _, e⟩ | ⟨_, hos, hf, _, e⟩
    · cases e
    · cases e; simp [faultRecord]
    · cases e
      exact ⟨fun _ => ⟨hos, (featuresPresent_iff _ _).1 hf⟩, by simp [faultRecord], by simp [faultRecord]⟩
  · have ⟨_, hf, hos, _⟩ := hen
    refine ⟨fun _ => ⟨hos, hf⟩, fun _ => hen, fun hv es' vl' p' k' src' m' hi' => ?_⟩
    cases hi.symm.trans hi'
    rcases storeStop_some hstop with e | e | ⟨_, e⟩ | ⟨hcan, _⟩
    · cases e
    · cases e
    · rw [addressStop_eq, Stop.fault.injEq] at e
      subst e
      split at hv <;> simp [faultRecord] at hv
    · exact hcan

/-! ## The invariant -/

/-- Settles O53: every part is a fact of the reset state's values. -/
theorem resetMeetsLaunchPremises : Obligations.ResetMeetsLaunchPremises :=
  ⟨by decide, by decide, rfl, by decide, rfl, by decide, rfl⟩

/-- R32: completing keeps memory in canonical form, since the bytes stored end at or below 2^64. -/
theorem exec_memWf {i : Instr} {s t : State} (hm : memWf s.mem = true) (h : exec i s = .next t) : memWf t.mem = true := by
  cases hi : i.shape with
  | store es vl p k src m =>
    obtain ⟨⟨hw, _⟩, rfl⟩ := exec_store_next hi h
    exact memWf_writeBytes hm _ _ _ hw
  | reg es vl p z k dst src =>
    obtain rfl := exec_reg_next hi h
    exact hm

/-- R168: a completed step leaves `pc` past the instruction, whose bytes are bytes of the text and end below 2^64. -/
theorem step_pc {s t : State} (h : step s = .next t) :
    ∃ n, n ≤ (textFrom s).length ∧ inText s.env s.pc.toNat = true ∧ t.pc.toNat = s.pc.toNat + n := by
  obtain ⟨i, n, _, ht, hdec, hfetch, hexec⟩ := step_next h
  obtain ⟨hend, _⟩ := fetchStop_none_iff.1 hfetch
  obtain ⟨_, hn, rest, hrest⟩ := encodeOfDecode _ i n hdec
  refine ⟨n, ?_, ht, ?_⟩
  · rw [textFrom, hrest, List.length_append, hn]; omega
  · rw [completionFallsThrough i s t hexec, ← hn, BitVec.toNat_add, BitVec.toNat_ofNat]
    omega

/-- Settles O54: a store's range does not wrap, and an instruction's bytes are bytes of the text. -/
theorem stepKeepsInvariant : Obligations.StepKeepsInvariant := by
  intro s t ⟨hm, hfit, hbase, _⟩ h
  obtain ⟨_, _, _, _, _, _, hexec⟩ := step_next h
  obtain ⟨n, hn, ht, hpc⟩ := step_pc h
  rw [textFrom, List.length_drop] at hn
  simp only [inText, Bool.and_eq_true, decide_eq_true_eq] at ht
  refine ⟨exec_memWf hm hexec, ?_⟩
  rw [PcInProgram, environmentIsConstant s t h, hpc]
  omega

/-! ## The run of a program -/

/-- R90: an encoding is 6 bytes at least. -/
theorem encode_length_pos (i : Instr) : 0 < (encode i).length := by
  have hlen : Laws.Length.Statement i := by
    cases hi : i.shape with
    | store => exact Laws.Length.of_store hi
    | reg => exact Laws.Length.of_reg hi
  obtain ⟨heq, hle, _⟩ := hlen
  omega

/-- A launch of R163 and R170: the program text is the encodings of `is`, well formed, fetchable and below 2^64, in
`Long64`. -/
structure Launched (is : List Instr) (e : Env) : Prop where
  wf : ∀ i ∈ is, i.wf = true
  text : e.progBytes = is.flatMap encode
  mode : Mode64 e
  fetchable : TextFetchable e
  fits : e.progBase.toNat + e.progBytes.length < 2 ^ 64

/-- The address of the j-th encoding of a program. -/
def instrAddr (is : List Instr) (e : Env) (j : Nat) : Nat := e.progBase.toNat + ((is.take j).flatMap encode).length

section run
variable {is : List Instr} {s t : State} {j : Nat}

theorem flatMap_encode_split (h : j < is.length) :
    is.flatMap encode = (is.take j).flatMap encode ++ (encode is[j] ++ (is.drop (j + 1)).flatMap encode) := by
  rw [← List.flatMap_cons, ← List.drop_eq_getElem_cons h, ← List.flatMap_append, List.take_append_drop]

/-- R169, R170: where `pc` stands at the j-th encoding, the j-th instruction is fetched. -/
theorem fetches_of_launched (hl : Launched is s.env) (h : j < is.length) (hpc : s.pc.toNat = instrAddr is s.env j) :
    Fetches s is[j] (encode is[j]).length := by
  obtain ⟨hwf, htext, hmode, ⟨_, hfetch⟩, hfits⟩ := hl
  have hsplit := htext.trans (flatMap_encode_split h)
  have hlen := congrArg List.length hsplit
  simp only [List.length_append] at hlen
  have hpos := encode_length_pos is[j]
  rw [instrAddr] at hpc
  have hfrom : textFrom s = encode is[j] ++ (is.drop (j + 1)).flatMap encode := by
    rw [textFrom, hpc, Nat.add_sub_cancel_left, hsplit, List.drop_left]
  refine ⟨hmode, ?_, ?_, by omega, fun l hl => ?_⟩
  · simp only [inText, Bool.and_eq_true, decide_eq_true_eq]; omega
  · rw [hfrom]
    exact decodeOfEncode _ _ (hwf _ (List.getElem_mem h))
  · have haddr : s.pc + BitVec.ofNat 64 l =
        s.env.progBase + BitVec.ofNat 64 (((is.take j).flatMap encode).length + l) := by
      refine BitVec.eq_of_toNat_eq ?_
      simp only [BitVec.toNat_add, BitVec.toNat_ofNat]
      omega
    rw [haddr]
    exact hfetch _ (by omega)

/-- R170: after the last encoding the run is over. -/
theorem runOver_of_launched (hl : Launched is s.env) (hpc : s.pc.toNat = instrAddr is s.env is.length) : RunOver s := by
  rw [RunOver, hpc, instrAddr, List.take_length, hl.text]

/-- R167: after j completed steps from the first encoding, `pc` stands at the j-th and the environment is as it was. -/
theorem run_launched (hl : Launched is s.env) (hpc : s.pc = s.env.progBase) (hj : j ≤ is.length)
    (h : Sys2Proof.core.run j s = .next t) : t.env = s.env ∧ t.pc.toNat = instrAddr is s.env j := by
  induction j generalizing t with
  | zero => cases h; simp [instrAddr, hpc]
  | succ j ih =>
    replace h := (run_succ Sys2Proof.core j s).symm.trans h
    split at h
    case h_2 | h_3 => cases h
    case h_1 u hu =>
      obtain ⟨henv, hupc⟩ := ih (by omega) hu
      rw [← henv] at hl hupc
      have hfetches := fetches_of_launched hl hj hupc
      have hstep : step u = .next t := h
      rw [stepRunsDecodedInstruction u _ _ hfetches] at hstep
      obtain ⟨_, _, _, hend, _⟩ := hfetches
      refine ⟨(environmentIsConstant u t h).trans henv, ?_⟩
      rw [completionFallsThrough _ u t hstep, BitVec.toNat_add, BitVec.toNat_ofNat, hupc, ← henv, instrAddr, instrAddr,
        List.take_succ_eq_append_getElem hj, List.flatMap_append, List.length_append]
      rw [hupc, instrAddr] at hend
      simp only [List.flatMap_cons, List.flatMap_nil, List.append_nil]
      omega

end run

/-- Settles O55: the run stands at the j-th encoding, which is fetched, or at the end of the text. -/
theorem programRunsInOrder : Obligations.ProgramRunsInOrder := by
  intro is s t j hwf htext hpc hmode hfetch hfits hj h
  have hl : Launched is s.env := ⟨hwf, htext, hmode, hfetch, hfits⟩
  obtain ⟨henv, htpc⟩ := run_launched hl hpc hj h
  refine ⟨htpc, fun hlt => ?_, fun hend => ?_⟩
  · rw [← henv] at hl htpc
    exact stepRunsDecodedInstruction t _ _ (fetches_of_launched hl hlt htpc)
  · rw [← henv] at hl htpc
    rw [hend] at htpc
    have hover := runOver_of_launched hl htpc
    obtain ⟨_, hrunOver, _⟩ := stepOutsideProgramRefused t
    exact ⟨hover, hrunOver hl.mode hover⟩

end Sys2Proof.Machine
end

section
/-! SUPPORT. The address of a memory operand as an integer sum (30_encoding.md R71 to R76), and what follows from it for the
address size, the segment, the displacement and the encodings of one address (R77). -/

namespace Sys2Proof.Machine

open Sys2Proof.Claims Sys2Proof.Safety

/-! ## The address size (R74) -/

/-- R71: ASZ is 32 exactly where 67H is among the prefixes. -/
theorem asz_eq (p : Prefixes) : asz p = if addr32 p then 32 else 64 := by
  cases p with
  | none | addr32 => rfl
  | seg o | segAddr32 o | addr32Seg o => cases o <;> rfl

theorem toNat_toAsz (p : Prefixes) (v : Addr) : (toAsz (addr32 p) v).toNat = v.toNat % 2 ^ asz p := by
  rw [asz_eq]
  cases addr32 p with
  | true => simp [toAsz]; omega
  | false => simp [toAsz]; omega

/-! ## Addresses as integers -/

/-- `v` is the integer `n` modulo 2^ASZ. -/
def Denotes (p : Prefixes) (v : Addr) (n : Int) : Prop := (v.toNat : Int) ≡ n [ZMOD 2 ^ asz p]

/-- 2^ASZ divides 2^64, so arithmetic modulo 2^64 is arithmetic modulo 2^ASZ. -/
theorem two_pow_asz_dvd (p : Prefixes) : (2 : Int) ^ asz p ∣ 2 ^ 64 := by
  rw [asz_eq]
  cases addr32 p <;> decide

section denotes
variable {p : Prefixes} {v w : Addr} {n k : Int}

theorem denotes_of_emod (h : (v.toNat : Int) = n % 2 ^ 64) : Denotes p v n := by
  rw [Denotes, h]
  exact (Int.mod_modEq n _).of_dvd (two_pow_asz_dvd p)

theorem Denotes.add (hv : Denotes p v n) (hw : Denotes p w k) : Denotes p (v + w) (n + k) :=
  (denotes_of_emod (by simp [BitVec.toNat_add])).trans (Int.ModEq.add hv hw)

theorem Denotes.shiftLeft (hv : Denotes p v n) (i : Nat) : Denotes p (v <<< i) (n * 2 ^ i) :=
  (denotes_of_emod (by simp [BitVec.toNat_shiftLeft, Nat.shiftLeft_eq])).trans (Int.ModEq.mul_right _ hv)

theorem denotes_ofNat (i : Nat) : Denotes p (BitVec.ofNat 64 i) i := denotes_of_emod (by simp)

theorem denotes_toNat (v : Addr) : Denotes p v v.toNat := Int.ModEq.refl _

theorem denotes_toInt (v : Addr) : Denotes p v v.toInt :=
  denotes_of_emod (by
    have := v.isLt
    rw [BitVec.toInt_eq_toNat_cond]
    split <;> omega)

theorem denotes_signExtend {l : Nat} (d : BitVec l) (hl : l ≤ 64) : Denotes p (d.signExtend 64) d.toInt := by
  have h := denotes_toInt (p := p) (d.signExtend 64)
  rwa [BitVec.toInt_signExtend_of_le hl] at h

/-- Where 67H is among the prefixes, reducing to 32 bits keeps what an address denotes. -/
theorem Denotes.reduced {a32 : Bool} (ha : a32 = true → addr32 p = true) (h : Denotes p v n) :
    Denotes p (toAsz a32 v) n := by
  cases a32 with
  | false => exact h
  | true =>
    rw [← ha rfl, Denotes, toNat_toAsz]
    push_cast
    exact (Int.mod_modEq _ _).trans h

/-- An address reduced to ASZ bits is what it denotes, reduced. -/
theorem Denotes.toNat_reduced (h : Denotes p v n) : ((toAsz (addr32 p) v).toNat : Int) = n % 2 ^ asz p := by
  rw [toNat_toAsz]
  push_cast
  exact h

end denotes

/-! ## The terms of an address (R71 to R76) -/

/-- The sum of an operand's terms before it is reduced modulo 2^ASZ (R72, R74). -/
def rawAddress (s : State) (es : ElemSize) (a32 : Bool) (m : MemOperand) (ilen : Nat) : Addr :=
  match m with
  | .base b d _ => regTerm s a32 b + dispTerm es d
  | .rip d _ _ => s.pc + BitVec.ofNat 64 ilen + d.signExtend 64
  | .sib b i sc d => regTerm s a32 b + indexTerm s a32 i sc + dispTerm es d
  | .sibNoBase i sc d _ => indexTerm s a32 i sc + d.signExtend 64

theorem effectiveAddress_eq (s : State) (es : ElemSize) (p : Prefixes) (m : MemOperand) (ilen : Nat) :
    effectiveAddress s es p m ilen = toAsz (addr32 p) (rawAddress s es (addr32 p) m ilen) := by
  cases m <;> rfl

section terms
variable (s : State) (p : Prefixes) (es : ElemSize)

/-- R76: a disp8 scaled by the element size, at any width it fits. -/
theorem scaled_disp8 (es : ElemSize) (d : BitVec 8) :
    d.signExtend 64 * BitVec.ofNat 64 (esize es) = (d.signExtend 32 * BitVec.ofNat 32 (esize es)).signExtend 64 ∧
      (d.signExtend 32 * BitVec.ofNat 32 (esize es)).toInt = d.toInt * esize es := by
  revert d
  cases es <;> decide

theorem denotes_dispTerm (d : Disp) : Denotes p (dispTerm es d) (dispInt es d) := by
  cases d with
  | none => exact denotes_toNat 0
  | disp8 d =>
    obtain ⟨hbits, hint⟩ := scaled_disp8 es d
    rw [dispTerm, dispInt, hbits, ← hint]
    exact denotes_signExtend _ (by decide)
  | disp32 d => exact denotes_signExtend d (by decide)

variable {a32 : Bool} (ha : a32 = true → addr32 p = true)
include ha

theorem denotes_regTerm (r : GReg) : Denotes p (regTerm s a32 r) (gprTerm s p r) :=
  Denotes.reduced ha (Int.mod_modEq _ _).symm

theorem denotes_indexTerm (i : GReg) (sc : BitVec 2) : Denotes p (indexTerm s a32 i sc) (scaledIndex s p i sc) := by
  rw [indexTerm, scaledIndex]
  split
  · exact denotes_toNat 0
  · exact (denotes_regTerm s p ha i).shiftLeft _

/-- R71 to R75: the terms sum to the address, each register read in full or as its low ASZ bits. -/
theorem denotes_rawAddress (m : MemOperand) (ilen : Nat) :
    Denotes p (rawAddress s es a32 m ilen) (addressSum s es p m ilen) := by
  cases m with
  | base b d x => exact (denotes_regTerm s p ha b).add (denotes_dispTerm p es d)
  | rip d x b => exact ((denotes_toNat s.pc).add (denotes_ofNat ilen)).add (denotes_signExtend d (by decide))
  | sib b i sc d =>
    exact ((denotes_regTerm s p ha b).add (denotes_indexTerm s p ha i sc)).add (denotes_dispTerm p es d)
  | sibNoBase i sc d b => exact (denotes_indexTerm s p ha i sc).add (denotes_signExtend d (by decide))

end terms

/-- R71 to R75: EA is the sum of its terms modulo 2^ASZ. -/
theorem toNat_effectiveAddress (s : State) (es : ElemSize) (p : Prefixes) (m : MemOperand) (ilen : Nat) :
    ((effectiveAddress s es p m ilen).toNat : Int) = addressSum s es p m ilen % 2 ^ asz p := by
  rw [effectiveAddress_eq]
  exact (denotes_rawAddress s p es id m ilen).toNat_reduced

theorem effectiveAddress_congr {p q : Prefixes} (h : addr32 p = addr32 q) (s : State) (es : ElemSize) (m : MemOperand)
    (ilen : Nat) : effectiveAddress s es p m ilen = effectiveAddress s es q m ilen := by
  rw [effectiveAddress_eq, effectiveAddress_eq, h]

/-! ## The segment (R31, R74) -/

/-- Without an override no segment adds anything. -/
theorem segmentBase_of_no_override {p : Prefixes} (h : segOverride p = none) (s : State) (m : MemOperand) :
    segmentBase s (segmentOf p m) = 0 := by
  cases m with
  | rip | sibNoBase => simp only [segmentOf, h, segmentBase]
  | base b | sib b =>
    simp only [segmentOf, h]
    cases baseIsStack b <;> rfl

theorem segmentOf_fs {p : Prefixes} (h : segOverride p = some .fs) (m : MemOperand) : segmentOf p m = .fs := by
  simp only [segmentOf, h]

theorem segmentOf_gs {p : Prefixes} (h : segOverride p = some .gs) (m : MemOperand) : segmentOf p m = .gs := by
  simp only [segmentOf, h]

/-- The segment base is that of the override's byte. -/
theorem segBaseInt_eq (s : State) (p : Prefixes) (m : MemOperand) :
    segBaseInt s p = (segmentBase s (segmentOf p m)).toNat := by
  cases ho : segOverride p with
  | none =>
    rw [segmentBase_of_no_override ho]
    cases p <;> cases ho <;> rfl
  | some o =>
    cases o
    · rw [segmentOf_fs ho]
      cases p <;> cases ho <;> rfl
    · rw [segmentOf_gs ho]
      cases p <;> cases ho <;> rfl

/-! ## The statements -/

/-- Settles O56: each term denotes its integer, and the length is the encoding's. -/
theorem effectiveAddressIsSum : Obligations.EffectiveAddressIsSum := by
  intro s es p m
  refine ⟨toNat_effectiveAddress s es p m, fun vl k src => ?_⟩
  rw [encode_length, Instr.len, Shape.shape_instr, Shape.len, ← toNat_effectiveAddress, segBaseInt_eq s p m, storeAddr,
    linearAddress, BitVec.toNat_add]
  push_cast
  rfl

/-- Settles O39: modulo 2^32 the sum with full registers denotes what the sum with their low halves does. -/
theorem address32IsTruncation : Obligations.Address32IsTruncation := by
  intro s es p m ilen h
  have hfull : effectiveAddress s es .none m ilen = rawAddress s es false m ilen := effectiveAddress_eq s es .none m ilen
  have htrunc : ∀ v : Addr, (v.setWidth 32).setWidth 64 = toAsz (addr32 p) v := fun v => by rw [h]; rfl
  rw [hfull, htrunc]
  refine BitVec.eq_of_toNat_eq ?_
  have hraw := denotes_rawAddress s p es (a32 := false) nofun m ilen
  exact_mod_cast (toNat_effectiveAddress s es p m ilen).trans hraw.toNat_reduced.symm

/-- Settles O40: the override names the segment, and the effective address reads no override. -/
theorem segmentOverrideAddsBase : Obligations.SegmentOverrideAddsBase := by
  intro s es m ilen o
  have hseg := effectiveAddress_congr (p := .seg o) (q := .none) rfl s es m ilen
  have hseg32 := effectiveAddress_congr (p := .segAddr32 o) (q := .addr32) rfl s es m ilen
  have hnone := segmentBase_of_no_override (p := .none) rfl s m
  have haddr32 := segmentBase_of_no_override (p := .addr32) rfl s m
  simp only [linearAddress, hnone, haddr32, hseg, hseg32]
  cases o <;> simp [segmentOf, segOverride, segmentBase, effectiveAddress_congr (p := .addr32Seg _) (q := .addr32) rfl]

/-- Settles O42: the two displacements are one term. -/
theorem compressedDisplacement : Obligations.CompressedDisplacement := by
  intro s es p b x sc ix d ilen
  obtain ⟨hbits, _⟩ := scaled_disp8 es d
  simp only [effectiveAddress, dispTerm, hbits, and_self]

/-- The operands of R77 have one address, whatever the length, and one segment. -/
theorem sameAddressForms_eq {b : GReg} {x : BitVec 1} {sc : BitVec 2} {m : MemOperand} (h : m ∈ sameAddressForms b x sc)
    (s : State) (es : ElemSize) (p : Prefixes) :
    segmentOf p m = segmentOf p (.base b .none x) ∧
      storeAddr s es p m = storeAddr s es p (.base b .none x) := by
  simp only [sameAddressForms, List.mem_cons, List.not_mem_nil, or_false] at h
  have hseg : segmentOf p m = segmentOf p (.base b .none x) := by rcases h with rfl | rfl | rfl | rfl | rfl | rfl <;> rfl
  refine ⟨hseg, ?_⟩
  rw [storeAddr, storeAddr, linearAddress, linearAddress, hseg]
  rcases h with rfl | rfl | rfl | rfl | rfl | rfl <;> simp [effectiveAddress, dispTerm, indexTerm]

/-- Settles O43: the store checks and the commit see the segment and LA alone. -/
theorem encodingsOfOneAddressAgree : Obligations.EncodingsOfOneAddressAgree := by
  intro es vl p k src b x sc s t m m' hm hm' h
  rw [exec_store (Shape.shape_instr _)] at h ⊢
  obtain ⟨hseg, haddr⟩ := sameAddressForms_eq hm s es p
  obtain ⟨hseg', haddr'⟩ := sameAddressForms_eq hm' s es p
  obtain ⟨hen, hstop, rfl⟩ := storeForm_next h
  rw [hseg, ← hseg', haddr, ← haddr'] at hstop
  rw [storeForm_of_checks hen hstop, haddr, haddr']
  rfl

/-! ## Position independence (R72, R170) -/

/-- `s` with `pc` at `q`. -/
def withPc (q : Addr) (s : State) : State := { s with pc := q }

/-- R170: only a RIP-relative operand reads `pc`. -/
theorem storeAddr_withPc {m : MemOperand} (h : ∀ d x b, m ≠ .rip d x b) (q : Addr) (s : State) (es : ElemSize)
    (p : Prefixes) : storeAddr (withPc q s) es p m = storeAddr s es p m := by
  have hseg : segmentBase (withPc q s) (segmentOf p m) = segmentBase s (segmentOf p m) := by
    cases segmentOf p m <;> rfl
  rw [storeAddr, storeAddr, linearAddress, linearAddress, hseg]
  cases m with
  | rip d x b => exact absurd rfl (h d x b)
  | base | sib | sibNoBase => rfl

/-- The enabling checks pass wherever an instruction stands. -/
theorem enabledStop_withPc {vl : VecLen} {s : State} (h : enabledStop vl s = none) (q : Addr) :
    enabledStop vl (withPc q s) = none :=
  (enabledStop_none_iff vl (withPc q s)).2 ((enabledStop_none_iff vl s).1 h)

theorem storeStop_withPc {s : State} {es : ElemSize} {seg : Segment} {la : Addr} {n : Nat}
    (h : storeStop s es seg la n = none) (q : Addr) : storeStop (withPc q s) es seg la n = none :=
  (storeStop_none_iff (s := withPc q s)).2 ((storeStop_none_iff (s := s)).1 h)

/-- Settles O41: `pc` is an address term of a RIP-relative operand and is otherwise only advanced. -/
theorem positionIndependence : Obligations.PositionIndependence := by
  refine ⟨fun s es p d x b ilen => ⟨?_, fun h => ?_⟩, fun i s t q hrip h => ?_⟩
  · rw [effectiveAddress, toNat_toAsz, asz_eq]
  · rw [segmentOf, h]
  · rw [encode_length, Instr.len]
    change exec i (withPc q s) = _
    cases hi : i.shape with
    | store es vl p k src m =>
      rw [exec_store hi] at h ⊢
      obtain ⟨hen, hstop, rfl⟩ := storeForm_next h
      have haddr := storeAddr_withPc (fun d x b e => hrip es vl p k src d x b (e ▸ hi)) q s es p
      have hstop' := storeStop_withPc hstop q
      rw [← haddr] at hstop'
      rw [storeForm_of_checks (enabledStop_withPc hen q) hstop', haddr]
      rfl
    | reg es vl p z k dst src =>
      rw [exec_reg hi] at h ⊢
      obtain ⟨hen, rfl⟩ := regForm_next h
      rw [regForm_of_enabled (enabledStop_withPc hen q)]
      rfl

end Sys2Proof.Machine
end

section
/-! SUPPORT. Properties of the compress loop (40_vpcompressb.md R100; 95_test_vectors.md Q2, Q4, Q7, Q8): in place, twice,
with no writemask, and over doubled mask bits; and what a store writes of it. -/

namespace Sys2Proof.Machine

open Sys2Proof.Claims Sys2Proof.Safety

/-! ## In place (R100, third property) -/

/-- What the loop in place holds after `n` turns: the count, the packed elements, and above them the elements it began with. -/
theorem compressInPlace_loop (es : ElemSize) (v : Vec) (m : Mask) (n : Nat) (hn : ebits es * n ≤ 512) :
    (compressInPlace es n v m).1 = (positions m n).length ∧
      (∀ i (h : i < (positions m n).length), elem es (compressInPlace es n v m).2 i = elem es v (positions m n)[i]) ∧
      ∀ i, (positions m n).length ≤ i → elem es (compressInPlace es n v m).2 i = elem es v i := by
  induction n with
  | zero => simp [compressInPlace, positions]
  | succ n ih =>
    rw [Nat.mul_add] at hn
    obtain ⟨hk, hpacked, habove⟩ := ih (by omega)
    have hle := positions_length_le m n
    have hstep : compressInPlace es (n + 1) v m =
        compressTurn es (compressInPlace es n v m).2 m (compressInPlace es n v m) n := by
      simp [compressInPlace, List.range_succ, compressTurn]
    rw [hstep, positions_succ]
    by_cases hm : m.getLsbD n
    · have hroom : ebits es * (positions m n).length + ebits es ≤ 512 := by
        have := Nat.mul_le_mul_left (ebits es) hle
        omega
      simp only [compressTurn, hm, if_true, List.length_append, List.length_singleton, habove n hle, hk]
      refine ⟨trivial, fun i hi => ?_, fun i hi => ?_⟩
      · obtain hlt | rfl : i < (positions m n).length ∨ i = (positions m n).length := by omega
        · rw [elem_setElem_other _ _ _ hroom (by omega), hpacked i hlt, List.getElem_append_left hlt]
        · rw [elem_setElem_same _ _ _ _ hroom, List.getElem_concat_length rfl]
      · rw [elem_setElem_other _ _ _ hroom (by omega), habove i (by omega)]
    · simp only [compressTurn, hm, Bool.false_eq_true, if_false]
      exact ⟨hk, hpacked, habove⟩

/-- Settles O45: element by element both are the packed elements and, above them, the old ones. -/
theorem inPlaceLoopAgrees : Obligations.InPlaceLoopAgrees := by
  intro es vl v m
  obtain ⟨hk, hpacked, habove⟩ := compressInPlace_loop es v m (klOf es vl) (ebits_mul_klOf_le es vl)
  refine ⟨hk.trans (compress_count es vl v m).symm, fun i hi => ?_⟩
  by_cases hlt : i < (positions m (klOf es vl)).length
  · rw [hpacked i hlt, elem_regResult_packed hlt]
  · rw [habove i (by omega), elem_regResult_above (by omega) hi, if_neg (by simp)]

/-! ## Twice (Q4) -/

/-- The positions of a mask whose ones are the first k bits. -/
theorem positions_of_first {m : Mask} {n k : Nat} (hk : k ≤ n) (h : ∀ j < n, m.getLsbD j = decide (j < k)) :
    positions m n = List.range k := by
  obtain ⟨d, rfl⟩ := Nat.exists_eq_add_of_le hk
  have hlow : (List.range k).filter (fun j => m.getLsbD j) = List.range k :=
    List.filter_eq_self.2 fun j hj => by
      have hj := List.mem_range.1 hj
      rw [h j (by omega)]; exact decide_eq_true hj
  have hhigh : ((List.range d).map (k + ·)).filter (fun j => m.getLsbD j) = [] :=
    List.filter_eq_nil_iff.2 fun j hj => by
      obtain ⟨l, hl, rfl⟩ := List.mem_map.1 hj
      have hl := List.mem_range.1 hl
      rw [h _ (by omega)]; simp
  rw [positions, List.range_add, List.filter_append, hlow, hhigh, List.append_nil]

/-- Settles O46: under its first k positions the packed value's active elements are its own packed elements. -/
theorem compressTwiceIsOnce : Obligations.CompressTwiceIsOnce := by
  intro es vl src m m' h
  have hk := compress_count es vl src m
  have hpos : positions m' (klOf es vl) = List.range (positions m (klOf es vl)).length :=
    positions_of_first (positions_length_le _ _) (by simpa only [hk] using h)
  refine compress_ext (by rw [hpos, List.length_range]) fun i hi' hi => ?_
  rw [← compress_elem es vl src m hi]
  simp [hpos]

/-! ## No writemask (Q2) -/

/-- R69: with aaa = 000 every element is active. -/
theorem getLsbD_writemask_zero (s : State) (es : ElemSize) (vl : VecLen) :
    ∀ j < klOf es vl, (writemask s 0#3 (klOf es vl)).getLsbD j = true := by
  intro j hj
  rw [getLsbD_writemask _ _ _ _ (klOf_le es vl)]
  simp [hj]

/-- R108 with all elements active: the source value. -/
theorem regResult_of_all {es : ElemSize} {vl : VecLen} {z : Bool} {m : Mask} {old src : Vec}
    (h : ∀ j < klOf es vl, m.getLsbD j = true) :
    regResult es vl z m old src = (src.setWidth (vlBits vl)).setWidth 512 := by
  refine BitVec.eq_of_getLsbD_eq fun b hb => ?_
  rw [getLsbD_regResult, positions_eq_range h, List.length_range, klOf_mul_ebits]
  by_cases hv : vlBits vl ≤ b
  · simp [hv]
  · rw [if_neg hv, if_pos (by omega), getLsbD_compress_of_all h (by omega), getLsbD_setWidth_vlBits _ (by omega)]

/-- Settles O47: with aaa = 000 the result is the source value. -/
theorem unmaskedFormCopies : Obligations.UnmaskedFormCopies := by
  intro es vl p z dst src s hen
  rw [exec_reg (Shape.shape_instr _), regForm_of_enabled ((enabledStop_none_iff vl s).2 hen),
    regResult_of_all (getLsbD_writemask_zero s es vl), sourceValue, BitVec.setWidth_setWidth_of_le _ (vlBits_le vl),
    BitVec.setWidth_eq]

/-! ## Doubled mask bits (Q7) -/

/-- A word element is two byte elements. -/
theorem setElem_word (v src : Vec) {i : Nat} (hi : 16 * i + 16 ≤ 512) (j : Nat) :
    setElem .word v i (elem .word src j) =
      setElem .byte (setElem .byte v (2 * i) (elem .byte src (2 * j))) (2 * i + 1) (elem .byte src (2 * j + 1)) := by
  have hbyte : ebits .byte = 8 := rfl
  have hword : ebits .word = 16 := rfl
  refine BitVec.eq_of_getLsbD_eq fun b hb => ?_
  rw [getLsbD_setElem _ _ _ _ _ (by rw [hword]; omega), getLsbD_setElem _ _ _ _ _ (by rw [hbyte]; omega),
    getLsbD_setElem _ _ _ _ _ (by rw [hbyte]; omega)]
  simp only [getLsbD_elem, hbyte, hword]
  by_cases hupper : 8 * (2 * i + 1) ≤ b ∧ b < 8 * (2 * i + 1) + 8
  · rw [if_pos hupper, if_pos (by omega), show 16 * j + (b - 16 * i) = 8 * (2 * j + 1) + (b - 8 * (2 * i + 1)) by omega]
    simp [show b - 16 * i < 16 by omega, show b - 8 * (2 * i + 1) < 8 by omega]
  rw [if_neg hupper]
  by_cases hlower : 8 * (2 * i) ≤ b ∧ b < 8 * (2 * i) + 8
  · rw [if_pos hlower, if_pos (by omega), show 16 * j + (b - 16 * i) = 8 * (2 * j) + (b - 8 * (2 * i)) by omega]
    simp [show b - 16 * i < 16 by omega, show b - 8 * (2 * i) < 8 by omega]
  · rw [if_neg hlower, if_neg (by omega)]

/-- R100's loop over words is its loop over bytes under the doubled mask, which counts twice as many. -/
theorem compress_byte_doubled {src : Vec} {m m' : Mask} {n : Nat} (hn : 16 * n ≤ 512)
    (h : ∀ j < n, m'.getLsbD (2 * j) = m.getLsbD j ∧ m'.getLsbD (2 * j + 1) = m.getLsbD j) :
    compress .byte (2 * n) src m' = (2 * (compress .word n src m).1, (compress .word n src m).2) := by
  induction n with
  | zero => rfl
  | succ n ih =>
    have hprev := ih (by omega) fun j hj => h j (by omega)
    obtain ⟨heven, hodd⟩ := h n (by omega)
    have hroom : 16 * (compress .word n src m).1 + 16 ≤ 512 := by
      have hcount := (compress_loop .word src m n (by change 16 * n ≤ 512; omega)).1
      have := positions_length_le m n
      omega
    have hbytes : compress .byte (2 * (n + 1)) src m' =
        compressTurn .byte src m' (compressTurn .byte src m' (compress .byte (2 * n) src m') (2 * n)) (2 * n + 1) := by
      simp [compress, Nat.mul_succ, List.range_succ]
    have hword : compress .word (n + 1) src m = compressTurn .word src m (compress .word n src m) n := by
      simp [compress, List.range_succ]
    rw [hbytes, hword, hprev]
    by_cases hm : m.getLsbD n
    · simp only [compressTurn, heven, hodd, hm, if_true, setElem_word _ _ hroom]
      rfl
    · simp only [compressTurn, heven, hodd, hm, Bool.false_eq_true, if_false]

theorem klOf_byte (vl : VecLen) : klOf .byte vl = 2 * klOf .word vl := by cases vl <;> rfl

theorem regResult_byte_doubled {vl : VecLen} {z : Bool} {m m' : Mask} {old src : Vec}
    (h : ∀ j < klOf .word vl, m'.getLsbD (2 * j) = m.getLsbD j ∧ m'.getLsbD (2 * j + 1) = m.getLsbD j) :
    regResult .byte vl z m' old src = regResult .word vl z m old src := by
  have hn : 16 * klOf .word vl ≤ 512 := ebits_mul_klOf_le .word vl
  have hbits : ∀ k, 2 * k * ebits .byte = k * ebits .word := fun k => by simp only [ebits, esize]; omega
  simp only [regResult, klOf_byte, compress_byte_doubled hn h, hbits]

/-- Settles O48: bit by bit the byte form's mask is the doubled one. -/
theorem wordFormIsDoubledByteForm : Obligations.WordFormIsDoubledByteForm := by
  intro vl p z k dst src s t t' v hk h ht ht'
  obtain rfl := exec_reg_next (Shape.shape_instr _) ht
  obtain rfl := exec_reg_next (Shape.shape_instr _) ht'
  rw [readZmm_complete, readZmm_writeZmm_same, readZmm_complete, readZmm_writeZmm_same]
  refine regResult_byte_doubled fun j hj => ?_
  have hread : readK { s with kreg := s.kreg.set k.toNat v k.isLt } k = v := readK_withKreg_set s k v
  have hkl := klOf_byte vl
  rw [getLsbD_writemask _ _ _ _ (klOf_le .byte vl), getLsbD_writemask _ _ _ _ (klOf_le .byte vl),
    getLsbD_writemask _ _ _ _ (klOf_le .word vl), hread, (h j hj).1, (h j hj).2]
  simp [hj, show 2 * j < klOf .byte vl by omega, show 2 * j + 1 < klOf .byte vl by omega]

/-! ## What a store writes (Q8) -/

/-- Below the packed bits a register form's result is the packed value. -/
theorem regResult_byte_packed {es : ElemSize} {vl : VecLen} {z : Bool} {m : Mask} {old src : Vec} {j : Nat}
    (hj : j < (positions m (klOf es vl)).length * esize es) :
    (regResult es vl z m old src).extractLsb' (8 * j) 8 = (compress es (klOf es vl) src m).2.extractLsb' (8 * j) 8 := by
  have hpacked : 8 * j + 8 ≤ (positions m (klOf es vl)).length * ebits es := by
    rw [ebits, ← Nat.mul_assoc]; omega
  have hvl : (positions m (klOf es vl)).length * ebits es ≤ vlBits vl := by
    rw [← klOf_mul_ebits es vl]; exact Nat.mul_le_mul_right _ (positions_length_le _ _)
  refine BitVec.eq_of_getLsbD_eq fun b hb => ?_
  rw [BitVec.getLsbD_extractLsb', BitVec.getLsbD_extractLsb', getLsbD_regResult, if_neg (by omega), if_pos (by omega)]

/-- Settles O49: the stored bytes are the packed value's, which the register form leaves below its packed bits. -/
theorem storeWritesZeroingResult : Obligations.StoreWritesZeroingResult := by
  intro es vl p q k src dst m s t t' ht ht' j hj
  obtain rfl := exec_reg_next (Shape.shape_instr _) ht'
  rw [byteAt_exec_store (Shape.shape_instr _) ht, if_pos (by omega), readZmm_complete, readZmm_writeZmm_same,
    Nat.add_sub_cancel_left, regResult_byte_packed (by rwa [positions_writemask])]
  rfl

end Sys2Proof.Machine
end

section
/-! SUPPORT. The store intrinsics (42_intrinsics.md R124): `Store` at `base_addr` of the active elements of `a`, which is what a
store form does but for the advance of `pc`. -/

namespace Sys2Proof.Machine

open Sys2Proof.Claims Sys2Proof.Safety

section intrinsic
variable {es : ElemSize} {vl : VecLen} {k : BitVec (klOf es vl)} {a : BitVec (vlBits vl)}

/-- R121: the positions of the loop are those of the intrinsic's mask. -/
theorem positions_setWidth (k : BitVec (klOf es vl)) : positions (k.setWidth 64) (klOf es vl) = maskBits k := by
  refine List.filter_congr fun j hj => ?_
  have hj := List.mem_range.1 hj
  have := klOf_le es vl
  simp [show j < 64 by omega]

/-- R44: an intrinsic stores popcount(k) elements. -/
theorem compress_count_maskBits :
    (compress es (klOf es vl) (a.setWidth 512) (k.setWidth 64)).1 = (maskBits k).length := by
  rw [compress_count, positions_setWidth]

/-- R100: the i-th packed element is the i-th active element of `a`. -/
theorem compress_elem_maskBits {i : Nat} (h : i < (maskBits k).length) :
    elem es (compress es (klOf es vl) (a.setWidth 512) (k.setWidth 64)).2 i = elem es (a.setWidth 512) (maskBits k)[i] := by
  rw [compress_elem es vl _ _ (by rwa [positions_setWidth])]
  simp only [positions_setWidth]

/-- R124: what a completed store intrinsic leaves. -/
theorem compressStoreu_next {seg : Segment} {base : Addr} {s t : State} (h : compressStoreu es vl seg base k a s = .next t) :
    Storable s base ((maskBits k).length * esize es) ∧
      t = storeCommit s es base ((maskBits k).length * esize es)
        (compress es (klOf es vl) (a.setWidth 512) (k.setWidth 64)).2 := by
  obtain ⟨_, hstop, ht⟩ := storeAt_next h
  rw [compress_count_maskBits] at hstop ht
  exact ⟨(storeStop_none_iff.1 hstop).1, ht⟩

/-- R44, R124: what every byte reads after a completed store intrinsic. -/
theorem byteAt_compressStoreu {seg : Segment} {base : Addr} {s t : State}
    (h : compressStoreu es vl seg base k a s = .next t) (c : Nat) :
    byteAt t c =
      if base.toNat ≤ c ∧ c < base.toNat + (maskBits k).length * esize es then
        some ((compress es (klOf es vl) (a.setWidth 512) (k.setWidth 64)).2.extractLsb' (8 * (c - base.toNat)) 8)
      else byteAt s c := by
  obtain ⟨⟨_, hbytes⟩, rfl⟩ := compressStoreu_next h
  exact byteAt_storeCommit (es := es) (ilen := 0) (fun j hj => (hbytes j hj).1) c

end intrinsic

/-- R124: a masked store form is its intrinsic, and then the advance of `pc`. -/
theorem exec_store_eq_compressStoreu {i : Instr} {es : ElemSize} {vl : VecLen} {p : Prefixes} {k : KReg} {src : VReg}
    {m : MemOperand} (hi : i.shape = .store es vl p k src m) (hk : k ≠ 0#3) (s : State) :
    exec i s = mapOut (advancePc (storeLen p m)) (compressStoreu es vl (segmentOf p m) (storeAddr s es p m)
      ((readK s k).setWidth (klOf es vl)) ((readZmm s src).setWidth (vlBits vl)) s) := by
  rw [exec_store hi, storeForm, compressSource, writemask_of_ne hk]
  rfl

/-- Settles O52: the intrinsic is `Store`, whose commit writes the packed bytes alone, and so is its store form. -/
theorem compressStoreuIsStoreForm : Obligations.CompressStoreuIsStoreForm := by
  refine ⟨fun es vl seg base k a s => ⟨fun t h => ?_, fun hen hn hw => ?_⟩, fun s p k src m hk => ?_⟩
  · have hread := byteAt_compressStoreu h
    obtain ⟨⟨hw, _⟩, rfl⟩ := compressStoreu_next h
    refine ⟨fun i hi b hb => ?_, fun c hc => ?_, fun hm => memWf_writeBytes hm _ _ _ hw, rfl, by simp [SameOtherState], rfl⟩
    · have hlt := elem_byte_lt hi hb
      rw [hread, if_pos (by omega), Nat.add_assoc, Nat.add_sub_cancel_left, byte_of_elem es _ i b hb,
        compress_elem_maskBits hi]
    · rw [hread, if_neg (by omega)]
  · have hstop := storeStop_of_wrap (s := s) (es := es) (seg := seg) (Nat.mul_pos hn (esize_pos es)) hw
    rw [← compress_count_maskBits (a := a)] at hstop
    simp only [compressStoreu, storeAt, (enabledStop_none_iff vl s).2 hen, hstop, Stop.out_refuse]
  · exact ⟨exec_store_eq_compressStoreu rfl hk s, exec_store_eq_compressStoreu rfl hk s,
      exec_store_eq_compressStoreu rfl hk s, exec_store_eq_compressStoreu rfl hk s,
      exec_store_eq_compressStoreu rfl hk s, exec_store_eq_compressStoreu rfl hk s⟩

end Sys2Proof.Machine
end
